-- ==== Sys2Proof/Word.lean ====
section
/-! DEFINITION. The word types of the BTE. -/

namespace Sys2Proof

/-- A byte of memory or of a stream (`u8`, 00_scope R10). -/
abbrev Byte := BitVec 8

/-- A 32-bit register of the register block (10_state R20). -/
abbrev Word := BitVec 32

/-- A 64-bit argument or result value, `HI·2^32 + LO` (10_state R25 to R30). -/
abbrev DWord := BitVec 64

end Sys2Proof
end

