-- ==== Sys2Proof/Syntax.lean ====
section
/-! DEFINITION. The commands of the BTE: one constructor per row of spec/opcode_table.json. -/

namespace Sys2Proof

/-- A legal command word (30_encoding R90, R92). `bpp` is the field BPP = CMD[31:16] as a number; NOP, DELTA and
DELTA_INV ignore it (R96), and it is kept in the syntax so that no bit of a word is dropped (log 17). `lzEn` is the
bit LZ_EN of BLK_ENC; in the other commands it must be 0 (R95). -/
inductive Instr where
  /-- OP 0x0, 40_control R130. -/
  | nop (bpp : Nat)
  /-- OP 0x1, 41_transpose R150. -/
  | shuffle (bpp : Nat)
  /-- OP 0x2, 41_transpose R155. -/
  | unshuffle (bpp : Nat)
  /-- OP 0x3, 42_delta R170. -/
  | delta (bpp : Nat)
  /-- OP 0x4, 42_delta R175. -/
  | deltaInv (bpp : Nat)
  /-- OP 0x5, 44_block_encode R260. -/
  | blkEnc (lzEn : Bool) (bpp : Nat)
  /-- OP 0x6, 45_block_decode R310. -/
  | blkDec (bpp : Nat)
  deriving DecidableEq, Repr

/-- The field OP of a command (30_encoding R92). -/
def Instr.op : Instr → Nat
  | .nop _ => 0
  | .shuffle _ => 1
  | .unshuffle _ => 2
  | .delta _ => 3
  | .deltaInv _ => 4
  | .blkEnc _ _ => 5
  | .blkDec _ => 6

/-- The field LZ_EN of a command, 0 or 1 (30_encoding R90, R95). -/
def Instr.lzBit : Instr → Nat
  | .blkEnc lzEn _ => lzEn.toNat
  | .nop _ | .shuffle _ | .unshuffle _ | .delta _ | .deltaInv _ | .blkDec _ => 0

/-- The field BPP of a command (30_encoding R90, R91). -/
def Instr.bpp : Instr → Nat
  | .nop bpp => bpp
  | .shuffle bpp => bpp
  | .unshuffle bpp => bpp
  | .delta bpp => bpp
  | .deltaInv bpp => bpp
  | .blkEnc _ bpp => bpp
  | .blkDec bpp => bpp

end Sys2Proof
end

