-- ==== Sys2Proof/WellFormed.lean ====
section
/-! DEFINITION. Which terms of `Instr` stand for a command word. -/

namespace Sys2Proof

/-- A command is well formed when its BPP fits the 16-bit field ("Maximum BPP: 65,535", 30_encoding R91). A BPP of 0
is well formed: the word exists, and the command fails with InvalidParameter (R96). -/
def Instr.wf (i : Instr) : Bool := i.bpp < 65536

end Sys2Proof
end

