-- ==== Sys2Proof/Decode.lean ====
section
/-! DEFINITION. The decoder of command words, total on every 32-bit word, and the encoder (30_encoding). -/

namespace Sys2Proof

/-- Why a command word is illegal (30_encoding R93 to R95). Each is reported as IllegalCommand. -/
inductive Illegal where
  /-- OP in 0x7..0xF (R93). -/
  | reservedOpcode
  /-- RSV0 or RSV1 is not 0 (R94). -/
  | reservedBits
  /-- LZ_EN = 1 with an OP other than BLK_ENC (R95). -/
  | lzNotAllowed
  deriving DecidableEq, Repr

/-- `w[hi:lo]`, zero-extended (00_scope R9). -/
def wordField (w : Word) (hi lo : Nat) : Nat :=
  w.toNat / 2 ^ lo % 2 ^ (hi + 1 - lo)

/-- The command a word stands for, or why it is illegal (30_encoding R90 to R95; 40_control R123 check 1). -/
def decode (w : Word) : Except Illegal Instr :=
  let op := wordField w 3 0
  let lzEn := wordField w 8 8
  let bpp := wordField w 31 16
  if wordField w 7 4 ≠ 0 ∨ wordField w 15 9 ≠ 0 then .error .reservedBits
  else if lzEn = 1 ∧ op ≠ 5 then .error .lzNotAllowed
  else match op with
    | 0 => .ok (.nop bpp)
    | 1 => .ok (.shuffle bpp)
    | 2 => .ok (.unshuffle bpp)
    | 3 => .ok (.delta bpp)
    | 4 => .ok (.deltaInv bpp)
    | 5 => .ok (.blkEnc (lzEn = 1) bpp)
    | 6 => .ok (.blkDec bpp)
    | _ => .error .reservedOpcode

/-- The word of a command: `(BPP << 16) | (LZ_EN << 8) | OP` (30_encoding R100). -/
def encode (i : Instr) : Word :=
  BitVec.ofNat 32 (i.bpp * 2 ^ 16 + i.lzBit * 2 ^ 8 + i.op)

/-- The word whose low `nbits` bits are those of `w` and whose other bits are 0. -/
def tableWord (nbits w : Nat) : Word := BitVec.ofNat 32 (w % 2 ^ nbits)

/-- The instruction the decoder reads from the bits `w`, numbered as spec/opcode_table.json numbers them: one 32-bit
word, bit 0 the least significant. -/
def decodeTableWord (nbits w : Nat) : Option Instr :=
  match decode (tableWord nbits w) with
  | .ok i => some i
  | .error _ => none

end Sys2Proof
end

