-- ==== Sys2Proof/Config.lean ====
section
/-! DEFINITION. What an implementation fixes (00_scope R8): the open platform parameters, the constants of
the spec, and the free values, which have no body so that nothing can be proved of a particular one. -/

namespace Sys2Proof

/-- The OPEN parameters of 00_scope R8: `ADDR_W`, `MEM_SIZE`, `MMIO_BASE`. They are fixed for a machine: the state
carries them and no step changes them, so a statement over all states is a statement over all platforms. -/
structure Platform where
  addrW : Nat
  memSize : Nat
  mmioBase : Nat
  deriving DecidableEq, Repr

/-- The constraints of 00_scope R8 and 20_memory R60 on the parameters. -/
def Platform.valid (p : Platform) : Bool :=
  9 ≤ p.addrW && p.addrW ≤ 64 && 1 ≤ p.memSize && p.memSize ≤ p.mmioBase &&
    p.mmioBase + 256 ≤ 2 ^ p.addrW && p.mmioBase % 256 == 0

/-- The platform of 95_test_vectors section 8, which `State.reset` takes. DESIGN CHOICE, unsafe: the spec leaves the
parameters open (log 1). -/
def Platform.example95 : Platform :=
  { addrW := 32, memSize := 0x00100000, mmioBase := 0xFFFF0000 }

/-- `ENGINE_ID`, the value of the ID register (00_scope R8, 10_state R21). -/
def Config.engineId : Word := 0x42544501#32

/-- `DELTA_SPLIT`: above this length the delta uses four streams (00_scope R8, 42_delta R168). -/
def Config.deltaSplit : Nat := 2048

/-- `SB_MAX`: exclusive upper bound on a block-codec length (00_scope R8, 30_encoding R98). -/
def Config.sbMax : Nat := 2 ^ 24

/-- `BLOCK_ELEMS`: elements per block (00_scope R8). -/
def Config.blockElems : Nat := 256

/-- `ROWS`: rows of a full plane (00_scope R8). -/
def Config.rows : Nat := 16

/-- `ROW_BYTES`: bytes per row (00_scope R8). -/
def Config.rowBytes : Nat := 16

/-- `LZ_BPP_SET`: the element widths for which the light LZ pass runs (00_scope R8, 44_block_encode R286). -/
def Config.lzBppSet : List Nat := [3, 4, 6, 8]

/-- `LZ_HASH_ENTRIES`: entries of the LZ hash table (00_scope R8). -/
def Config.lzHashEntries : Nat := 256

/-- `LZ_THROTTLE_N0`: initial threshold of the LZ throttle (00_scope R8, 44_block_encode R290). -/
def Config.lzThrottleN0 : Nat := 4

/-! Free values. Each is indexed by a counter of the state (`draws`, or `loads` for a load), so that every draw is fresh.
They are DESIGN CHOICE, safe: a statement holds whatever they are (logs 8 to 11). -/

/-- Which of the values a raced source byte has held a read sees: draw, reading, address (70_reset R400). A reading is named
by a path (`Reads`), so that no two readings of a command share a choice. -/
opaque Config.raceChoice : Nat → List Nat → Nat → Nat

/-- Whether the host's byte, not the command's, is the final value of a destination byte the host stored to between the
start and the observed completion: draw, address (70_reset R401). -/
opaque Config.hostWins : Nat → Nat → Bool

/-- Which of the values that 70_reset R401 allows a load of a destination byte returns: load, address. -/
opaque Config.readChoice : Nat → Nat → Nat

/-- A destination byte after a reset during a command: draw, address (70_reset R392). -/
opaque Config.abortByte : Nat → Nat → Byte

end Sys2Proof
end

