-- ==== Sys2Proof/Machine/State.lean ====
section
/-! DEFINITION. The state of the machine, as plain data, its events, its outcomes and its reset. -/

namespace Sys2Proof.Machine

open Sys2Proof

/-- The error codes of 60_exceptions R350. Five of them are never raised (R351) and keep their numbers. -/
inductive Err where
  | undefined
  | srcOverflow
  | alloc
  | invalidInput
  | invalidInstructionSet
  | dstOverflow
  | invalidBytesoftype
  | entropyInternal
  | invalidParameter
  | illegalCommand
  | busFault
  deriving DecidableEq, Repr

/-- The five 64-bit argument values (10_state R25 to R29, R33). -/
structure Args where
  src : DWord
  dst : DWord
  len : DWord
  olen : DWord
  cap : DWord
  deriving DecidableEq, Repr

/-- The fields of STATUS that hold state (10_state R23); the reserved fields read 0. -/
structure Status where
  busy : Bool
  done : Bool
  ovr : Bool
  errcode : Byte
  deriving DecidableEq, Repr

/-- System memory as (address, byte) pairs. The canonical form (`Memory.wf`): addresses strictly rising, no byte 0,
which is what an unlisted address reads as (log 2). -/
structure Memory where
  cells : List Host.Cell
  deriving DecidableEq, Repr

/-- Working storage of 10_state R38 that no host access reads: the planes of the current block, the LZ hash table and
throttle, the staging buffer. What it holds between commands is DESIGN CHOICE (log 4); no step reads it. -/
structure Work where
  planes : List (List Byte)
  table : List (Option Nat)
  threshold : Nat
  fails : Nat
  rawNext : Bool
  staging : List Byte
  deriving DecidableEq, Repr

/-- What happens next outside the engine's own computation (40_control R120). An agent's load and store give the bytes
in address order, so no byte order of the host enters (20_memory R65). -/
inductive Event where
  /-- A load of `width` bytes at a system address. -/
  | load (addr width : Nat)
  /-- A store of bytes at a system address. -/
  | store (addr : Nat) (bytes : List Byte)
  /-- The engine's turn: if a command is in flight it completes (40_control R125, R126). -/
  | engine
  /-- Power-on reset (70_reset R390, R392). -/
  | powerOn
  deriving DecidableEq, Repr

/-- A byte that a completed command wrote and whose completion no host has observed yet (20_memory R73; 70_reset R401):
the byte the command wrote there, and another value that a load may still return. -/
structure UnseenByte where
  addr : Nat
  written : Byte
  older : Byte
  deriving DecidableEq, Repr

/-- The machine. The fields from `script` on are the model's own (INVENTORY, State). -/
structure State where
  /-- ADDR_W, MEM_SIZE, MMIO_BASE (00_scope R8); no step changes them. -/
  platform : Platform
  /-- CTRL.IE (10_state R22). -/
  ie : Bool
  /-- STATUS (10_state R23); `status.busy` is also the phase (R37). -/
  status : Status
  /-- CMD (10_state R24). -/
  cmd : Word
  /-- SRC, DST, LEN, OLEN, CAP (10_state R25 to R29). -/
  args : Args
  /-- RESULT (10_state R30). -/
  result : DWord
  /-- L.CMD (10_state R37). -/
  latchCmd : Word
  /-- L.SRC, L.DST, L.LEN, L.OLEN, L.CAP (10_state R37). -/
  latch : Args
  /-- Working storage (10_state R38). -/
  work : Work
  /-- System memory (20_memory R60). -/
  mem : Memory
  /-- The events to come, next first (logs 5, 6). -/
  script : List Event
  /-- The bytes the last load returned, lowest address first (log 16). -/
  hostData : List Byte
  /-- For each byte stored into the running command's source window: its address, with the value it held before and with
  the value stored (70_reset R400, log 8). -/
  raced : List Host.Cell
  /-- The bytes stored into the running command's destination window, with their addresses, newest first (70_reset R401,
  log 9). -/
  hostStores : List Host.Cell
  /-- What completed commands wrote before a completion was observed, newest first (20_memory R73, log 12). -/
  unseen : List UnseenByte
  /-- How many draws of free values have been made (log 16). -/
  draws : Nat
  /-- How many loads of system memory have been made (log 16). -/
  loads : Nat
  deriving DecidableEq, Repr

/-- Why the machine stops. Closed. -/
inductive Fault where
  /-- Raised by a HOST load or store at an address that is neither implemented memory nor in the register block
  (20_memory R60). No command raises it. Safe: the model stops where a platform may go on (log 13). -/
  | noMemory (addr : Nat)
  deriving DecidableEq, Repr

/-- Why an instruction has no meaning. Closed. -/
inductive Refusal where
  /-- Raised by an arm of `exec` for an instruction that has no meaning yet; no arm raises it. Safe. -/
  | notModelled (mnemonic : String)
  deriving DecidableEq, Repr

/-- All five values 0. -/
def Args.zero : Args := { src := 0, dst := 0, len := 0, olen := 0, cap := 0 }

/-- STATUS = 0 (10_state R40). -/
def Status.zero : Status := { busy := false, done := false, ovr := false, errcode := 0 }

/-- Working storage at reset: DESIGN CHOICE, unobservable (10_state R40, log 4). -/
def Work.initial : Work :=
  { planes := [], table := List.replicate Config.lzHashEntries none, threshold := Config.lzThrottleN0,
    fails := 0, rawNext := false, staging := [] }

/-- The machine after power-on reset (10_state R40, 70_reset R390): every register at its stated value, memory with
nothing listed, no event to come. The latched copies, the working storage, the platform and the model's own fields
take values the spec does not state (logs 1 to 5, 16). -/
def State.reset : State :=
  { platform := Platform.example95
    ie := false
    status := Status.zero
    cmd := 0
    args := Args.zero
    result := 0
    latchCmd := 0
    latch := Args.zero
    work := Work.initial
    mem := { cells := [] }
    script := []
    hostData := []
    raced := []
    hostStores := []
    unseen := []
    draws := 0
    loads := 0 }

end Sys2Proof.Machine
end

