-- ==== Sys2Proof/Machine/Flags.lean ====
section
/-! DEFINITION. The flags: STATUS and its changes, the CTRL, STATUS and CAPS words as a host reads them, and IRQ. -/

namespace Sys2Proof.Machine

open Sys2Proof

/-- The number of an error code (60_exceptions R350). -/
def Err.code : Err → Byte
  | .undefined => 0x01
  | .srcOverflow => 0x02
  | .alloc => 0x03
  | .invalidInput => 0x04
  | .invalidInstructionSet => 0x05
  | .dstOverflow => 0x06
  | .invalidBytesoftype => 0x07
  | .entropyInternal => 0x08
  | .invalidParameter => 0x09
  | .illegalCommand => 0x10
  | .busFault => 0x11

/-- STATUS as a host reads it: BUSY bit 0, DONE bit 1, OVR bit 2, ERRCODE bits 15:8, the rest 0 (10_state R23). -/
def Status.word (t : Status) : Word :=
  BitVec.ofNat 32 (t.busy.toNat + 2 * t.done.toNat + 4 * t.ovr.toNat + 256 * t.errcode.toNat)

/-- CTRL as a host reads it: IE bit 0, SRST and the reserved bits 0 (10_state R22). -/
def ctrlWord (ie : Bool) : Word := BitVec.ofNat 32 ie.toNat

/-- CAPS: ADDR_W bits 7:0, LZ_THROTTLE_N0 bits 15:8, the rest 0 (10_state R31). -/
def capsWord (p : Platform) : Word := BitVec.ofNat 32 (p.addrW % 256 + 256 * Config.lzThrottleN0)

/-- STATUS after a start: BUSY set, DONE and ERRCODE cleared, OVR kept (40_control R121). -/
def Status.started (t : Status) : Status := { busy := true, done := false, ovr := t.ovr, errcode := 0 }

/-- STATUS after a dropped CMD write: OVR set (40_control R122). -/
def Status.dropped (t : Status) : Status := { t with ovr := true }

/-- STATUS after a completion with outcome `code`: BUSY cleared, DONE set, OVR kept (40_control R125). -/
def Status.completed (t : Status) (code : Byte) : Status :=
  { busy := false, done := true, ovr := t.ovr, errcode := code }

/-- STATUS after a host write of it: bit 1 clears DONE, bit 2 clears OVR, nothing else changes (10_state R23). -/
def Status.written (t : Status) (w : Word) : Status :=
  { t with done := t.done && !w.getLsbD 1, ovr := t.ovr && !w.getLsbD 2 }

/-- The output pin IRQ = CTRL.IE AND STATUS.DONE (10_state R39, 60_exceptions R360). -/
def State.irq (s : State) : Bool := s.ie && s.status.done

end Sys2Proof.Machine
end

