-- ==== Sys2Proof/Machine/AddressMap.lean ====
section
/-! DEFINITION. Which register an address is (10_state R20), and which accesses reach a register or memory (20_memory R60,
R75). -/

namespace Sys2Proof.Machine

open Sys2Proof

/-- The registers of 10_state R20; `reserved` is every other offset. -/
inductive Reg where
  | id | ctrl | status | cmd
  | srcLo | srcHi | dstLo | dstHi | lenLo | lenHi | olenLo | olenHi | capLo | capHi
  | resultLo | resultHi | caps
  | reserved
  deriving DecidableEq, Repr

/-- The register at an offset that is a multiple of 4 (10_state R20). -/
def regAt (off : Nat) : Reg :=
  match off with
  | 0x00 => .id
  | 0x04 => .ctrl
  | 0x08 => .status
  | 0x0C => .cmd
  | 0x10 => .srcLo
  | 0x14 => .srcHi
  | 0x18 => .dstLo
  | 0x1C => .dstHi
  | 0x20 => .lenLo
  | 0x24 => .lenHi
  | 0x28 => .olenLo
  | 0x2C => .olenHi
  | 0x30 => .capLo
  | 0x34 => .capHi
  | 0x38 => .resultLo
  | 0x3C => .resultHi
  | 0x40 => .caps
  | _ => .reserved

/-- An address of the register block, `MMIO_BASE .. MMIO_BASE + 255` (20_memory R60). An access is one of the register
block when its first byte is (log 13). -/
def inBlock (p : Platform) (a : Nat) : Bool := p.mmioBase ≤ a && a < p.mmioBase + 256

/-- A register access is 4 bytes at an offset that is a multiple of 4 (20_memory R75). -/
def wordAccess (off width : Nat) : Bool := width == 4 && off % 4 == 0

/-- The register that an access of `width` bytes at address `a` reads or writes, if it is a register access
(20_memory R75). -/
def regAccess (p : Platform) (a width : Nat) : Option Reg :=
  if inBlock p a && wordAccess (a - p.mmioBase) width then some (regAt (a - p.mmioBase)) else none

/-- An access of `width` bytes at address `a` that is not one of the register block lies in implemented memory
(20_memory R60). -/
def inMemory (p : Platform) (a width : Nat) : Bool := a + width ≤ p.memSize

end Sys2Proof.Machine
end

