-- ==== Sys2Proof/Machine/Ops.lean ====
section
/-! DEFINITION. The shared operations: bytes and words, system memory, the start of a command, its completion (an
error's outcome included: the BTE has no trap, 60_exceptions R354), the draws of a race, and the reset. -/

namespace Sys2Proof.Machine

open Sys2Proof

/-! Little-endian bytes (00_scope R9). -/

/-- The low `n` bytes of `v`, least significant first. -/
def leBytes : Nat → Nat → List Byte
  | 0, _ => []
  | n + 1, v => BitVec.ofNat 8 v :: leBytes n (v / 256)

/-- The little-endian integer of a byte sequence: byte k holds bits `[8k+7:8k]`. -/
def leNat : List Byte → Nat
  | [] => 0
  | b :: bs => b.toNat + 256 * leNat bs

/-! System memory. -/

/-- The cells from address `a` on. In the canonical form the first of them is the cell at `a`, if it is listed. -/
def Memory.cellsFrom (m : Memory) (a : Nat) : Memory := { cells := m.cells.dropWhile (fun c => c.1 < a) }

/-- The byte of the first cell if that cell is at `a`; an unlisted address reads as 0 (DESIGN CHOICE, unsafe, log 2). -/
def Memory.headAt (m : Memory) (a : Nat) : Byte :=
  match m.cells with
  | [] => 0
  | c :: _ => if c.1 = a then c.2 else 0

/-- The byte at address `a`. -/
def Memory.read (m : Memory) (a : Nat) : Byte := (m.cellsFrom a).headAt a

/-- `MemRead(a, n)` (00_scope R12): the `n` bytes at `a .. a+n-1`. -/
def Memory.readBytes (m : Memory) : Nat → Nat → List Byte
  | _, 0 => []
  | a, n + 1 => (m.cellsFrom a).headAt a :: (m.cellsFrom a).readBytes (a + 1) n

/-- The cells of a byte sequence placed at `a`: a byte 0 is not listed. -/
def cellsOf : Nat → List Byte → List Host.Cell
  | _, [] => []
  | a, b :: bs => if b = 0 then cellsOf (a + 1) bs else (a, b) :: cellsOf (a + 1) bs

/-- `MemWrite(a, len(bs), bs)` (00_scope R12). -/
def Memory.writeBytes (m : Memory) (a : Nat) (bs : List Byte) : Memory :=
  { cells := m.cells.takeWhile (fun c => c.1 < a) ++ cellsOf a bs ++ (m.cellsFrom (a + bs.length)).cells }

/-- Addresses rise strictly, from `lo` on, and no byte is 0. -/
def canonicalFrom : Nat → List Host.Cell → Bool
  | _, [] => true
  | lo, c :: cs => lo ≤ c.1 && c.2 != 0 && canonicalFrom (c.1 + 1) cs

/-- The canonical form of memory: equal memories are equal lists. -/
def Memory.wf (m : Memory) : Bool := canonicalFrom 0 m.cells

/-- No cell lies at or above `hi`: only implemented memory holds bytes (20_memory R60). -/
def Memory.below (m : Memory) (hi : Nat) : Bool := m.cells.all (fun c => c.1 < hi)

/-! The windows of the command in flight (20_memory R61). -/

/-- Address `a` is in the source window `[L.SRC, L.SRC + L.LEN)`. -/
def State.inSource (s : State) (a : Nat) : Bool :=
  s.latch.src.toNat ≤ a && a < s.latch.src.toNat + s.latch.len.toNat

/-- Address `a` is in the destination window `[L.DST, L.DST + L.CAP)`. -/
def State.inDest (s : State) (a : Nat) : Bool :=
  s.latch.dst.toNat ≤ a && a < s.latch.dst.toNat + s.latch.cap.toNat

/-- `MemRead(L.SRC, L.LEN)`. -/
def State.source (s : State) : List Byte := s.mem.readBytes s.latch.src.toNat s.latch.len.toNat

/-! Start and dropped command (40_control R121, R122). -/

/-- The start of a command with word `w`, all in the host's one CMD write (40_control R121). -/
def State.startCommand (s : State) (w : Word) : State :=
  { s with
    cmd := w
    latchCmd := w
    latch := s.args
    result := 0
    status := s.status.started
    raced := []
    hostStores := [] }

/-- A CMD write while BUSY: only OVR changes (40_control R122). -/
def State.dropCommand (s : State) : State := { s with status := s.status.dropped }

/-- A host write of CMD (10_state R24). -/
def State.writeCmd (s : State) (w : Word) : State :=
  if s.status.busy then s.dropCommand else s.startCommand w

/-! Stores that are still to come before a completion is observed (70_reset R400). -/

/-- STATUS.BUSY after a store, as far as the store decides it: a CMD write starts a command, and a CTRL write with SRST ends
it (40_control R121, 70_reset R391). -/
def busyAfterStore (p : Platform) (busy : Bool) (a : Nat) (bytes : List Byte) : Bool :=
  match regAccess p a bytes.length with
  | some .cmd => true
  | some .ctrl => busy && !(BitVec.ofNat 32 (leNat bytes)).getLsbD 1
  | _ => busy

/-- The bytes of a store with their addresses. -/
def storedCells : Nat → List Byte → List Host.Cell
  | _, [] => []
  | a, b :: bs => (a, b) :: storedCells (a + 1) bs

/-- The bytes that the coming events store into memory until a STATUS read returns BUSY = 0 or an access faults. -/
def comingStores (p : Platform) (busy : Bool) : List Event → List Host.Cell
  | [] => []
  | .engine :: es => comingStores p false es
  | .powerOn :: es => comingStores p false es
  | .load a width :: es =>
    if inBlock p a then
      if regAccess p a width == some .status && !busy then [] else comingStores p busy es
    else if inMemory p a width then comingStores p busy es else []
  | .store a bytes :: es =>
    if inBlock p a then comingStores p (busyAfterStore p busy a bytes) es
    else if inMemory p a bytes.length then storedCells a bytes ++ comingStores p busy es
    else []

/-- The stores into the source window that come after the completion and before it is observed, where the completion is the
state's next act. -/
def State.lateStores (s : State) : List Host.Cell :=
  (comingStores s.platform false s.script).filter (fun c => s.inSource c.1)

/-! Races on the source window (70_reset R400). They arise only where a host breaks the hazard rules. -/

/-- What each reading of some source bytes sees; a reading is named by a path. -/
abbrev Reads := List Nat → List Byte

/-- No store into the source window between the start and the observed completion. -/
def State.unraced (s : State) : Bool := s.raced.isEmpty && s.lateStores.isEmpty

/-- The values byte `a` of the source window has, from the start to the observed completion: what it holds, what it held
before each store, and what is stored (70_reset R400). -/
def State.heldValues (s : State) (a : Nat) : List Byte :=
  s.mem.read a :: ((s.raced ++ s.lateStores).filter (fun c => c.1 = a)).map (fun c => c.2)

/-- What reading `r` of byte `a` sees: one of the values it has held, freely chosen (log 8). -/
def State.seen (s : State) (r : List Nat) (a : Nat) : Byte :=
  (s.heldValues a).getD (Config.raceChoice s.draws r a % (s.heldValues a).length) 0

/-- The source window as each reading sees it. -/
def State.snapshot (s : State) : Reads := fun r =>
  (List.range s.latch.len.toNat).map (fun k => s.seen r (s.latch.src.toNat + k))

/-- The output of a byte kernel `f` (SHUFFLE, UNSHUFFLE, DELTA, DELTA_INV), whose output is as long as its input:
`f` of the source window. In a race every output byte comes from its own reading of the window (70_reset R400, log 8). -/
def State.kernelOutput (s : State) (f : List Byte → List Byte) : List Byte :=
  if s.unraced then f s.source
  else (List.range s.latch.len.toNat).map (fun i => (f (s.snapshot [i])).getD i 0)

/-! Completion (40_control R125). -/

/-- The byte that the host last stored at `a` while the command ran, if `a` is in the destination window and it stored
there. It need not be the byte in memory (`State.keptByte`). -/
def State.hostByte (s : State) (a : Nat) : Option Byte := (s.hostStores.find? (fun c => c.1 = a)).map (fun c => c.2)

/-- The byte that ends up at `a` when the command writes `b` there: where the host stored to it while the command ran, freely
the host's byte or the command's (70_reset R401, log 9). -/
def State.deliveredByte (s : State) (a : Nat) (b : Byte) : Byte :=
  match s.hostByte a with
  | none => b
  | some h => if Config.hostWins s.draws a then h else b

/-- The bytes that end up at `L.DST ..` when the command writes `out` (70_reset R401). -/
def State.delivered (s : State) (out : List Byte) : List Byte :=
  if s.hostStores.isEmpty then out
  else out.zipIdx.map (fun p => s.deliveredByte (s.latch.dst.toNat + p.2) p.1)

/-- The records of the bytes `out` that a command wrote at `a`, where `old` were before (20_memory R73). -/
def unseenBytes : Nat → List Byte → List Byte → List UnseenByte
  | _, [], _ => []
  | a, b :: bs, old => { addr := a, written := b, older := old.headD 0 } :: unseenBytes (a + 1) bs old.tail

/-- The completion of the command in flight with an error: RESULT 0, the error's code, no byte of memory written
(40_control R125, R127; 60_exceptions R353). This is all that "taking an exception" is on the BTE: it has no trap, no
saved state and no handler (60_exceptions R354, R355). -/
def State.completeError (s : State) (e : Err) : State :=
  { s with
    status := s.status.completed e.code
    result := 0
    raced := []
    hostStores := []
    draws := s.draws + 1 }

/-- The completion with output `out`: its bytes at `L.DST`, RESULT its length (40_control R125, R128). Until it is observed,
a host may still see the bytes that were there (20_memory R73). -/
def State.completeOk (s : State) (out : List Byte) : State :=
  { s with
    status := s.status.completed 0
    result := BitVec.ofNat 64 out.length
    mem := s.mem.writeBytes s.latch.dst.toNat (s.delivered out)
    work := { s.work with staging := out }
    raced := []
    hostStores := []
    unseen := unseenBytes s.latch.dst.toNat out (s.mem.readBytes s.latch.dst.toNat out.length) ++ s.unseen
    draws := s.draws + 1 }

/-- `Complete()` of 40_control R125, from the outcome of `Validate()` and `Perform()`. -/
def State.complete (s : State) (r : Except Err (List Byte)) : State :=
  match r with
  | .error e => s.completeError e
  | .ok out => if s.latch.cap.toNat < out.length then s.completeError .dstOverflow else s.completeOk out

/-! Reset (70_reset R390 to R392). -/

/-- Memory after a reset. While a command is in flight, each byte of its destination window that is implemented memory
takes any value; no other byte changes, nor does a byte of its source window (70_reset R392, log 11). DESIGN CHOICE, safe:
R392 excepts no command, while 30_encoding R97 and 40_control R130 say that a NOP ignores DST and CAP and never writes
memory; the bytes are free for a NOP too, as for a command that its checks would refuse (log 11). -/
def State.abortedMem (s : State) : Memory :=
  if s.status.busy then
    let dst := s.latch.dst.toNat
    s.mem.writeBytes dst
      ((List.range (min (dst + s.latch.cap.toNat) s.platform.memSize - dst)).map
        (fun k => if s.inSource (dst + k) then s.mem.read (dst + k) else Config.abortByte s.draws (dst + k)))
  else s.mem

/-- Power-on or soft reset: every register as 10_state R40 says, the phase IDLE, memory as 70_reset R392 says. The
latched copies and the working storage, which R40 leaves unspecified, take the values of `State.reset` (logs 3, 4). -/
def State.resetEngine (s : State) : State :=
  { s with
    ie := false
    status := Status.zero
    cmd := 0
    args := Args.zero
    result := 0
    latchCmd := 0
    latch := Args.zero
    work := Work.initial
    mem := s.abortedMem
    raced := []
    hostStores := []
    draws := s.draws + 1 }

end Sys2Proof.Machine
end

