-- ==== Sys2Proof/Machine/Operands.lean ====
section
/-! DEFINITION. The operands of a command and their checks, in the pieces of `Validate()` (40_control R123). The decoder
makes check 1, and NOP makes no other (check 2). -/

namespace Sys2Proof.Machine

open Sys2Proof

/-- Fail with `e` when the condition holds. -/
def failIf (c : Bool) (e : Err) : Except Err Unit := if c then .error e else .ok ()

/-- Check 3: BPP = 0 (30_encoding R96). -/
def checkBpp (bpp : Nat) : Except Err Unit := failIf (bpp == 0) .invalidParameter

/-- Check 4: LEN is a whole number of elements (SHUFFLE, UNSHUFFLE). -/
def checkWhole (bpp : Nat) (s : State) : Except Err Unit :=
  failIf (s.latch.len.toNat % bpp != 0) .invalidParameter

/-- Check 5: a block-codec length is below 2^24 (30_encoding R98). -/
def checkLimit (n : Nat) : Except Err Unit := failIf (Config.sbMax ≤ n) .invalidParameter

/-- Check 6: both windows lie in the address space, with exact sums (20_memory R62). -/
def checkWrap (s : State) : Except Err Unit :=
  failIf
    (2 ^ s.platform.addrW ≤ s.latch.src.toNat || 2 ^ s.platform.addrW ≤ s.latch.dst.toNat ||
      2 ^ s.platform.addrW < s.latch.src.toNat + s.latch.len.toNat ||
      2 ^ s.platform.addrW < s.latch.dst.toNat + s.latch.cap.toNat)
    .invalidParameter

/-- Check 7: two non-empty windows do not overlap (20_memory R64). -/
def checkOverlap (s : State) : Except Err Unit :=
  failIf
    (0 < s.latch.len.toNat && 0 < s.latch.cap.toNat &&
      s.latch.src.toNat < s.latch.dst.toNat + s.latch.cap.toNat &&
      s.latch.dst.toNat < s.latch.src.toNat + s.latch.len.toNat)
    .invalidParameter

/-- Check 8: a non-empty window lies in implemented memory (20_memory R63). -/
def checkBus (s : State) : Except Err Unit :=
  failIf
    ((0 < s.latch.len.toNat && s.platform.memSize < s.latch.src.toNat + s.latch.len.toNat) ||
      (0 < s.latch.cap.toNat && s.platform.memSize < s.latch.dst.toNat + s.latch.cap.toNat))
    .busFault

/-- Check 9: the capacity holds an output of `n` bytes. -/
def checkCapacity (n : Nat) (s : State) : Except Err Unit :=
  failIf (s.latch.cap.toNat < n) .dstOverflow

/-- Checks 6 to 8, which every command but NOP makes. -/
def checkWindows (s : State) : Except Err Unit := do
  checkWrap s
  checkOverlap s
  checkBus s

/-- `Validate()` for SHUFFLE and UNSHUFFLE. -/
def validateTransposition (bpp : Nat) (s : State) : Except Err Unit := do
  checkBpp bpp
  checkWhole bpp s
  checkWindows s
  checkCapacity s.latch.len.toNat s

/-- `Validate()` for DELTA and DELTA_INV. -/
def validateDelta (s : State) : Except Err Unit := do
  checkWindows s
  checkCapacity s.latch.len.toNat s

/-- `Validate()` for BLK_ENC. -/
def validateBlkEnc (bpp : Nat) (s : State) : Except Err Unit := do
  checkBpp bpp
  checkLimit s.latch.len.toNat
  checkWindows s

/-- `Validate()` for BLK_DEC. -/
def validateBlkDec (bpp : Nat) (s : State) : Except Err Unit := do
  checkBpp bpp
  checkLimit s.latch.len.toNat
  checkLimit s.latch.olen.toNat
  checkWindows s
  checkCapacity s.latch.olen.toNat s

end Sys2Proof.Machine
end

