-- ==== Sys2Proof/Machine/Transpose.lean ====
section
/-! DEFINITION. Byte transposition: SHUFFLE and UNSHUFFLE (41_transpose R148 to R156). -/

namespace Sys2Proof.Machine

open Sys2Proof

/-- The first `n` consecutive pieces of `k` bytes each. With k = BPP the pieces are the elements (00_scope R16). -/
def pieces (k : Nat) : Nat → List Byte → List (List Byte)
  | 0, _ => []
  | n + 1, x => x.take k :: pieces k n (x.drop k)

/-- Byte `p` of each piece, in order; over the elements of a block this is its byte-plane `p` (43_block_format R203). -/
def column (p : Nat) (xs : List (List Byte)) : List Byte := xs.map (fun e => e.getD p 0)

/-- Columns 0 .. k-1 in order. -/
def columns (k : Nat) (xs : List (List Byte)) : List (List Byte) :=
  (List.range k).map (fun p => column p xs)

/-- The shuffle map: with N = n / b elements, output bytes `p·N ..` are byte p of every element in element order
(41_transpose R148, R150). -/
def shuffle (b : Nat) (x : List Byte) : List Byte :=
  (columns b (pieces b (x.length / b) x)).flatten

/-- The unshuffle map: the input is b planes of N bytes, and output element j takes byte j of every plane
(41_transpose R155). -/
def unshuffle (b : Nat) (x : List Byte) : List Byte :=
  (columns (x.length / b) (pieces (x.length / b) b x)).flatten

/-- SHUFFLE (41_transpose R150). -/
def execShuffle (bpp : Nat) (s : State) : Host.Outcome State Fault Refusal :=
  .next (s.complete (do validateTransposition bpp s; pure (s.kernelOutput (shuffle bpp))))

/-- UNSHUFFLE (41_transpose R155). -/
def execUnshuffle (bpp : Nat) (s : State) : Host.Outcome State Fault Refusal :=
  .next (s.complete (do validateTransposition bpp s; pure (s.kernelOutput (unshuffle bpp))))

end Sys2Proof.Machine
end

