-- ==== Sys2Proof/Machine/Delta.lean ====
section
/-! DEFINITION. Byte delta: DELTA and DELTA_INV (42_delta R168 to R177), and the two passes over a byte sequence that
they share with the block codec (43_block_format R206, R207). -/

namespace Sys2Proof.Machine

open Sys2Proof

/-- Each byte less the byte before it, the one before the first being `p` (wrapping u8, 42_delta R169). -/
def diffs (p : Byte) : List Byte → List Byte
  | [] => []
  | x :: xs => (x - p) :: diffs x xs

/-- The running sums of the bytes, from `p` (wrapping u8, 42_delta R169). -/
def sums (p : Byte) : List Byte → List Byte
  | [] => []
  | d :: ds => (p + d) :: sums (p + d) ds

/-- Apply a stream kernel to each stream of 42_delta R168 and copy the tail: one stream up to DELTA_SPLIT bytes, else
four streams of ⌊n/4⌋ bytes and a tail of the rest. -/
def onStreams (f : List Byte → List Byte) (x : List Byte) : List Byte :=
  if x.length ≤ Config.deltaSplit then f x
  else ((pieces (x.length / 4) 4 x).map f).flatten ++ x.drop (4 * (x.length / 4))

/-- DELTA's output: the first byte of a stream is copied, which is its difference from 0 (42_delta R169, R170). -/
def delta (x : List Byte) : List Byte := onStreams (diffs 0) x

/-- DELTA_INV's output: the running sums of each stream from 0 (42_delta R169, R175). -/
def deltaInv (x : List Byte) : List Byte := onStreams (sums 0) x

/-- DELTA (42_delta R170); BPP is ignored. -/
def execDelta (_bpp : Nat) (s : State) : Host.Outcome State Fault Refusal :=
  .next (s.complete (do validateDelta s; pure (s.kernelOutput delta)))

/-- DELTA_INV (42_delta R175); BPP is ignored. -/
def execDeltaInv (_bpp : Nat) (s : State) : Host.Outcome State Fault Refusal :=
  .next (s.complete (do validateDelta s; pure (s.kernelOutput deltaInv)))

end Sys2Proof.Machine
end

