-- ==== Sys2Proof/Machine/RowFormat.lean ====
section
/-! DEFINITION. The fields of the block-codec stream (43_block_format R208 to R223): widths, bit packing, masks, nibbles,
row headers, plane kinds and block markers. The encoder writes them and the decoder reads them. -/

namespace Sys2Proof.Machine

open Sys2Proof

/-- Block-scope markers (43_block_format R201). -/
def copyMarker : Byte := 252
def lzMarker : Byte := 253
def partialMarker : Byte := 254

/-- The width function (43_block_format R208). -/
def width (g : Nat) : Nat :=
  if g = 0 then 0
  else if g ≤ 1 then 1
  else if g ≤ 3 then 2
  else if g ≤ 7 then 3
  else if g ≤ 15 then 4
  else if g ≤ 31 then 5
  else 8

/-- The integer with value `u[c]` at bits `c·b .. c·b+b-1` (43_block_format R209). -/
def packNat (b : Nat) : List Nat → Nat
  | [] => 0
  | u :: us => u + 2 ^ b * packNat b us

/-- The first `n` fields of width `b` of an integer (43_block_format R209). -/
def unpackNat (b : Nat) : Nat → Nat → List Nat
  | 0, _ => []
  | n + 1, v => v % 2 ^ b :: unpackNat b n (v / 2 ^ b)

/-- `Pack(u, b)`: the 2b bytes of sixteen values below 2^b (43_block_format R209). -/
def pack (b : Nat) (u : List Byte) : List Byte :=
  leBytes (2 * b) (packNat b (u.map BitVec.toNat))

/-- `Unpack(t, b)`; for b = 0 it is sixteen zeros (43_block_format R209). -/
def unpack (b : Nat) (t : List Byte) : List Byte :=
  (unpackNat b Config.rowBytes (leNat t)).map (BitVec.ofNat 8)

/-- The integer with bit c = `bits[c]`. -/
def natOfBits : List Bool → Nat
  | [] => 0
  | b :: bs => b.toNat + 2 * natOfBits bs

/-- Bits 0 .. n-1 of an integer. -/
def bitsOfNat : Nat → Nat → List Bool
  | 0, _ => []
  | n + 1, v => (v % 2 == 1) :: bitsOfNat n (v / 2)

/-- The run-length mask bits of a byte sequence: 1 where a byte equals the one before it, `p` before the first
(43_block_format R212). -/
def sameMask (p : Byte) : List Byte → List Bool
  | [] => []
  | x :: xs => (x == p) :: sameMask x xs

/-- The run-length literals of a byte sequence: the bytes that differ from the one before them (43_block_format R212). -/
def changes (p : Byte) : List Byte → List Byte
  | [] => []
  | x :: xs => if x = p then changes x xs else x :: changes x xs

/-- The bytes at the 0 bits of a mask (43_block_format R212). -/
def unmasked : List Bool → List Byte → List Byte
  | false :: bits, x :: xs => x :: unmasked bits xs
  | true :: bits, _ :: xs => unmasked bits xs
  | _, _ => []

/-- A 16-bit mask then the literals at its 0 bits (43_block_format R212, R220). -/
def maskedBytes (bits : List Bool) (xs : List Byte) : List Byte := leBytes 2 (natOfBits bits) ++ unmasked bits xs

/-- The run-length form of a byte sequence, `p` before the first (43_block_format R212, R220). -/
def runLength (p : Byte) (xs : List Byte) : List Byte := maskedBytes (sameMask p xs) xs

/-- Codes two to a byte, the even one in bits 3:0, padding 0 (43_block_format R222, R223; 44_block_encode R275). -/
def packNibbles : List Nat → List Byte
  | [] => []
  | [a] => [BitVec.ofNat 8 a]
  | a :: b :: cs => BitVec.ofNat 8 (a + 16 * b) :: packNibbles cs

/-- The codes in a byte sequence, the one in bits 3:0 first (43_block_format R222, R223). -/
def nibbles : List Byte → List Nat
  | [] => []
  | b :: bs => b.toNat % 16 :: b.toNat / 16 :: nibbles bs

/-- Row headers (43_block_format R214). Header 14 is reserved and has no constructor. -/
inductive RowHeader where
  /-- 0..5: literal bit-packing of this width (R210). -/
  | literal (b : Nat)
  /-- 6: delta run-length (R213). -/
  | deltaRunLength
  /-- 7: run-length (R212). -/
  | runLength
  /-- 8..13: delta bit-packing of this width (R211). -/
  | delta (b : Nat)
  /-- 15: sixteen raw bytes (R215). -/
  | raw
  deriving DecidableEq, Repr

/-- The code of a row header (43_block_format R214). -/
def RowHeader.code : RowHeader → Nat
  | .literal b => b
  | .deltaRunLength => 6
  | .runLength => 7
  | .delta b => 8 + b
  | .raw => 15

/-- The row header of a code; none for the reserved 14 and for what is no nibble (43_block_format R214). -/
def rowHeaderOf (h : Nat) : Option RowHeader :=
  if h ≤ 5 then some (.literal h)
  else if h = 6 then some .deltaRunLength
  else if h = 7 then some .runLength
  else if h ≤ 13 then some (.delta (h - 8))
  else if h = 15 then some .raw
  else none

/-- A row uses a min exactly when it is bit-packed (43_block_format R214). -/
def RowHeader.usesMin : RowHeader → Bool
  | .literal _ => true
  | .deltaRunLength => false
  | .runLength => false
  | .delta _ => true
  | .raw => false

/-- Plane kinds (43_block_format R216). -/
inductive Kind where
  | allSame
  | allRaw
  | normal
  | normalRle
  deriving DecidableEq, Repr

/-- The code of a plane kind (43_block_format R216). -/
def Kind.code : Kind → Nat
  | .allSame => 0
  | .allRaw => 1
  | .normal => 2
  | .normalRle => 3

/-- The plane kind of a code; 4..15 are invalid (43_block_format R216). -/
def kindOf (k : Nat) : Option Kind :=
  match k with
  | 0 => some .allSame
  | 1 => some .allRaw
  | 2 => some .normal
  | 3 => some .normalRle
  | _ => none

/-- The byte before the row after `row`, `p` being the byte before `row` (43_block_format R206). -/
def lastOf (p : Byte) (row : List Byte) : Byte := row.getLastD p

end Sys2Proof.Machine
end

