-- ==== Sys2Proof/Machine/BlockDecode.lean ====
section
/-! DEFINITION. BLK_DEC (45_block_decode R310 to R321). The cursor `pos` of 00_scope R13 is carried as the bytes of the
source window from `pos` on: a reader takes some and answers its value with the unread rest, or the first defect (R317). -/

namespace Sys2Proof.Machine

open Sys2Proof

/-- `Take(k)` (00_scope R13). -/
def takeBytes (k : Nat) (t : List Byte) : Except Err (List Byte × List Byte) :=
  if (t.take k).length < k then .error .srcOverflow else .ok (t.take k, t.drop k)

/-- `TakeU8()` (00_scope R13). -/
def takeU8 (t : List Byte) : Except Err (Byte × List Byte) :=
  match t with
  | [] => .error .srcOverflow
  | b :: rest => .ok (b, rest)

/-- `TakeU16()` (00_scope R13). -/
def takeU16 (t : List Byte) : Except Err (Nat × List Byte) := do
  let (bs, t) ← takeBytes 2 t
  .ok (leNat bs, t)

/-- Bytes coded by a run-length mask, `p` before the first: a 1 repeats the byte before, a 0 takes a literal
(43_block_format R212, R220). -/
def expandRuns (p : Byte) : List Bool → List Byte → Except Err (List Byte × List Byte)
  | [], t => .ok ([], t)
  | true :: bits, t => do
    let (xs, t) ← expandRuns p bits t
    .ok (p :: xs, t)
  | false :: bits, t => do
    let (x, t) ← takeU8 t
    let (xs, t) ← expandRuns x bits t
    .ok (x :: xs, t)

/-- One row, from its header, its min, and the byte and the delta value before it (45_block_decode R315;
43_block_format R210 to R215). Sums wrap modulo 256 (R311). -/
def decodeRow (h : RowHeader) (min p pd : Byte) (t : List Byte) : Except Err (List Byte × List Byte) :=
  match h with
  | .literal b => do
    let (bs, t) ← takeBytes (2 * b) t
    .ok ((unpack b bs).map (fun u => min + u), t)
  | .delta b => do
    let (bs, t) ← takeBytes (2 * b) t
    .ok (sums p ((unpack b bs).map (fun u => min + u)), t)
  | .raw => takeBytes Config.rowBytes t
  | .runLength => do
    let (m, t) ← takeU16 t
    expandRuns p (bitsOfNat Config.rowBytes m) t
  | .deltaRunLength => do
    let (m, t) ← takeU16 t
    let (ds, t) ← expandRuns pd (bitsOfNat Config.rowBytes m) t
    .ok (sums p ds, t)

/-- The rows of a plane in order. A row that uses a min takes the next one (43_block_format R221). -/
def decodeRows (p pd : Byte) : List RowHeader → List Byte → List Byte → Except Err (List Byte × List Byte)
  | [], _, t => .ok ([], t)
  | h :: hs, mins, t => do
    let (row, t) ← decodeRow h (mins.headD 0) p pd t
    let (rest, t) ← decodeRows (lastOf p row) (lastOf pd (diffs p row)) hs
      (if h.usesMin then mins.tail else mins) t
    .ok (row ++ rest, t)

/-- The `k` mins of a NORMAL_RLE plane (43_block_format R220): a mask bit at or above K is a defect. -/
def decodeMins (k : Nat) (t : List Byte) : Except Err (List Byte × List Byte) := do
  let (mm, t) ← takeU16 t
  if mm / 2 ^ k ≠ 0 then .error .invalidInput else expandRuns 0 (bitsOfNat k mm) t

/-- The codes of `n` nibbles after a non-zero padding nibble is refused (43_block_format R222, R223). -/
def unpadded (n : Nat) (bs : List Byte) : Except Err (List Nat) :=
  if ((nibbles bs).drop n).any (fun x => x != 0) then .error .invalidInput else .ok ((nibbles bs).take n)

/-- The meanings of codes; a code without one is a defect. -/
def allCodes {α : Type} (f : Nat → Option α) (codes : List Nat) : Except Err (List α) :=
  match codes.mapM f with
  | none => .error .invalidInput
  | some xs => .ok xs

/-- The `r` row headers of a plane (43_block_format R214, R222). -/
def takeHeaders (r : Nat) (t : List Byte) : Except Err (List RowHeader × List Byte) := do
  let (bs, t) ← takeBytes ((r + 1) / 2) t
  let codes ← unpadded r bs
  let hs ← allCodes rowHeaderOf codes
  .ok (hs, t)

/-- A NORMAL or NORMAL_RLE record; `mins` reads its K mins (43_block_format R219, R220). -/
def decodeCoded (r : Nat) (mins : Nat → List Byte → Except Err (List Byte × List Byte)) (t : List Byte) : Except Err (List Byte × List Byte) := do
  let (hs, t) ← takeHeaders r t
  let (ms, t) ← mins (hs.countP RowHeader.usesMin) t
  decodeRows 0 0 hs ms t

/-- `DecodePlane(kind, R)` (45_block_decode R315). -/
def decodePlane (r : Nat) (kind : Kind) (t : List Byte) : Except Err (List Byte × List Byte) :=
  match kind with
  | .allSame => do
    let (v, t) ← takeU8 t
    .ok (List.replicate (Config.rowBytes * r) v, t)
  | .allRaw => takeBytes (Config.rowBytes * r) t
  | .normal => decodeCoded r takeBytes t
  | .normalRle => decodeCoded r decodeMins t

/-- The plane records, one after another (45_block_decode R314). -/
def decodePlaneList (r : Nat) : List Kind → List Byte → Except Err (List (List Byte) × List Byte)
  | [], t => .ok ([], t)
  | k :: ks, t => do
    let (plane, t) ← decodePlane r k t
    let (planes, t) ← decodePlaneList r ks t
    .ok (plane :: planes, t)

/-- `DecodePlanes(b, R)`: the kind prefix, checked before any plane is read, then the planes, put back in element order
(45_block_decode R314). -/
def decodePlanes (b r : Nat) (t : List Byte) : Except Err (List Byte × List Byte) := do
  let (bs, t) ← takeBytes ((b + 1) / 2) t
  let codes ← unpadded b bs
  let kinds ← allCodes kindOf codes
  let (planes, t) ← decodePlaneList r kinds t
  .ok ((columns (Config.rowBytes * r) planes).flatten, t)

/-- The offset of a back-reference (43_block_format R228; 45_block_decode R316). -/
def takeOffset (t : List Byte) : Except Err (Nat × List Byte) := do
  let (b0, t) ← takeU8 t
  if b0.toNat < 128 then .ok (b0.toNat, t)
  else do
    let (b1, t) ← takeU8 t
    .ok (b0.toNat % 128 + 128 * b1.toNat, t)

/-- The element after the elements `els`: a back-reference into them or a literal (45_block_decode R316). -/
def decodeElement (b : Nat) (els : List (List Byte)) (isRef : Bool) (t : List Byte) : Except Err (List Byte × List Byte) :=
  if isRef then do
    let (off, t) ← takeOffset t
    if off < 1 ∨ els.length < off then .error .invalidInput
    else .ok (els.getD (els.length - off) [], t)
  else takeBytes b t

/-- The items of a group, one for each anchor bit; the answer is all elements so far (45_block_decode R316). -/
def decodeItems (b : Nat) : List Bool → List (List Byte) → List Byte → Except Err (List (List Byte) × List Byte)
  | [], els, t => .ok (els, t)
  | bit :: bits, els, t => do
    let (e, t) ← decodeElement b els bit t
    decodeItems b bits (els ++ [e]) t

/-- `n` groups (45_block_decode R316). -/
def decodeGroups (b : Nat) : Nat → List (List Byte) → List Byte → Except Err (List (List Byte) × List Byte)
  | 0, els, t => .ok (els, t)
  | n + 1, els, t => do
    let (a, t) ← takeU8 t
    let (els, t) ← decodeItems b (bitsOfNat 8 a.toNat) els t
    decodeGroups b n els t

/-- `DecodeLZ(b)` (45_block_decode R316). -/
def decodeLz (b : Nat) (t : List Byte) : Except Err (List Byte × List Byte) := do
  let (els, t) ← decodeGroups b 32 [] t
  .ok (els.flatten, t)

/-- A full block whose discriminator, as it is looked at, is `f`; it is taken only as a marker (45_block_decode R312). -/
def decodeRecord (b : Nat) (f : Byte) (t : List Byte) : Except Err (List Byte × List Byte) :=
  if f = copyMarker then takeBytes (Config.blockElems * b) (t.drop 1)
  else if f = lzMarker then decodeLz b (t.drop 1)
  else if f = partialMarker then .error .invalidInput
  else decodePlanes b Config.rows t

/-- `DecodeFull(b)` (45_block_decode R312). -/
def decodeFull (b : Nat) (t : List Byte) : Except Err (List Byte × List Byte) :=
  match t with
  | [] => .error .srcOverflow
  | f :: rest => decodeRecord b f (f :: rest)

/-- `DecodeFull(b)` under a race: the look at the discriminator is a reading of its own, `look` being that reading of the
whole source window (45_block_decode R312; 70_reset R400). -/
def decodeFullSeen (look : List Byte) (b : Nat) (t : List Byte) : Except Err (List Byte × List Byte) :=
  match t with
  | [] => .error .srcOverflow
  | x :: rest => decodeRecord b (look.getD (look.length - (rest.length + 1)) 0) (x :: rest)

/-- `DecodePartial(b, Lt)` (45_block_decode R313). -/
def decodePartial (b n : Nat) (t : List Byte) : Except Err (List Byte × List Byte) := do
  let (f, t) ← takeU8 t
  if f ≠ partialMarker then .error .invalidInput
  else
    let r := n / (Config.rowBytes * b)
    if r = 0 then takeBytes n t
    else do
      let (blk, t) ← decodePlanes b r t
      let (residual, t) ← takeBytes (n - Config.rowBytes * r * b) t
      .ok (blk ++ residual, t)

/-- `f` full blocks, each decoded by `full` (45_block_decode R310). -/
def decodeFulls (full : List Byte → Except Err (List Byte × List Byte)) :
    Nat → List Byte → Except Err (List Byte × List Byte)
  | 0, t => .ok ([], t)
  | f + 1, t => do
    let (blk, t) ← full t
    let (blks, t) ← decodeFulls full f t
    .ok (blk ++ blks, t)

/-- The tail of `n` bytes, if there is one (45_block_decode R310). -/
def decodeTail (b n : Nat) (t : List Byte) : Except Err (List Byte × List Byte) :=
  if n = 0 then .ok ([], t) else decodePartial b n t

/-- `Perform_BLK_DEC` for an output of `n` bytes: the blocks, each decoded by `full`, the tail, and nothing left over
(45_block_decode R310, R318). -/
def decodeWith (full : List Byte → Except Err (List Byte × List Byte)) (b n : Nat) (t : List Byte) :
    Except Err (List Byte) := do
  let (blks, t) ← decodeFulls full (n / (Config.blockElems * b)) t
  let (tail, t) ← decodeTail b (n % (Config.blockElems * b)) t
  if t.isEmpty then .ok (blks ++ tail) else .error .invalidInput

/-- `Perform_BLK_DEC` for an output of `n` bytes (45_block_decode R310). -/
def decodeSuperblock (b n : Nat) (t : List Byte) : Except Err (List Byte) := decodeWith (decodeFull b) b n t

/-- The outcome of BLK_DEC's `Perform`: the decoding of the source window. In a race every `Take` and every look at a
discriminator is a reading of its own: no byte is taken twice, so one reading serves all takes, and one all looks
(70_reset R400, log 8). -/
def State.decodeOutput (s : State) (bpp : Nat) : Except Err (List Byte) :=
  if s.unraced then decodeSuperblock bpp s.latch.olen.toNat s.source
  else decodeWith (decodeFullSeen (s.snapshot [0]) bpp) bpp s.latch.olen.toNat (s.snapshot [1])

/-- BLK_DEC (45_block_decode R310). -/
def execBlkDec (bpp : Nat) (s : State) : Host.Outcome State Fault Refusal :=
  .next (s.complete (do validateBlkDec bpp s; s.decodeOutput bpp))

end Sys2Proof.Machine
end

