-- ==== Sys2Proof/Machine/LightLz.lean ====
section
/-! DEFINITION. The light LZ pass of BLK_ENC (44_block_encode R286 to R293). -/

namespace Sys2Proof.Machine

open Sys2Proof

/-- The state of an LZ pass between groups: the hash table, the throttle, the record so far (44_block_encode R290). -/
structure LzState where
  table : List (Option Nat)
  threshold : Nat
  fails : Nat
  rawNext : Bool
  out : List Byte
  deriving DecidableEq, Repr

/-- The state of an LZ pass within a group: the hash table, the anchor, the items, the number of matches
(44_block_encode R291). -/
structure LzGroup where
  table : List (Option Nat)
  anchor : Nat
  body : List Byte
  hits : Nat
  deriving DecidableEq, Repr

/-- The start of every LZ pass (44_block_encode R290). -/
def LzState.initial : LzState :=
  { table := List.replicate Config.lzHashEntries none, threshold := Config.lzThrottleN0, fails := 0,
    rawNext := false, out := [lzMarker] }

/-- The element hash (44_block_encode R288). -/
def lzHash (e : List Byte) : Nat := leNat e * 0x9E3779B97F4A7C15 % 2 ^ 64 / 2 ^ 56

/-- A back-reference item (43_block_format R228; 44_block_encode R291). -/
def backReference (off : Nat) : List Byte :=
  if off < 128 then [BitVec.ofNat 8 off]
  else [BitVec.ofNat 8 (128 + off % 128), BitVec.ofNat 8 (off / 128)]

/-- What the pass sees of the elements of a block: while it codes element `i`, reading `k` of element `e` is `look i k e`
(20_memory R68: "the LZ pass compares elements"). Where nothing races, every reading is the element. -/
abbrev LzLook := Nat → Nat → Nat → List Byte

/-- The element a probe of element `i` with hash `h` finds: the most recent one of its hash, if it is byte-equal; none in a
raw group (44_block_encode R291). -/
def lzProbe (look : LzLook) (skip : Bool) (table : List (Option Nat)) (h i : Nat) : Option Nat :=
  if skip then none
  else match table.getD h none with
    | none => none
    | some c => if look i 1 c = look i 2 i then some c else none

/-- Element `i = 8g + j` of a group (44_block_encode R291). -/
def lzElement (look : LzLook) (skip : Bool) (g : LzGroup) (i j : Nat) : LzGroup :=
  let h := lzHash (look i 0 i)
  let table := g.table.set h (some i)
  match lzProbe look skip g.table h i with
  | some c => { table, anchor := g.anchor + 2 ^ j, body := g.body ++ backReference (i - c), hits := g.hits + 1 }
  | none => { table, anchor := g.anchor, body := g.body ++ look i 3 i, hits := g.hits }

/-- The eight elements of group `k` (44_block_encode R291). -/
def lzGroup (look : LzLook) (skip : Bool) (table : List (Option Nat)) (k : Nat) : LzGroup :=
  (List.range 8).foldl (fun g j => lzElement look skip g (8 * k + j) j) { table, anchor := 0, body := [], hits := 0 }

/-- `Throttle(skip, matches)` (44_block_encode R292). -/
def LzState.throttled (z : LzState) (skip : Bool) (hits : Nat) : LzState :=
  if skip then { z with fails := 0 }
  else if hits = 0 then
    if z.fails + 1 = z.threshold then { z with rawNext := true, fails := 0, threshold := max 1 (z.threshold / 2) }
    else { z with fails := z.fails + 1 }
  else { z with fails := 0 }

/-- Group `k` of a pass: its anchor and items are added to the record, then the throttle acts (44_block_encode R291). -/
def lzStep (look : LzLook) (z : LzState) (k : Nat) : LzState :=
  let g := lzGroup look z.rawNext z.table k
  { z with table := g.table, rawNext := false, out := z.out ++ BitVec.ofNat 8 g.anchor :: g.body }.throttled
    z.rawNext g.hits

/-- Groups 0 to 7, one quarter of the block (44_block_encode R293). -/
def lzQuarter (look : LzLook) : LzState := (List.range 8).foldl (lzStep look) LzState.initial

/-- The 40 % test after one quarter of the block (44_block_encode R293). -/
def lzAborts (maxSize : Nat) (z : LzState) : Bool := 4 * maxSize < 10 * z.out.length

/-- Where the pass stops: after group 7 if the 40 % test fails, else after group 31 (44_block_encode R291, R293). -/
def lzPass (look : LzLook) (maxSize : Nat) : LzState :=
  if lzAborts maxSize (lzQuarter look) then lzQuarter look
  else (List.range' 8 24).foldl (lzStep look) (lzQuarter look)

/-- `LZEncode(blk, b, max_size)` on readings: the LZ_BLOCK record, or none where the pass fails (44_block_encode R291,
R293). -/
def lzEncodeSeen (look : LzLook) (maxSize : Nat) : Option (List Byte) :=
  if lzAborts maxSize (lzQuarter look) || maxSize < (lzPass look maxSize).out.length then none
  else some (lzPass look maxSize).out

/-- The elements of a block that nothing races. -/
def lookAt (els : List (List Byte)) : LzLook := fun _ _ e => els.getD e []

/-- `LZEncode(blk, b, max_size)` (44_block_encode R291, R293). -/
def lzEncode (els : List (List Byte)) (maxSize : Nat) : Option (List Byte) := lzEncodeSeen (lookAt els) maxSize

end Sys2Proof.Machine
end

