-- ==== Sys2Proof/Machine/RowCoder.lean ====
section
/-! DEFINITION. The row coder of BLK_ENC: row candidates and choice, plane kinds, row-coded records, the partial tail
(44_block_encode R265 to R275, R300). -/

namespace Sys2Proof.Machine

open Sys2Proof

/-- A coded row: its header, its min if it uses one, its payload (43_block_format R214). -/
structure RowCode where
  header : RowHeader
  min : Option Byte
  payload : List Byte
  deriving DecidableEq, Repr

/-- A way to code a row, and its cost in bytes (44_block_encode R265). -/
structure Candidate where
  cost : Nat
  row : RowCode
  deriving DecidableEq, Repr

/-- The least of the bytes, as unsigned (44_block_encode R265). -/
def leastByte (xs : List Byte) : Byte := xs.foldl (fun m x => if x < m then x else m) (xs.headD 0)

/-- The greatest of the bytes, as unsigned (44_block_encode R265). -/
def greatestByte (xs : List Byte) : Byte := xs.foldl (fun m x => if m < x then x else m) (xs.headD 0)

/-- `width(max − min)` of a row's bytes or delta values (44_block_encode R265). -/
def rowWidth (xs : List Byte) : Nat := width ((greatestByte xs).toNat - (leastByte xs).toNat)

/-- The cost of the literal or delta candidate, from the row's bytes or delta values (44_block_encode R265). -/
def packedCost (xs : List Byte) : Nat := if rowWidth xs ≤ 5 then 2 * rowWidth xs + 1 else 16

/-- A literal or delta row: its header, min and width from one reading `a` of the values, its payload from another, `w`; a
row of width 8 is raw, its bytes `row` (44_block_encode R265). -/
def packedRow (header : Nat → RowHeader) (a w row : List Byte) : RowCode :=
  if rowWidth a ≤ 5 then
    { header := header (rowWidth a), min := some (leastByte a)
      payload := pack (rowWidth a) (w.map (fun x => x - leastByte a)) }
  else { header := .raw, min := none, payload := row }

/-- The cost of a run-length candidate of the values `xs`, `p` before the first (44_block_encode R265). -/
def runCost (p : Byte) (xs : List Byte) : Nat := 2 + (changes p xs).length

/-- A run-length row: its mask from one reading `a` of the values, `p` before the first, its literals from another, `w`
(44_block_encode R265). -/
def runRow (header : RowHeader) (p : Byte) (a w : List Byte) : RowCode :=
  { header, min := none, payload := maskedBytes (sameMask p a) w }

/-- One reading of a row: the byte and the delta value before it, and its bytes (43_block_format R206, R207). -/
structure RowView where
  before : Byte
  deltaBefore : Byte
  bytes : List Byte
  deriving DecidableEq, Repr

/-- The delta values of a row (43_block_format R207). -/
def RowView.deltas (v : RowView) : List Byte := diffs v.before v.bytes

/-- The four candidates in the order that breaks ties (44_block_encode R265, R266), from the readings `v` of the row: literal,
delta, run-length, delta run-length. Each is read once for its cost, once for its analysis and once for its payload
(20_memory R68: "the block encoder analyses a row several ways"). -/
def candidatesSeen (v : Nat → RowView) : List Candidate :=
  [{ cost := packedCost (v 0).bytes, row := packedRow .literal (v 1).bytes (v 2).bytes (v 2).bytes },
    { cost := packedCost (v 3).deltas, row := packedRow .delta (v 4).deltas (v 5).deltas (v 5).bytes },
    { cost := runCost (v 6).before (v 6).bytes, row := runRow .runLength (v 7).before (v 7).bytes (v 8).bytes },
    { cost := runCost (v 9).deltaBefore (v 9).deltas,
      row := runRow .deltaRunLength (v 10).deltaBefore (v 10).deltas (v 11).deltas }]

/-- The four candidates of a row that nothing races; `p` and `pd` are the byte and the delta value before it. -/
def candidates (p pd : Byte) (row : List Byte) : List Candidate :=
  candidatesSeen (fun _ => { before := p, deltaBefore := pd, bytes := row })

/-- The first candidate of least cost (44_block_encode R266). -/
def firstLeast (best : Candidate) : List Candidate → Candidate
  | [] => best
  | c :: cs => if c.cost < best.cost then firstLeast c cs else firstLeast best cs

/-- The first of the candidates of least cost (44_block_encode R266). -/
def cheapest : List Candidate → Candidate
  | [] => { cost := 16, row := { header := .raw, min := none, payload := [] } }
  | c :: cs => firstLeast c cs

/-- The candidate a row takes (44_block_encode R266). -/
def chooseRow (p pd : Byte) (row : List Byte) : Candidate := cheapest (candidates p pd row)

/-- The rows of a plane, coded in order; `p` and `pd` are the byte and the delta value before the first
(43_block_format R206, R207; 44_block_encode R270). -/
def encodeRows (p pd : Byte) : List (List Byte) → List RowCode
  | [] => []
  | row :: rows =>
    (chooseRow p pd row).row :: encodeRows (lastOf p row) (lastOf pd (diffs p row)) rows

/-- The record of a NORMAL or NORMAL_RLE plane and its kind, from its coded rows (44_block_encode R270, R271). -/
def codedPlane (codes : List RowCode) : Kind × List Byte :=
  let headers := packNibbles (codes.map (fun c => c.header.code))
  let mins := codes.filterMap (fun c => c.min)
  let payloads := (codes.map (fun c => c.payload)).flatten
  if 2 + (changes 0 mins).length < mins.length then
    (.normalRle, headers ++ runLength 0 mins ++ payloads)
  else (.normal, headers ++ mins ++ payloads)

/-- `EncodePlane(P, R)` for a plane of `16·r` bytes (44_block_encode R270, R272). -/
def encodePlane (r : Nat) (plane : List Byte) : Kind × List Byte :=
  if plane.all (fun x => x == plane.headD 0) then (.allSame, [plane.headD 0])
  else
    let coded := codedPlane (encodeRows 0 0 (pieces Config.rowBytes r plane))
    if Config.rowBytes * r ≤ coded.2.length then (.allRaw, plane) else coded

/-- The byte-planes of the first `16·r` elements of a block (43_block_format R203). -/
def blockPlanes (b r : Nat) (blk : List Byte) : List (List Byte) :=
  columns b (pieces b (Config.rowBytes * r) blk)

/-- Kind prefix and plane records: a row-coded block of `r` rows a plane (43_block_format R224; 44_block_encode R263,
R275, R300). -/
def encodePlanes (b r : Nat) (blk : List Byte) : List Byte :=
  let coded := (blockPlanes b r blk).map (encodePlane r)
  packNibbles (coded.map (fun c => c.1.code)) ++ (coded.map (fun c => c.2)).flatten

/-- `best` of `EncodeFull`: the COPY_BLOCK record unless the row-coded one is shorter (44_block_encode R263, R280). -/
def bestRecord (b : Nat) (blk : List Byte) : List Byte :=
  let copy := copyMarker :: blk
  let coded := encodePlanes b Config.rows blk
  if copy.length ≤ coded.length then copy else coded

/-- `EncodePartial` for the last bytes of a superblock (44_block_encode R300). -/
def encodePartial (b : Nat) (blk : List Byte) : List Byte :=
  let r := blk.length / (Config.rowBytes * b)
  if r = 0 then partialMarker :: blk
  else partialMarker :: (encodePlanes b r blk ++ blk.drop (Config.rowBytes * r * b))

/-! The same under a race on the source window (70_reset R400): every use that the rules make of a block's bytes is a reading
of its own. Where all readings agree, these are the functions above (Laws/Race.lean). -/

/-- A reading of a plane as readings of its rows (43_block_format R204, R206, R207). -/
def rowViews (p pd : Byte) : List (List Byte) → List RowView
  | [] => []
  | row :: rows =>
    { before := p, deltaBefore := pd, bytes := row } ::
      rowViews (lastOf p row) (lastOf pd (diffs p row)) rows

/-- Reading `plane` of a plane of `16·r` bytes, as a reading of its row `i`. -/
def rowView (r i : Nat) (plane : List Byte) : RowView :=
  (rowViews 0 0 (pieces Config.rowBytes r plane)).getD i { before := 0, deltaBefore := 0, bytes := [] }

/-- `EncodePlane(P, R)` on readings (44_block_encode R270, R272). -/
def encodePlaneSeen (r : Nat) (see : Reads) : Kind × List Byte :=
  if (see [0]).all (fun x => x == (see [1]).headD 0) then (.allSame, [(see [2]).headD 0])
  else
    let coded := codedPlane ((List.range r).map (fun i =>
      (cheapest (candidatesSeen (fun k => rowView r i (see [3, i, k])))).row))
    if Config.rowBytes * r ≤ coded.2.length then (.allRaw, see [4]) else coded

/-- A row-coded block on readings (43_block_format R224; 44_block_encode R263, R275, R300). -/
def encodePlanesSeen (b r : Nat) (see : Reads) : List Byte :=
  let coded := (List.range b).map (fun p =>
    encodePlaneSeen r (fun path => column p (pieces b (Config.rowBytes * r) (see (p :: path)))))
  packNibbles (coded.map (fun c => c.1.code)) ++ (coded.map (fun c => c.2)).flatten

/-- `best` of `EncodeFull` on readings (44_block_encode R263, R280). -/
def bestRecordSeen (b : Nat) (see : Reads) : List Byte :=
  let copy := copyMarker :: see [0]
  let coded := encodePlanesSeen b Config.rows (fun path => see (1 :: path))
  if copy.length ≤ coded.length then copy else coded

/-- `EncodePartial` for the last `n` bytes of a superblock, on readings (44_block_encode R300). -/
def encodePartialSeen (b n : Nat) (see : Reads) : List Byte :=
  let r := n / (Config.rowBytes * b)
  if r = 0 then partialMarker :: see [0]
  else partialMarker ::
    (encodePlanesSeen b r (fun path => see (1 :: path)) ++ (see [2]).drop (Config.rowBytes * r * b))

end Sys2Proof.Machine
end

