-- ==== Sys2Proof/Machine/BlockEncode.lean ====
section
/-! DEFINITION. BLK_ENC (44_block_encode R260 to R303). -/

namespace Sys2Proof.Machine

open Sys2Proof

/-- The 256 elements of a full block (43_block_format R202). -/
def blockElements (b : Nat) (blk : List Byte) : List (List Byte) := pieces b Config.blockElems blk

/-- The light LZ pass runs when LZ_EN = 1 and BPP is in the supported set (44_block_encode R286). -/
def lzEligible (lzEn : Bool) (b : Nat) : Bool := lzEn && Config.lzBppSet.contains b

/-- `EncodeFull` (44_block_encode R263, R287). -/
def encodeFull (lzEn : Bool) (b : Nat) (blk : List Byte) : List Byte :=
  let best := bestRecord b blk
  if lzEligible lzEn b then (lzEncode (blockElements b blk) (best.length - 1)).getD best else best

/-- The full blocks of a superblock, `f` of them (44_block_encode R260). -/
def encodeFulls (lzEn : Bool) (b f : Nat) (x : List Byte) : List Byte :=
  ((pieces (Config.blockElems * b) f x).map (encodeFull lzEn b)).flatten

/-- `Perform_BLK_ENC`: the full blocks, then the partial tail if there is one (44_block_encode R260, R262). -/
def encodeSuperblock (lzEn : Bool) (b : Nat) (x : List Byte) : List Byte :=
  let f := x.length / (Config.blockElems * b)
  let tail := x.drop (f * (Config.blockElems * b))
  encodeFulls lzEn b f x ++ (if tail.isEmpty then [] else encodePartial b tail)

/-- The working storage after an encoding: the planes of the last block and what its LZ pass left (10_state R38). DESIGN
CHOICE, unobservable (log 4). -/
def workAfterEncode (lzEn : Bool) (b : Nat) (x : List Byte) (w : Work) : Work :=
  let size := Config.blockElems * b
  let f := x.length / size
  let tail := x.drop (f * size)
  let last := (x.drop ((f - 1) * size)).take size
  let planes := if tail.isEmpty then blockPlanes b Config.rows last
    else blockPlanes b (tail.length / (Config.rowBytes * b)) tail
  if lzEligible lzEn b && 0 < f then
    let z := lzPass (lookAt (blockElements b last)) ((bestRecord b last).length - 1)
    { w with planes, table := z.table, threshold := z.threshold, fails := z.fails, rawNext := z.rawNext }
  else { w with planes }

/-- `EncodeFull` on readings of a block (44_block_encode R263, R287; 70_reset R400). -/
def encodeFullSeen (lzEn : Bool) (b : Nat) (see : Reads) : List Byte :=
  let best := bestRecordSeen b (fun path => see (0 :: path))
  if lzEligible lzEn b then
    (lzEncodeSeen (fun i k e => ((see [1, i, k]).drop (e * b)).take b) (best.length - 1)).getD best
  else best

/-- `Perform_BLK_ENC` on readings of a source window of `n` bytes (44_block_encode R260, R262; 70_reset R400). -/
def encodeSuperblockSeen (lzEn : Bool) (b n : Nat) (see : Reads) : List Byte :=
  let size := Config.blockElems * b
  let f := n / size
  ((List.range f).map (fun k =>
    encodeFullSeen lzEn b (fun path => ((see (k :: path)).drop (k * size)).take size))).flatten ++
  (if n % size = 0 then [] else encodePartialSeen b (n % size) (fun path => (see (f :: path)).drop (f * size)))

/-- The output of BLK_ENC: the encoding of the source window; in a race, every use that the rules make of a source byte is a
reading of its own (70_reset R400, log 8). -/
def State.encodeOutput (s : State) (lzEn : Bool) (bpp : Nat) : List Byte :=
  if s.unraced then encodeSuperblock lzEn bpp s.source
  else encodeSuperblockSeen lzEn bpp s.latch.len.toNat s.snapshot

/-- BLK_ENC (44_block_encode R260). Its last check, the output's size against CAP, is the completion's. -/
def execBlkEnc (lzEn : Bool) (bpp : Nat) (s : State) : Host.Outcome State Fault Refusal :=
  match validateBlkEnc bpp s with
  | .error e => .next (s.complete (.error e))
  | .ok _ =>
    .next ({ s with work := workAfterEncode lzEn bpp s.source s.work }.complete (.ok (s.encodeOutput lzEn bpp)))

end Sys2Proof.Machine
end

