-- ==== Sys2Proof/Machine/Control.lean ====
section
/-! DEFINITION. NOP (40_control R130). -/

namespace Sys2Proof.Machine

open Sys2Proof

/-- NOP: no operand is checked, no memory is touched, the output is empty (40_control R130). -/
def execNop (_bpp : Nat) (s : State) : Host.Outcome State Fault Refusal :=
  .next (s.complete (.ok []))

end Sys2Proof.Machine
end

