-- ==== Sys2Proof/Machine/Dispatch.lean ====
section
/-! DEFINITION. The meaning of every command: what the completion of the command in flight does (40_control R124,
R125). -/

namespace Sys2Proof.Machine

open Sys2Proof

def exec (i : Instr) (s : State) : Host.Outcome State Fault Refusal :=
  match i with
  | .nop bpp => Sys2Proof.Machine.execNop bpp s
  | .shuffle bpp => Sys2Proof.Machine.execShuffle bpp s
  | .unshuffle bpp => Sys2Proof.Machine.execUnshuffle bpp s
  | .delta bpp => Sys2Proof.Machine.execDelta bpp s
  | .deltaInv bpp => Sys2Proof.Machine.execDeltaInv bpp s
  | .blkEnc lzEn bpp => Sys2Proof.Machine.execBlkEnc lzEn bpp s
  | .blkDec bpp => Sys2Proof.Machine.execBlkDec bpp s

end Sys2Proof.Machine
end

