-- ==== Sys2Proof/Machine/Registers.lean ====
section
/-! DEFINITION. The register block as a host reads and writes it (10_state R20 to R32), and the host's loads and stores
at system addresses (20_memory R60, R75). -/

namespace Sys2Proof.Machine

open Sys2Proof

/-- Bits 31:0 of a 64-bit value. -/
def lowHalf (v : DWord) : Word := v.extractLsb' 0 32

/-- Bits 63:32 of a 64-bit value. -/
def highHalf (v : DWord) : Word := v.extractLsb' 32 32

/-- A 64-bit value with bits 31:0 replaced. -/
def withLow (v : DWord) (w : Word) : DWord := highHalf v ++ w

/-- A 64-bit value with bits 63:32 replaced. -/
def withHigh (v : DWord) (w : Word) : DWord := w ++ lowHalf v

/-- `W32 CTRL, w`: SRST resets the engine and IE is not applied; otherwise IE is bit 0 (10_state R22, 70_reset R391). -/
def State.writeCtrl (s : State) (w : Word) : State :=
  if w.getLsbD 1 then s.resetEngine else { s with ie := w.getLsbD 0 }

/-- `W32 STATUS, w` (10_state R23). -/
def State.writeStatus (s : State) (w : Word) : State := { s with status := s.status.written w }

/-- `R32 r`: reads have no side effect (10_state R20 to R32; 20_memory R75). -/
def State.readReg (s : State) (r : Reg) : Word :=
  match r with
  | .id => Config.engineId
  | .ctrl => ctrlWord s.ie
  | .status => s.status.word
  | .cmd => s.cmd
  | .srcLo => lowHalf s.args.src
  | .srcHi => highHalf s.args.src
  | .dstLo => lowHalf s.args.dst
  | .dstHi => highHalf s.args.dst
  | .lenLo => lowHalf s.args.len
  | .lenHi => highHalf s.args.len
  | .olenLo => lowHalf s.args.olen
  | .olenHi => highHalf s.args.olen
  | .capLo => lowHalf s.args.cap
  | .capHi => highHalf s.args.cap
  | .resultLo => lowHalf s.result
  | .resultHi => highHalf s.result
  | .caps => capsWord s.platform
  | .reserved => 0

/-- `W32 r, w`: a write of a read-only or reserved register is ignored (10_state R20 to R32; 60_exceptions R357). -/
def State.writeReg (s : State) (r : Reg) (w : Word) : State :=
  match r with
  | .id => s
  | .ctrl => s.writeCtrl w
  | .status => s.writeStatus w
  | .cmd => s.writeCmd w
  | .srcLo => { s with args := { s.args with src := withLow s.args.src w } }
  | .srcHi => { s with args := { s.args with src := withHigh s.args.src w } }
  | .dstLo => { s with args := { s.args with dst := withLow s.args.dst w } }
  | .dstHi => { s with args := { s.args with dst := withHigh s.args.dst w } }
  | .lenLo => { s with args := { s.args with len := withLow s.args.len w } }
  | .lenHi => { s with args := { s.args with len := withHigh s.args.len w } }
  | .olenLo => { s with args := { s.args with olen := withLow s.args.olen w } }
  | .olenHi => { s with args := { s.args with olen := withHigh s.args.olen w } }
  | .capLo => { s with args := { s.args with cap := withLow s.args.cap w } }
  | .capHi => { s with args := { s.args with cap := withHigh s.args.cap w } }
  | .resultLo => s
  | .resultHi => s
  | .caps => s
  | .reserved => s

/-! Loads and stores at system addresses. -/

/-- The bytes a load of `width` bytes at offset `off` of the register block returns; 0 for any access that is not a
32-bit one at a multiple of 4 (20_memory R75). -/
def State.blockLoad (s : State) (off width : Nat) : List Byte :=
  if wordAccess off width then leBytes 4 (s.readReg (regAt off)).toNat
  else List.replicate width 0

/-- A store of bytes at offset `off` of the register block; it has no effect unless it is a 32-bit one at a multiple
of 4 (20_memory R75). -/
def State.blockStore (s : State) (off : Nat) (bytes : List Byte) : State :=
  if wordAccess off bytes.length then s.writeReg (regAt off) (BitVec.ofNat 32 (leNat bytes)) else s

/-- The host's observed completion: a read of STATUS that returns BUSY = 0 (20_memory R71, R73; log 12). -/
def State.observes (s : State) (addr width : Nat) : Bool :=
  regAccess s.platform addr width == some .status && !s.status.busy

/-- The values that a load of system memory may return at `a`: the byte there, the byte that the command in flight will write
(`coming` are its bytes from `L.DST` on), and for a byte whose completion is not observed those recorded for it
(20_memory R73; 70_reset R401; logs 10, 12). -/
def State.visible (s : State) (coming : List Byte) (a : Nat) : List Byte :=
  s.mem.read a ::
    ((if s.status.busy && s.latch.dst.toNat ≤ a && a < s.latch.dst.toNat + coming.length
      then [coming.getD (a - s.latch.dst.toNat) 0] else []) ++
    (s.unseen.filter (fun u => u.addr = a)).flatMap (fun u => [u.written, u.older]))

/-- One byte of a load of system memory: one of the values it may return, freely (log 10). -/
def State.loadByte (s : State) (coming : List Byte) (a : Nat) : Byte :=
  (s.visible coming a).getD (Config.readChoice s.loads a % (s.visible coming a).length) 0

/-- The newest record of a byte whose completion is not observed. -/
def State.unseenAt (s : State) (a : Nat) : Option UnseenByte := s.unseen.find? (fun u => u.addr = a)

/-- What a store of `b` leaves at `a`: `b`, but where a command wrote the byte and its completion is not observed, freely
`b` or the command's byte (70_reset R401, log 9). -/
def State.keptByte (s : State) (a : Nat) (b : Byte) : Byte :=
  match s.unseenAt a with
  | none => b
  | some u => if Config.hostWins s.draws a then b else u.written

/-- The records after a store of `b` at `a`: a byte that is not observed keeps the command's byte, and a load may now return
`b` too. -/
def State.unseenAfter (s : State) (a : Nat) (b : Byte) : List UnseenByte :=
  match s.unseenAt a with
  | none => s.unseen
  | some u => { addr := a, written := u.written, older := b } :: s.unseen

/-- One byte of a store into system memory. While a command is in flight, a store into one of its windows is a hazard,
and the state records it; so is a store into what a command wrote before its completion is observed (70_reset R400, R401,
R402; logs 8, 9, 12). -/
def State.storeByte (s : State) (a : Nat) (b : Byte) : State :=
  { s with
    mem := s.mem.writeBytes a [s.keptByte a b]
    raced := if s.status.busy && s.inSource a then (a, s.mem.read a) :: (a, b) :: s.raced else s.raced
    hostStores := if s.status.busy && s.inDest a then (a, b) :: s.hostStores else s.hostStores
    unseen := s.unseenAfter a b
    draws := if (s.unseenAt a).isSome then s.draws + 1 else s.draws }

/-- The bytes of a store, lowest address first. -/
def State.storeBytes (s : State) : Nat → List Byte → State
  | _, [] => s
  | a, b :: bs => (s.storeByte a b).storeBytes (a + 1) bs

/-- An agent's load. `coming` are the bytes that the command in flight will write. A read of STATUS that returns BUSY = 0
makes all that completed commands wrote visible (20_memory R73). An address with neither memory nor a register faults
(20_memory R60, log 13). -/
def hostLoad (s : State) (coming : List Byte) (addr width : Nat) : Host.Outcome State Fault Refusal :=
  if inBlock s.platform addr then
    .next { s with
      hostData := s.blockLoad (addr - s.platform.mmioBase) width
      unseen := if s.observes addr width then [] else s.unseen }
  else if inMemory s.platform addr width then
    .next { s with
      hostData := (List.range width).map (fun k => s.loadByte coming (addr + k))
      loads := s.loads + 1 }
  else .fault (.noMemory addr)

/-- An agent's store. An address with neither memory nor a register faults (20_memory R60, log 13). -/
def hostStore (s : State) (addr : Nat) (bytes : List Byte) : Host.Outcome State Fault Refusal :=
  if inBlock s.platform addr then .next (s.blockStore (addr - s.platform.mmioBase) bytes)
  else if inMemory s.platform addr bytes.length then .next (s.storeBytes addr bytes)
  else .fault (.noMemory addr)

end Sys2Proof.Machine
end

