-- ==== Sys2Proof/Machine/Step.lean ====
section
/-! DEFINITION. One step of the machine: the next event of the script, or, with an empty script, the completion of the
command in flight (40_control R120, R125, R126; logs 5, 6). -/

namespace Sys2Proof.Machine

open Sys2Proof

/-- The engine's one step, the completion of the command in flight (40_control R125): the latched word is decoded and
its command run; an illegal word completes with IllegalCommand (30_encoding R93 to R95). -/
def engineStep (s : State) : Host.Outcome State Fault Refusal :=
  match decode s.latchCmd with
  | .ok i => exec i s
  | .error _ => .next (s.complete (.error .illegalCommand))

/-- The state in which the engine's turn comes, after the events that come before it; none if the command in flight is reset
first or an access faults (70_reset R392). -/
def State.atTurn : List Event → State → Option State
  | [], s => some { s with script := [] }
  | .engine :: es, s => some { s with script := es }
  | .powerOn :: _, _ => none
  | .load a width :: es, s =>
    if inBlock s.platform a || inMemory s.platform a width then State.atTurn es s else none
  | .store a bytes :: es, s =>
    match hostStore s a bytes with
    | .next t => if t.status.busy then State.atTurn es t else none
    | .fault _ => none
    | .refused _ => none

/-- The bytes that the command in flight will write at `L.DST`: its output when the engine's turn comes, or, if that never
comes, as it would be now (70_reset R401, log 10). The record of host stores plays no part: it decides what stays in memory,
not what the command writes. -/
def State.comingOutput (s : State) : List Byte :=
  match engineStep { ((State.atTurn s.script s).getD { s with script := [] }) with hostStores := [] } with
  | .next t =>
    if t.status.errcode = 0 then t.mem.readBytes s.latch.dst.toNat t.result.toNat else []
  | .fault _ => []
  | .refused _ => []

/-- The engine's turn: it has a step exactly while a command is in flight (40_control R125). -/
def engineTurn (s : State) : Host.Outcome State Fault Refusal :=
  if s.status.busy then engineStep s else .next s

/-- One step. An idle engine with no event to come stays as it is: nothing else changes BTE state (40_control R120). -/
def step (s : State) : Host.Outcome State Fault Refusal :=
  match s.script with
  | [] => engineTurn s
  | .engine :: rest => engineTurn { s with script := rest }
  | .load addr width :: rest => hostLoad { s with script := rest } s.comingOutput addr width
  | .store addr bytes :: rest => hostStore { s with script := rest } addr bytes
  | .powerOn :: rest => .next { s with script := rest }.resetEngine

/-- `s` with the command word `w` started (40_control R121) and the engine's turn next, so that the next step runs that
command. It stands for the host's CMD write (log 5). -/
def State.withFetchWord (s : State) (nbits w : Nat) : State :=
  { s.startCommand (tableWord nbits w) with
    script := match s.script with
      | [] => []
      | e :: es => .engine :: e :: es }

end Sys2Proof.Machine
end

