-- ==== Sys2Proof/Safety.lean ====
section
/-! DEFINITION. What counts as a safe run, in the terms the statements use: a host that obeys the hazard rules, operands
every check accepts, the invariant of the machine, and what a completion leaves unchanged. Each is written out from the
rules, not from the functions of the model. -/

namespace Sys2Proof.Machine

open Sys2Proof

/-- Every byte of the source window holds one value from the start to the observed completion: nothing is stored into it,
or only what it holds (70_reset R400). -/
def State.settled (s : State) : Prop := ∀ a, s.inSource a = true → ∀ v ∈ s.heldValues a, v = s.mem.read a

/-- No host store changes the source window of the command in flight, and none goes into its destination window
(70_reset R400, R401). -/
abbrev State.hazardFree (s : State) : Prop := s.settled ∧ s.hostStores = []

/-- Both windows lie in the address space (20_memory R62), do not overlap (R64), and lie in implemented memory unless
empty (R63). -/
abbrev State.windowsOk (s : State) : Prop :=
  s.latch.src.toNat < 2 ^ s.platform.addrW ∧ s.latch.dst.toNat < 2 ^ s.platform.addrW ∧
  s.latch.src.toNat + s.latch.len.toNat ≤ 2 ^ s.platform.addrW ∧
  s.latch.dst.toNat + s.latch.cap.toNat ≤ 2 ^ s.platform.addrW ∧
  (s.latch.len.toNat = 0 ∨ s.latch.cap.toNat = 0 ∨
    s.latch.dst.toNat + s.latch.cap.toNat ≤ s.latch.src.toNat ∨
    s.latch.src.toNat + s.latch.len.toNat ≤ s.latch.dst.toNat) ∧
  (s.latch.len.toNat = 0 ∨ s.latch.src.toNat + s.latch.len.toNat ≤ s.platform.memSize) ∧
  (s.latch.cap.toNat = 0 ∨ s.latch.dst.toNat + s.latch.cap.toNat ≤ s.platform.memSize)

/-- `Validate()` of 40_control R123 as the rule writes it, one list of checks for all commands (check 1 is the
decoder's): the error of the first check that fails. -/
def validateByR123 (i : Instr) (s : State) : Option Err :=
  if i.op = 0 then none
  else if (i.op = 1 ∨ i.op = 2 ∨ i.op = 5 ∨ i.op = 6) ∧ i.bpp = 0 then some .invalidParameter
  else if (i.op = 1 ∨ i.op = 2) ∧ s.latch.len.toNat % i.bpp ≠ 0 then some .invalidParameter
  else if i.op = 5 ∧ 2 ^ 24 ≤ s.latch.len.toNat then some .invalidParameter
  else if i.op = 6 ∧ (2 ^ 24 ≤ s.latch.len.toNat ∨ 2 ^ 24 ≤ s.latch.olen.toNat) then some .invalidParameter
  else if 2 ^ s.platform.addrW ≤ s.latch.src.toNat ∨ 2 ^ s.platform.addrW ≤ s.latch.dst.toNat ∨
      2 ^ s.platform.addrW < s.latch.src.toNat + s.latch.len.toNat ∨
      2 ^ s.platform.addrW < s.latch.dst.toNat + s.latch.cap.toNat then some .invalidParameter
  else if 0 < s.latch.len.toNat ∧ 0 < s.latch.cap.toNat ∧
      s.latch.src.toNat < s.latch.dst.toNat + s.latch.cap.toNat ∧
      s.latch.dst.toNat < s.latch.src.toNat + s.latch.len.toNat then some .invalidParameter
  else if (0 < s.latch.len.toNat ∧ s.platform.memSize < s.latch.src.toNat + s.latch.len.toNat) ∨
      (0 < s.latch.cap.toNat ∧ s.platform.memSize < s.latch.dst.toNat + s.latch.cap.toNat) then some .busFault
  else if (i.op = 1 ∨ i.op = 2 ∨ i.op = 3 ∨ i.op = 4) ∧ s.latch.cap.toNat < s.latch.len.toNat then some .dstOverflow
  else if i.op = 6 ∧ s.latch.cap.toNat < s.latch.olen.toNat then some .dstOverflow
  else none

/-- What every completion does to the registers besides ERRCODE and RESULT: BUSY falls, DONE rises, and CTRL, OVR, CMD,
the arguments, the latched copies, the platform and the host's own data stay (40_control R125, 10_state R33). -/
abbrev completionFrame (s t : State) : Prop :=
  t.status.busy = false ∧ t.status.done = true ∧ t.status.ovr = s.status.ovr ∧ t.ie = s.ie ∧ t.cmd = s.cmd ∧
  t.args = s.args ∧ t.latchCmd = s.latchCmd ∧ t.latch = s.latch ∧ t.platform = s.platform ∧
  t.script = s.script ∧ t.hostData = s.hostData

/-- Every byte of memory outside `[base, base + n)` reads as before. -/
def memoryFrame (s t : State) (base n : Nat) : Prop :=
  ∀ a, a < base ∨ base + n ≤ a → t.mem.read a = s.mem.read a

/-- A command ended in error `e`: its code, RESULT 0, no byte of memory written (40_control R127, 60_exceptions R353). -/
abbrev endedInError (s t : State) (e : Err) : Prop :=
  t.status.errcode = e.code ∧ t.result = 0 ∧ t.mem = s.mem ∧ completionFrame s t

/-- A command succeeded with `n` bytes at `L.DST`: ERRCODE 0, RESULT n, no other byte of memory changed
(40_control R125, R128). -/
abbrev succeededWith (s t : State) (n : Nat) : Prop :=
  t.status.errcode = 0 ∧ t.result.toNat = n ∧ memoryFrame s t s.latch.dst.toNat n ∧ completionFrame s t

/-- A reading of the source window: each byte is one of the values it has held (70_reset R400). -/
def State.heldReading (s : State) (xs : List Byte) : Prop :=
  xs.length = s.latch.len.toNat ∧
    ∀ k, k < s.latch.len.toNat → xs.getD k 0 ∈ s.heldValues (s.latch.src.toNat + k)

/-- The `n` bytes of the source window from its byte `k` on each hold one value from the start to the observed completion. -/
def State.settledAt (s : State) (k n : Nat) : Prop :=
  ∀ j, j < n → ∀ v ∈ s.heldValues (s.latch.src.toNat + k + j), v = s.mem.read (s.latch.src.toNat + k + j)

/-- Nibble `k` of a byte sequence: bits 3:0 of byte k/2 for an even k, bits 7:4 for an odd one (43_block_format R222,
R223). -/
def nibbleAt (bs : List Byte) (k : Nat) : Nat := (bs.getD (k / 2) 0).toNat / 16 ^ (k % 2) % 16

/-- A NORMAL or NORMAL_RLE record's header bytes are sound: no header 14 and no padding (43_block_format R214, R222). -/
def headersSound (r : Nat) (hdr : List Byte) : Prop :=
  (∀ k, k < r → nibbleAt hdr k ≠ 14) ∧ (r % 2 = 1 → nibbleAt hdr r = 0)

/-- A kind prefix is sound: no kind above 3 and no padding (43_block_format R216, R223). -/
def prefixSound (b : Nat) (pre : List Byte) : Prop :=
  (∀ p, p < b → nibbleAt pre p ≤ 3) ∧ (b % 2 = 1 → nibbleAt pre b = 0)

/-- K, the count of rows that use a min (43_block_format R214, R219). -/
def minCount (r : Nat) (hdr : List Byte) : Nat :=
  (List.range r).countP (fun k => nibbleAt hdr k ≤ 5 || (8 ≤ nibbleAt hdr k && nibbleAt hdr k ≤ 13))

/-- The size of a plane's NORMAL or NORMAL_RLE record, whichever R270 takes, from its coded rows. -/
def codedSize (r : Nat) (rows : List RowCode) : Nat :=
  let mins := rows.filterMap (fun c => c.min)
  (r + 1) / 2 + min mins.length (2 + (changes 0 mins).length) + (rows.map (fun c => c.payload.length)).sum

/-- The bytes that a command left at `s`'s destination, as its completion `t` reports them, are the source of `s'`, which
no host store raced. -/
abbrev outputFeeds (s t s' : State) : Prop :=
  s'.hazardFree ∧ s'.source = t.mem.readBytes s.latch.dst.toNat t.result.toNat

/-- The command `i` at `s` succeeds with output `out`. -/
abbrev producesOutput (i : Instr) (s : State) (out : List Byte) : Prop :=
  ∃ t, exec i s = .next t ∧ succeededWith s t out.length ∧ t.mem.readBytes s.latch.dst.toNat out.length = out

/-- DELTA and DELTA_INV copy byte `i` of `n` unchanged: it is the first byte of a stream, or a byte of the tail
(42_delta R168, R169). -/
abbrev copiedByDelta (n i : Nat) : Prop :=
  (n ≤ 2048 ∧ i = 0) ∨ (2048 < n ∧ (4 * (n / 4) ≤ i ∨ i % (n / 4) = 0))

/-- The engine's turn is next: an empty script, or its own entry at the head. -/
abbrev State.engineNext (s : State) : Prop := s.script = [] ∨ s.script.head? = some .engine

/-- The next event is a register access: a store of four bytes with value `w` at offset `off`, then the events `rest`. -/
abbrev State.nextWrites (s : State) (off : Nat) (w : Word) (rest : List Event) : Prop :=
  s.script = .store (s.platform.mmioBase + off) (leBytes 4 w.toNat) :: rest

/-- The next event resets the engine: a power-on reset, or a store of a word with SRST set to CTRL (70_reset R390,
R391); the events `rest` follow. -/
abbrev State.nextResets (s : State) (rest : List Event) : Prop :=
  s.script = .powerOn :: rest ∨ ∃ w : Word, w.getLsbD 1 = true ∧ s.nextWrites 0x04 w rest

/-- The size bound of BLK_ENC's output for `n` bytes of width `b` (44_block_encode R302). -/
def encodedBound (b n : Nat) : Nat :=
  n / (256 * b) * (1 + 256 * b) +
    (if 0 < n % (256 * b) then 1 + (b + 1) / 2 + n % (256 * b) else 0)

/-- The codes that a completion may report (60_exceptions R350, R351). -/
def reportedCodes : List Byte := [0x00, 0x02, 0x04, 0x06, 0x09, 0x10, 0x11]

/-- The invariant of the machine: a legal platform; memory in canonical form and only where it is implemented; while a
command is in flight DONE, ERRCODE and RESULT are clear and CMD is the latched word; ERRCODE holds a reported code, and
an error has RESULT 0; RESULT never exceeds the latched capacity; hazards are
recorded only while a command is in flight, and only in its windows. -/
structure State.Inv (s : State) : Prop where
  platform : s.platform.valid = true
  canonical : s.mem.wf = true
  implemented : s.mem.below s.platform.memSize = true
  inFlight : s.status.busy = true →
    s.status.done = false ∧ s.status.errcode = 0 ∧ s.result = 0 ∧ s.cmd = s.latchCmd
  code : s.status.errcode ∈ reportedCodes
  errorResult : s.status.errcode ≠ 0 → s.result = 0
  capacity : s.result.toNat ≤ s.latch.cap.toNat
  idle : s.status.busy = false → s.raced = [] ∧ s.hostStores = []
  racedInSource : ∀ c ∈ s.raced, s.inSource c.1 = true
  storesInDest : ∀ c ∈ s.hostStores, s.inDest c.1 = true

end Sys2Proof.Machine
end

