-- ==== Sys2Proof/Certificates/Slice0/Obligations.lean ====
section
/-! DEFINITION. The statements for the provers. -/

open Sys2Proof Sys2Proof.Machine

/-! Command words (30_encoding). -/

/-- R90, R91, R100: the decoder reads every command back from its word. -/
def Obligations.DecodeInvertsEncode : Prop :=
  ∀ i : Instr, i.wf = true → decode (encode i) = .ok i

/-- R90, R91: every legal word is the word of the command it decodes to, so no two words decode to the same term. That NOP,
DELTA and DELTA_INV keep the BPP field in their term, though they ignore it (R96), is the model's choice (log 17). -/
def Obligations.EncodeInvertsDecode : Prop :=
  ∀ (w : Word) (i : Instr), decode w = .ok i → i.wf = true ∧ encode i = w

/-- R93, R94, R95: exactly the reserved words are illegal; the only words that run as NOP are those with bits 15:0 zero;
an illegal word completes with IllegalCommand and touches no memory. -/
def Obligations.ReservedWordsAreIllegal : Prop :=
  (∀ w : Word,
    (7 ≤ (w.extractLsb' 0 4).toNat ∨ w.extractLsb' 4 4 ≠ 0 ∨ w.extractLsb' 9 7 ≠ 0 ∨
      (w.getLsbD 8 = true ∧ w.extractLsb' 0 4 ≠ 5)) ↔ ∃ e, decode w = .error e) ∧
  (∀ (w : Word) (bpp : Nat),
    decode w = .ok (.nop bpp) ↔ (w.extractLsb' 0 16 = 0 ∧ bpp = (w.extractLsb' 16 16).toNat)) ∧
  (∀ s : State, s.status.busy = true → s.engineNext → (∃ e, decode s.latchCmd = .error e) →
    ∃ t, step s = .next t ∧ endedInError { s with script := s.script.tail } t .illegalCommand)

/-- R102: the words of the common forms, both ways. -/
def Obligations.CommonWordsDecode : Prop :=
  ∀ p ∈ [((0x00000000 : Word), Instr.nop 0), (0x00040001, .shuffle 4), (0x00040002, .unshuffle 4),
      (0x00000003, .delta 0), (0x00000004, .deltaInv 0), (0x00010005, .blkEnc false 1), (0x00040105, .blkEnc true 4),
      (0x00040006, .blkDec 4)],
    decode p.1 = .ok p.2 ∧ encode p.2 = p.1

/-! The step (40_control). -/

/-- R120, R124, R125: while a command is in flight and the engine's turn is next, the step is the meaning of the command
that the latched word decodes to; an idle engine's turn changes nothing. The script entry of the turn is consumed. -/
def Obligations.StepRunsDecodedCommand : Prop :=
  (∀ (s : State) (i : Instr), s.status.busy = true → s.engineNext → decode s.latchCmd = .ok i → i.wf = true →
    step s = exec i { s with script := s.script.tail }) ∧
  (∀ s : State, s.status.busy = false → s.engineNext → step s = .next { s with script := s.script.tail })

/-- R121, R125: a legal word stored to CMD of an idle engine starts, and the engine's next turn runs the command it
stands for, on the arguments as they stood at the store. -/
def Obligations.WrittenCommandRuns : Prop :=
  ∀ (s : State) (w : Word) (i : Instr) (rest : List Event),
    s.status.busy = false → s.nextWrites 0x0C w (.engine :: rest) → decode w = .ok i →
    ∃ t, step s = .next t ∧ t.latch = s.args ∧ t.mem = s.mem ∧ step t = exec i { t with script := rest }

/-! Commands on operands that every check accepts. -/

/-- R130, R125: NOP completes with success in every state and writes nothing. -/
def Obligations.NopSucceeds : Prop :=
  ∀ (bpp : Nat) (s : State), ∃ t, exec (.nop bpp) s = .next t ∧ succeededWith s t 0

/-- R150, R148, R128: SHUFFLE writes byte p of element j at byte p·N + j, and nothing else. -/
def Obligations.ShuffleTransposes : Prop :=
  ∀ (bpp : Nat) (s : State), 1 ≤ bpp → s.latch.len.toNat % bpp = 0 → s.windowsOk →
    s.latch.len.toNat ≤ s.latch.cap.toNat → s.hazardFree →
    ∃ t, exec (.shuffle bpp) s = .next t ∧ succeededWith s t s.latch.len.toNat ∧
      ∀ j p, j < s.latch.len.toNat / bpp → p < bpp →
        t.mem.read (s.latch.dst.toNat + (p * (s.latch.len.toNat / bpp) + j)) =
          s.mem.read (s.latch.src.toNat + (j * bpp + p))

/-- R155, R128: UNSHUFFLE writes byte p·N + j at byte p of element j, and nothing else. -/
def Obligations.UnshuffleTransposesBack : Prop :=
  ∀ (bpp : Nat) (s : State), 1 ≤ bpp → s.latch.len.toNat % bpp = 0 → s.windowsOk →
    s.latch.len.toNat ≤ s.latch.cap.toNat → s.hazardFree →
    ∃ t, exec (.unshuffle bpp) s = .next t ∧ succeededWith s t s.latch.len.toNat ∧
      ∀ j p, j < s.latch.len.toNat / bpp → p < bpp →
        t.mem.read (s.latch.dst.toNat + (j * bpp + p)) =
          s.mem.read (s.latch.src.toNat + (p * (s.latch.len.toNat / bpp) + j))

/-- R168, R169, R170, R128: DELTA writes each byte less the one before it in its stream, first bytes and tail copied. -/
def Obligations.DeltaWritesDifferences : Prop :=
  ∀ (bpp : Nat) (s : State), s.windowsOk → s.latch.len.toNat ≤ s.latch.cap.toNat → s.hazardFree →
    ∃ t, exec (.delta bpp) s = .next t ∧ succeededWith s t s.latch.len.toNat ∧
      ∀ i, i < s.latch.len.toNat →
        (copiedByDelta s.latch.len.toNat i →
          t.mem.read (s.latch.dst.toNat + i) = s.mem.read (s.latch.src.toNat + i)) ∧
        (¬ copiedByDelta s.latch.len.toNat i →
          t.mem.read (s.latch.dst.toNat + i) =
            s.mem.read (s.latch.src.toNat + i) - s.mem.read (s.latch.src.toNat + (i - 1)))

/-- R168, R169, R175, R128: DELTA_INV writes each byte plus the output byte before it in its stream, first bytes and tail
copied. -/
def Obligations.DeltaInvWritesSums : Prop :=
  ∀ (bpp : Nat) (s : State), s.windowsOk → s.latch.len.toNat ≤ s.latch.cap.toNat → s.hazardFree →
    ∃ t, exec (.deltaInv bpp) s = .next t ∧ succeededWith s t s.latch.len.toNat ∧
      ∀ i, i < s.latch.len.toNat →
        (copiedByDelta s.latch.len.toNat i →
          t.mem.read (s.latch.dst.toNat + i) = s.mem.read (s.latch.src.toNat + i)) ∧
        (¬ copiedByDelta s.latch.len.toNat i →
          t.mem.read (s.latch.dst.toNat + i) =
            t.mem.read (s.latch.dst.toNat + (i - 1)) + s.mem.read (s.latch.src.toNat + i))

/-- R260, R125, R128: BLK_ENC writes the encoding of its source window where it fits the capacity, and ends in
DstOverflow where it does not. -/
def Obligations.BlkEncWritesEncoding : Prop :=
  ∀ (lzEn : Bool) (bpp : Nat) (s : State), 1 ≤ bpp → s.latch.len.toNat < 2 ^ 24 → s.windowsOk → s.hazardFree →
    ∃ t, exec (.blkEnc lzEn bpp) s = .next t ∧
      ((encodeSuperblock lzEn bpp s.source).length ≤ s.latch.cap.toNat →
        succeededWith s t (encodeSuperblock lzEn bpp s.source).length ∧
        t.mem.readBytes s.latch.dst.toNat (encodeSuperblock lzEn bpp s.source).length =
          encodeSuperblock lzEn bpp s.source) ∧
      (s.latch.cap.toNat < (encodeSuperblock lzEn bpp s.source).length → endedInError s t .dstOverflow)

/-- R310, R125, R128, R318: BLK_DEC writes the OLEN bytes its stream decodes to. -/
def Obligations.BlkDecWritesDecoding : Prop :=
  ∀ (bpp : Nat) (s : State) (out : List Byte), 1 ≤ bpp → s.latch.len.toNat < 2 ^ 24 → s.latch.olen.toNat < 2 ^ 24 →
    s.windowsOk → s.latch.olen.toNat ≤ s.latch.cap.toNat → s.hazardFree →
    decodeSuperblock bpp s.latch.olen.toNat s.source = .ok out →
    ∃ t, exec (.blkDec bpp) s = .next t ∧ succeededWith s t s.latch.olen.toNat ∧
      t.mem.readBytes s.latch.dst.toNat s.latch.olen.toNat = out

/-- R317, R319: BLK_DEC on a defective stream ends in SrcOverflow or InvalidInput, whichever its stream gives, and writes
nothing. -/
def Obligations.BlkDecStreamDefect : Prop :=
  ∀ (bpp : Nat) (s : State) (e : Err), 1 ≤ bpp → s.latch.len.toNat < 2 ^ 24 → s.latch.olen.toNat < 2 ^ 24 →
    s.windowsOk → s.latch.olen.toNat ≤ s.latch.cap.toNat → s.hazardFree →
    decodeSuperblock bpp s.latch.olen.toNat s.source = .error e →
    (e = .srcOverflow ∨ e = .invalidInput) ∧ ∃ t, exec (.blkDec bpp) s = .next t ∧ endedInError s t e

/-- R156: UNSHUFFLE on the output of SHUFFLE, and SHUFFLE on the output of UNSHUFFLE, give back the original bytes. -/
def Obligations.ShuffleCommandsUndoEachOther : Prop :=
  ∀ (bpp : Nat) (s t s' : State), s.hazardFree → outputFeeds s t s' →
    (validateByR123 (.shuffle bpp) s = none → exec (.shuffle bpp) s = .next t →
      validateByR123 (.unshuffle bpp) s' = none → producesOutput (.unshuffle bpp) s' s.source) ∧
    (validateByR123 (.unshuffle bpp) s = none → exec (.unshuffle bpp) s = .next t →
      validateByR123 (.shuffle bpp) s' = none → producesOutput (.shuffle bpp) s' s.source)

/-- R176: DELTA_INV on the output of DELTA, and DELTA on the output of DELTA_INV, give back the original bytes, whatever the
ignored BPP fields are. -/
def Obligations.DeltaCommandsUndoEachOther : Prop :=
  ∀ (bpp bpp' : Nat) (s t s' : State), s.hazardFree → outputFeeds s t s' →
    (validateByR123 (.delta bpp) s = none → exec (.delta bpp) s = .next t →
      validateByR123 (.deltaInv bpp') s' = none → producesOutput (.deltaInv bpp') s' s.source) ∧
    (validateByR123 (.deltaInv bpp) s = none → exec (.deltaInv bpp) s = .next t →
      validateByR123 (.delta bpp') s' = none → producesOutput (.delta bpp') s' s.source)

/-- R320: where BLK_ENC succeeds, BLK_DEC with the same BPP and OLEN the length of the original, on its output and with
operands that every check accepts, writes the original bytes. (The checks include R98's limit on the stream: log 19.) -/
def Obligations.BlockCommandsRoundTrip : Prop :=
  ∀ (lzEn : Bool) (bpp : Nat) (s t s' : State), bpp ≤ 65535 → s.hazardFree → outputFeeds s t s' →
    validateByR123 (.blkEnc lzEn bpp) s = none → exec (.blkEnc lzEn bpp) s = .next t → t.status.errcode = 0 →
    s'.latch.olen = s.latch.len → validateByR123 (.blkDec bpp) s' = none →
    producesOutput (.blkDec bpp) s' s.source

/-! Errors, and what every command leaves. -/

/-- R123, R352, R353: an illegal word ends in IllegalCommand (check 1), and a command that fails a later check of R123 ends
in the error of the first check that fails, in the rule's order; where none fails, NOP, SHUFFLE, UNSHUFFLE, DELTA and
DELTA_INV succeed. -/
def Obligations.FirstFailingCheckDecides : Prop :=
  (∀ s : State, (∃ e, decode s.latchCmd = .error e) → ∃ t, engineStep s = .next t ∧ endedInError s t .illegalCommand) ∧
  (∀ (i : Instr) (s : State) (e : Err), validateByR123 i s = some e →
    ∃ t, exec i s = .next t ∧ endedInError s t e) ∧
  (∀ (i : Instr) (s : State), validateByR123 i s = none → i.op ≤ 4 →
    ∃ t, exec i s = .next t ∧ t.status.errcode = 0)

/-- R125, R33, R350, R351: the engine's step always completes; it reports a code that the BTE raises, and changes no
argument, CMD, CTRL or OVR. The codes have the numbers of R350. -/
def Obligations.EngineStepCompletes : Prop :=
  (∀ s : State, ∃ t, engineStep s = .next t ∧ completionFrame s t ∧ t.status.errcode ∈ reportedCodes) ∧
  Err.code .undefined = 0x01 ∧ Err.code .srcOverflow = 0x02 ∧ Err.code .alloc = 0x03 ∧ Err.code .invalidInput = 0x04 ∧
  Err.code .invalidInstructionSet = 0x05 ∧ Err.code .dstOverflow = 0x06 ∧ Err.code .invalidBytesoftype = 0x07 ∧
  Err.code .entropyInternal = 0x08 ∧ Err.code .invalidParameter = 0x09 ∧ Err.code .illegalCommand = 0x10 ∧
  Err.code .busFault = 0x11

/-- R127: "A command that completes with an error writes no byte of system memory: its destination window keeps the bytes
it had at the start." RESULT is 0 (R353). -/
def Obligations.ErrorWritesNothing : Prop :=
  ∀ s t : State, engineStep s = .next t → t.status.errcode ≠ 0 → t.mem = s.mem ∧ t.result = 0

/-- R66, R128: a command that succeeds writes no byte outside `[L.DST, L.DST + RESULT)`, which its capacity holds, and
no byte of its source window. -/
def Obligations.SuccessWritesOnlyResult : Prop :=
  ∀ s t : State, engineStep s = .next t → t.status.errcode = 0 →
    t.result.toNat ≤ s.latch.cap.toNat ∧ memoryFrame s t s.latch.dst.toNat t.result.toNat ∧
    ∀ a, s.inSource a = true → t.mem.read a = s.mem.read a

/-- R124: a command's outcome and output depend only on the command, LEN, OLEN, CAP and the source bytes: not on where the
windows lie, nor on anything else in the state. -/
def Obligations.OutputDependsOnOperandsOnly : Prop :=
  ∀ (i : Instr) (s₁ s₂ t₁ t₂ : State), s₁.hazardFree → s₂.hazardFree → s₁.source = s₂.source →
    s₁.latch.olen = s₂.latch.olen → s₁.latch.cap = s₂.latch.cap →
    validateByR123 i s₁ = none → validateByR123 i s₂ = none →
    exec i s₁ = .next t₁ → exec i s₂ = .next t₂ →
    t₁.status.errcode = t₂.status.errcode ∧ t₁.result = t₂.result ∧
    (t₁.status.errcode = 0 →
      t₁.mem.readBytes s₁.latch.dst.toNat t₁.result.toNat = t₂.mem.readBytes s₂.latch.dst.toNat t₂.result.toNat)

/-- R38, R40: no step depends on the working storage, which no host access reads. -/
def Obligations.WorkingStorageUnobserved : Prop :=
  ∀ (s t : State) (w : Work), step s = .next t → ∃ w', step { s with work := w } = .next { t with work := w' }

/-! Host accesses to the register block (10_state, 20_memory R75). -/

/-- R121: a store to CMD of an idle engine starts a command, whatever the word. -/
def Obligations.StartLatchesArguments : Prop :=
  ∀ (s : State) (w : Word) (rest : List Event), s.status.busy = false → s.nextWrites 0x0C w rest →
    ∃ t, step s = .next t ∧ t.cmd = w ∧ t.latchCmd = w ∧ t.latch = s.args ∧ t.result = 0 ∧
      t.status = { busy := true, done := false, ovr := s.status.ovr, errcode := 0 } ∧
      t.ie = s.ie ∧ t.args = s.args ∧ t.mem = s.mem ∧ t.platform = s.platform ∧ t.script = rest

/-- R122: a store to CMD while a command runs sets OVR and does nothing else. -/
def Obligations.DroppedCommandSetsOverrun : Prop :=
  ∀ (s : State) (w : Word) (rest : List Event), s.status.busy = true → s.nextWrites 0x0C w rest →
    step s = .next { s with script := rest, status := { s.status with ovr := true } }

/-- R23: a store to STATUS clears DONE where bit 1 is set and OVR where bit 2 is set, and changes nothing else; STATUS reads
BUSY in bit 0, DONE in bit 1, OVR in bit 2, ERRCODE in bits 15:8 and 0 in every other bit. -/
def Obligations.StatusStoreClearsByOne : Prop :=
  (∀ (s : State) (w : Word) (rest : List Event), s.nextWrites 0x08 w rest →
    step s = .next { s with
      script := rest
      status := { s.status with
        done := if w.getLsbD 1 then false else s.status.done
        ovr := if w.getLsbD 2 then false else s.status.ovr } }) ∧
  (∀ s : State,
    (s.readReg .status).getLsbD 0 = s.status.busy ∧ (s.readReg .status).getLsbD 1 = s.status.done ∧
    (s.readReg .status).getLsbD 2 = s.status.ovr ∧ (s.readReg .status).extractLsb' 8 8 = s.status.errcode ∧
    (s.readReg .status).extractLsb' 3 5 = 0 ∧ (s.readReg .status).extractLsb' 16 16 = 0)

/-- R22, R360: a store to CTRL without SRST sets IE to bit 0, and IRQ follows at once; CTRL reads IE in bit 0 and 0 in
every other bit. -/
def Obligations.CtrlStoreSetsInterruptEnable : Prop :=
  (∀ (s : State) (w : Word) (rest : List Event), s.nextWrites 0x04 w rest → w.getLsbD 1 = false →
    ∃ t, step s = .next t ∧ t = { s with script := rest, ie := w.getLsbD 0 } ∧
      t.irq = (w.getLsbD 0 && s.status.done)) ∧
  (∀ s : State, (s.readReg .ctrl).getLsbD 0 = s.ie ∧ (s.readReg .ctrl).extractLsb' 1 31 = 0)

/-- R25 to R29, R33: a write of an argument half is read back, every other register reads as before, and only the
arguments change. -/
def Obligations.ArgumentHalvesAreIndependent : Prop :=
  ∀ (s : State) (r : Reg) (w : Word),
    r ∈ [Reg.srcLo, .srcHi, .dstLo, .dstHi, .lenLo, .lenHi, .olenLo, .olenHi, .capLo, .capHi] →
    (s.writeReg r w).readReg r = w ∧ (∀ r', r' ≠ r → (s.writeReg r w).readReg r' = s.readReg r') ∧
    s.writeReg r w = { s with args := (s.writeReg r w).args }

/-- R25 to R30, R91: each 64-bit value is its high half times 2^32 plus its low half. -/
def Obligations.HalvesAssembleValues : Prop :=
  ∀ s : State,
    (s.readReg .srcHi).toNat * 2 ^ 32 + (s.readReg .srcLo).toNat = s.args.src.toNat ∧
    (s.readReg .dstHi).toNat * 2 ^ 32 + (s.readReg .dstLo).toNat = s.args.dst.toNat ∧
    (s.readReg .lenHi).toNat * 2 ^ 32 + (s.readReg .lenLo).toNat = s.args.len.toNat ∧
    (s.readReg .olenHi).toNat * 2 ^ 32 + (s.readReg .olenLo).toNat = s.args.olen.toNat ∧
    (s.readReg .capHi).toNat * 2 ^ 32 + (s.readReg .capLo).toNat = s.args.cap.toNat ∧
    (s.readReg .resultHi).toNat * 2 ^ 32 + (s.readReg .resultLo).toNat = s.result.toNat

/-- R75, R20, R71, R357: a load or store of the register block that is 4 bytes at a multiple of 4 reads or writes the
register there, little-endian; any other load returns zeros and any other store does nothing. The registers lie at the
offsets of R20. Two clauses are the model's choice: an access that starts in the block and runs past its end is one of the
block (log 13), and a read of STATUS with BUSY = 0, R71's observed completion, clears the record of what is not yet observed
(log 12); a load changes nothing else but what the host holds. -/
def Obligations.RegisterAccessWidths : Prop :=
  (∀ (s : State) (off width : Nat) (rest : List Event), off < 256 →
    s.script = .load (s.platform.mmioBase + off) width :: rest →
    step s = .next { s with
      script := rest
      hostData := if width = 4 ∧ off % 4 = 0 then leBytes 4 (s.readReg (regAt off)).toNat
        else List.replicate width 0
      unseen := if width = 4 ∧ off = 0x08 ∧ s.status.busy = false then [] else s.unseen }) ∧
  (∀ (s : State) (off : Nat) (bytes : List Byte) (rest : List Event), off < 256 →
    s.script = .store (s.platform.mmioBase + off) bytes :: rest →
    step s = .next (if bytes.length = 4 ∧ off % 4 = 0
      then { s with script := rest }.writeReg (regAt off) (BitVec.ofNat 32 (leNat bytes))
      else { s with script := rest })) ∧
  [0x00, 0x04, 0x08, 0x0C, 0x10, 0x14, 0x18, 0x1C, 0x20, 0x24, 0x28, 0x2C, 0x30, 0x34, 0x38, 0x3C, 0x40].map regAt =
    [.id, .ctrl, .status, .cmd, .srcLo, .srcHi, .dstLo, .dstHi, .lenLo, .lenHi, .olenLo, .olenHi, .capLo, .capHi,
      .resultLo, .resultHi, .caps]

/-- R21, R30, R31, R32, R357: writes of ID, RESULT, CAPS and the reserved offsets are ignored; ID reads 0x42544501, CAPS
reads ADDR_W and 4, and a reserved offset reads 0. -/
def Obligations.ReadOnlyRegistersIgnoreWrites : Prop :=
  (∀ (s : State) (r : Reg) (w : Word), r ∈ [Reg.id, .resultLo, .resultHi, .caps, .reserved] → s.writeReg r w = s) ∧
  (∀ s : State, s.readReg .id = 0x42544501 ∧ s.readReg .reserved = 0) ∧
  (∀ s : State, s.platform.valid = true → (s.readReg .caps).toNat = s.platform.addrW + 0x400) ∧
  (∀ off, 0x44 ≤ off → regAt off = .reserved)

/-- R40, R390, R391: a power-on reset or a store of SRST leaves every register at its reset value and IRQ low, and with no
command in flight memory as it was. That a power-on reset keeps memory is read from R40, while R390 leaves its contents to
the platform (log 15). -/
def Obligations.ResetRestoresRegisters : Prop :=
  ∀ (s : State) (rest : List Event), s.nextResets rest →
    ∃ t, step s = .next t ∧ (∀ r, r ≠ .caps → t.readReg r = State.reset.readReg r) ∧
      t.readReg .caps = s.readReg .caps ∧ t.status = { busy := false, done := false, ovr := false, errcode := 0 } ∧
      t.irq = false ∧ t.script = rest ∧ t.platform = s.platform ∧ (s.status.busy = false → t.mem = s.mem)

/-- R392: a reset during a command ends it without a completion, sets no DONE, and changes no byte outside its destination
window and none of its source window. -/
def Obligations.ResetAbortsCommand : Prop :=
  ∀ (s : State) (rest : List Event), s.status.busy = true → s.nextResets rest →
    ∃ t, step s = .next t ∧ t.status.busy = false ∧ t.status.done = false ∧
      memoryFrame s t s.latch.dst.toNat s.latch.cap.toNat ∧ ∀ a, s.inSource a = true → t.mem.read a = s.mem.read a

/-- R390, R40: the machine right after power-on. -/
def Obligations.PowerOnState : Prop :=
  State.reset.readReg .id = 0x42544501 ∧
  (∀ r, r ≠ .id → r ≠ .caps → State.reset.readReg r = 0) ∧
  State.reset.status = { busy := false, done := false, ovr := false, errcode := 0 } ∧ State.reset.irq = false

/-- R361: IRQ rises only in a completion or in a store to CTRL that sets IE, and falls only in a store to STATUS that
clears DONE, a store to CTRL that clears IE, the start of a command, or a reset. -/
def Obligations.IrqChangesOnlyAtItsEvents : Prop :=
  ∀ s t : State, step s = .next t →
    (s.irq = false → t.irq = true →
      (s.status.busy = true ∧ s.engineNext) ∨
      ∃ bytes rest, s.script = .store (s.platform.mmioBase + 0x04) bytes :: rest ∧
        (BitVec.ofNat 32 (leNat bytes)).getLsbD 0 = true) ∧
    (s.irq = true → t.irq = false →
      (∃ bytes rest, s.script = .store (s.platform.mmioBase + 0x08) bytes :: rest ∧
        (BitVec.ofNat 32 (leNat bytes)).getLsbD 1 = true) ∨
      (∃ bytes rest, s.script = .store (s.platform.mmioBase + 0x04) bytes :: rest ∧
        ((BitVec.ofNat 32 (leNat bytes)).getLsbD 0 = false ∨ (BitVec.ofNat 32 (leNat bytes)).getLsbD 1 = true)) ∨
      (s.status.busy = false ∧ ∃ bytes rest, s.script = .store (s.platform.mmioBase + 0x0C) bytes :: rest) ∨
      (∃ rest, s.script = .powerOn :: rest))

/-- R37, R76, R33: from a command's start to its completion nothing changes the latched word and arguments, nor CMD. -/
def Obligations.LatchedCopiesFixedWhileBusy : Prop :=
  ∀ s t : State, step s = .next t → s.status.busy = true → t.status.busy = true →
    t.latchCmd = s.latchCmd ∧ t.latch = s.latch ∧ t.cmd = s.cmd

/-- R35, R120: BUSY falls only in the engine's turn or in a reset (power-on, or a store of SRST to CTRL), and rises only in
a store to CMD. -/
def Obligations.BusyChangesOnlyAtItsEvents : Prop :=
  ∀ s t : State, step s = .next t →
    (s.status.busy = true → t.status.busy = false → s.engineNext ∨ ∃ rest, s.script = .powerOn :: rest ∨
      ∃ bytes, s.script = .store (s.platform.mmioBase + 0x04) bytes :: rest ∧
        (BitVec.ofNat 32 (leNat bytes)).getLsbD 1 = true) ∧
    (s.status.busy = false → t.status.busy = true →
      ∃ bytes rest, s.script = .store (s.platform.mmioBase + 0x0C) bytes :: rest)

/-! Host accesses to system memory (20_memory R60, 70_reset R400 to R402). -/

/-- R60, R65, R73, R400, R401: a host store into implemented memory, whether a command runs or not, leaves each of its bytes
there at once, but one that a completion not yet observed holds open, and changes no other byte and no register; where it
goes into the source window of a running command, that is recorded with the byte before it and the byte stored, and where it
goes into neither window, no hazard is. A host load returns the byte in memory wherever no running command may write it and no
completion not yet observed holds it open. With no command running and every completion observed, a store leaves exactly its
bytes and a load returns exactly the bytes there. An access that reaches neither a register nor implemented memory alone
faults. The fault is the model's choice (log 13), and so are the time at which a store into a window lands (log 9) and the
records (logs 8, 12). -/
def Obligations.HostReachesMemory : Prop :=
  (∀ (s : State) (addr : Nat) (bytes : List Byte) (rest : List Event), s.script = .store addr bytes :: rest →
    inBlock s.platform addr = false → addr + bytes.length ≤ s.platform.memSize →
    ∃ t, step s = .next t ∧
      t = { s with
        script := rest, mem := t.mem, raced := t.raced, hostStores := t.hostStores, unseen := t.unseen
        draws := t.draws } ∧
      memoryFrame s t addr bytes.length ∧
      (∀ k, k < bytes.length →
        (s.unseenAt (addr + k) = none → t.mem.read (addr + k) = bytes.getD k 0) ∧
        (s.status.busy = true → s.inSource (addr + k) = true →
          (addr + k, s.mem.read (addr + k)) ∈ t.raced ∧ (addr + k, bytes.getD k 0) ∈ t.raced)) ∧
      (s.status.busy = false ∨
          (∀ k, k < bytes.length → s.inSource (addr + k) = false ∧ s.inDest (addr + k) = false) →
        t.raced = s.raced ∧ t.hostStores = s.hostStores) ∧
      (s.unseen = [] → t.unseen = [] ∧ t.draws = s.draws ∧ t.mem.readBytes addr bytes.length = bytes)) ∧
  (∀ (s : State) (addr width : Nat) (rest : List Event), s.script = .load addr width :: rest →
    inBlock s.platform addr = false → addr + width ≤ s.platform.memSize →
    ∃ t, step s = .next t ∧ t = { s with script := rest, hostData := t.hostData, loads := s.loads + 1 } ∧
      t.hostData.length = width ∧
      (∀ k, k < width → (∀ r ∈ s.unseen, r.addr ≠ addr + k) → (s.status.busy = true → s.inDest (addr + k) = false) →
        t.hostData.getD k 0 = s.mem.read (addr + k)) ∧
      (s.status.busy = false → s.unseen = [] → t.hostData = s.mem.readBytes addr width)) ∧
  (∀ (s : State) (addr width : Nat) (rest : List Event), s.script = .load addr width :: rest →
    inBlock s.platform addr = false → s.platform.memSize < addr + width → step s = .fault (.noMemory addr)) ∧
  (∀ (s : State) (addr : Nat) (bytes : List Byte) (rest : List Event), s.script = .store addr bytes :: rest →
    inBlock s.platform addr = false → s.platform.memSize < addr + bytes.length → step s = .fault (.noMemory addr))

/-- R401, R73: each byte of a host load is the byte in memory, or the byte that the command in flight writes when its turn
comes, or, until a completion is observed, one that the model records for a byte a completed command wrote. Where the turn
comes right after the load, the byte is the one before it or the one after it. The model's choice: if a reset or a faulting
access comes before the turn, the byte that the command would write if its turn came now is the one of R401 (log 10); a record
holds the command's byte with one that was there before or was stored since, and it outlives a start and a reset (log 12). -/
def Obligations.HostLoadsOldOrNewBytes : Prop :=
  (∀ (s : State) (addr width : Nat) (rest : List Event), s.script = .load addr width :: rest →
    inBlock s.platform addr = false → addr + width ≤ s.platform.memSize →
    ∃ t, step s = .next t ∧ t.mem = s.mem ∧ t.hostData.length = width ∧
      ∀ k, k < width →
        t.hostData.getD k 0 = s.mem.read (addr + k) ∨
        (s.status.busy = true ∧ ∃ v, v.status.errcode = 0 ∧
          engineStep { ((State.atTurn s.script s).getD { s with script := [] }) with hostStores := [] } = .next v ∧
          s.latch.dst.toNat ≤ addr + k ∧ addr + k < s.latch.dst.toNat + v.result.toNat ∧
          t.hostData.getD k 0 = v.mem.read (addr + k)) ∨
        ∃ r ∈ s.unseen, r.addr = addr + k ∧ (t.hostData.getD k 0 = r.written ∨ t.hostData.getD k 0 = r.older)) ∧
  (∀ (s t u : State) (addr width : Nat) (rest : List Event), s.status.busy = true → s.hostStores = [] → s.unseen = [] →
    s.script = .load addr width :: .engine :: rest → inBlock s.platform addr = false →
    step s = .next t → step t = .next u →
    ∀ k, k < width → t.hostData.getD k 0 = s.mem.read (addr + k) ∨ t.hostData.getD k 0 = u.mem.read (addr + k))

/-- R401, R73: where the host stored into the destination window of a running command, the byte that the command leaves there
is the last one the host stored or the command's own, and every other byte is the command's. The model's choice: a store into
the destination window lands at once and is recorded as the host's byte, and the byte last stored is the host's (log 9); a
completion records each byte it wrote with the byte before it, until it is observed, and a store of any length leaves at each
recorded byte the host's byte or the command's and keeps the record open with the byte stored (logs 9, 12). -/
def Obligations.DestinationRaceHasTwoOutcomes : Prop :=
  (∀ s t u : State, engineStep s = .next t → engineStep { s with hostStores := [] } = .next u →
    t.status = u.status ∧ t.result = u.result ∧
    ∀ a, t.mem.read a = u.mem.read a ∨ s.hostByte a = some (t.mem.read a)) ∧
  (∀ s t u : State, engineStep s = .next t → engineStep { s with hostStores := [] } = .next u →
    (t.status.errcode ≠ 0 → t.unseen = s.unseen) ∧
    (t.status.errcode = 0 → ∃ rs, t.unseen = rs ++ s.unseen ∧ rs.length = t.result.toNat ∧
      ∀ k, k < t.result.toNat → ∃ r ∈ rs, r.addr = s.latch.dst.toNat + k ∧ r.written = u.mem.read r.addr ∧
        r.older = s.mem.read r.addr)) ∧
  (∀ (s : State) (addr : Nat) (bytes : List Byte) (rest : List Event), s.script = .store addr bytes :: rest →
    inBlock s.platform addr = false → addr + bytes.length ≤ s.platform.memSize →
    ∃ t, step s = .next t ∧ memoryFrame s t addr bytes.length ∧
      (∀ a, s.hostByte a ≠ t.hostByte a → addr ≤ a ∧ a < addr + bytes.length) ∧
      ∀ k, k < bytes.length →
        (s.status.busy = true → s.inDest (addr + k) = true → t.hostByte (addr + k) = some (bytes.getD k 0)) ∧
        (∀ r, s.unseenAt (addr + k) = some r →
          (t.mem.read (addr + k) = bytes.getD k 0 ∨ t.mem.read (addr + k) = r.written) ∧
          t.unseenAt (addr + k) = some { addr := addr + k, written := r.written, older := bytes.getD k 0 }))

/-- R400: in a race on the source window SHUFFLE, UNSHUFFLE, DELTA and DELTA_INV succeed on operands that every check accepts,
and each byte they write is the byte that the command computes from a reading in which each source byte is one of the values
it has held. For SHUFFLE that is a value its source byte has held. -/
def Obligations.RacedKernelsSeeHeldValues : Prop :=
  (∀ (bpp : Nat) (s : State), validateByR123 (.shuffle bpp) s = none → s.hostStores = [] →
    ∃ t, exec (.shuffle bpp) s = .next t ∧ succeededWith s t s.latch.len.toNat ∧
      ∀ j p, j < s.latch.len.toNat / bpp → p < bpp →
        t.mem.read (s.latch.dst.toNat + (p * (s.latch.len.toNat / bpp) + j)) ∈
          s.heldValues (s.latch.src.toNat + (j * bpp + p))) ∧
  (∀ (bpp : Nat) (s : State), s.hostStores = [] →
    ∀ c ∈ [(Instr.shuffle bpp, shuffle bpp), (.unshuffle bpp, unshuffle bpp), (.delta bpp, delta), (.deltaInv bpp, deltaInv)],
      validateByR123 c.1 s = none →
      ∃ t, exec c.1 s = .next t ∧ succeededWith s t s.latch.len.toNat ∧
        ∀ k, k < s.latch.len.toNat → ∃ xs, s.heldReading xs ∧
          t.mem.read (s.latch.dst.toNat + k) = (c.2 xs).getD k 0)

/-- R400: in a race on the source window, BLK_DEC on operands that every check accepts ends in success with OLEN bytes, in
SrcOverflow or in InvalidInput, as its rules give for readings of held values, one for what it takes and one for its looks
at discriminators; BLK_ENC writes what its rules give on readings of held values where that fits the capacity, and ends in
DstOverflow exactly where it does not, and its records of blocks that no store changed are the encoder's. Which uses of a
source byte are readings of their own is the model's reading of R400 (log 8). -/
def Obligations.RacedBlockCommandsSeeHeldValues : Prop :=
  (∀ (bpp : Nat) (s : State), validateByR123 (.blkDec bpp) s = none →
    ∃ t, exec (.blkDec bpp) s = .next t ∧
      ((t.status.errcode = 0 ∧ t.result = s.latch.olen) ∨ endedInError s t .srcOverflow ∨
        endedInError s t .invalidInput)) ∧
  (∀ (bpp : Nat) (s : State), validateByR123 (.blkDec bpp) s = none → s.hostStores = [] →
    ∃ t look stream, exec (.blkDec bpp) s = .next t ∧ s.heldReading look ∧ s.heldReading stream ∧
      (∀ out, decodeWith (decodeFullSeen look bpp) bpp s.latch.olen.toNat stream = .ok out →
        succeededWith s t s.latch.olen.toNat ∧ t.mem.readBytes s.latch.dst.toNat s.latch.olen.toNat = out) ∧
      (∀ e, decodeWith (decodeFullSeen look bpp) bpp s.latch.olen.toNat stream = .error e → endedInError s t e)) ∧
  (∀ (lzEn : Bool) (bpp : Nat) (s : State), validateByR123 (.blkEnc lzEn bpp) s = none → s.hostStores = [] →
    ∃ (t : State) (see : Reads) (out : List Byte), exec (.blkEnc lzEn bpp) s = .next t ∧
      (∀ path, s.heldReading (see path)) ∧ out = encodeSuperblockSeen lzEn bpp s.latch.len.toNat see ∧
      (out.length ≤ s.latch.cap.toNat →
        succeededWith s t out.length ∧ t.mem.readBytes s.latch.dst.toNat out.length = out) ∧
      (s.latch.cap.toNat < out.length → endedInError s t .dstOverflow) ∧
      ∃ (records : List (List Byte)) (tail : List Byte), out = records.flatten ++ tail ∧
        records.length = s.latch.len.toNat / (256 * bpp) ∧
        (∀ k, k < records.length → s.settledAt (k * (256 * bpp)) (256 * bpp) →
          records.getD k [] =
            encodeFull lzEn bpp (s.mem.readBytes (s.latch.src.toNat + k * (256 * bpp)) (256 * bpp))) ∧
        (s.latch.len.toNat % (256 * bpp) = 0 → tail = []) ∧
        (s.latch.len.toNat % (256 * bpp) ≠ 0 →
          s.settledAt (records.length * (256 * bpp)) (s.latch.len.toNat % (256 * bpp)) →
          tail = encodePartial bpp (s.mem.readBytes (s.latch.src.toNat + records.length * (256 * bpp))
            (s.latch.len.toNat % (256 * bpp)))))

/-! The invariant. -/

/-- Every step keeps the invariant of the machine. -/
def Obligations.StepKeepsInvariant : Prop :=
  ∀ s t : State, s.Inv → step s = .next t → t.Inv

/-- The machine after reset has the invariant. -/
def Obligations.ResetHasInvariant : Prop := State.reset.Inv

/-! Byte transposition and byte delta (41_transpose, 42_delta). -/

/-- R148, R156: the shuffle map sends byte j·b + p to byte p·N + j, and unshuffle is its inverse both ways. -/
def Obligations.ShuffleIsABijection : Prop :=
  ∀ (b : Nat) (x : List Byte), 1 ≤ b → x.length % b = 0 →
    (shuffle b x).length = x.length ∧
    (∀ j p, j < x.length / b → p < b → (shuffle b x)[p * (x.length / b) + j]? = x[j * b + p]?) ∧
    unshuffle b (shuffle b x) = x ∧ shuffle b (unshuffle b x) = x

/-- R176: each delta undoes the other, for every length. -/
def Obligations.DeltaIsABijection : Prop :=
  ∀ x : List Byte, deltaInv (delta x) = x ∧ delta (deltaInv x) = x

/-! The block codec (43_block_format, 44_block_encode, 45_block_decode). -/

/-- R208: the width of a range is the least of 0, 1, 2, 3, 4, 5, 8 that holds it. -/
def Obligations.WidthIsLeast : Prop :=
  ∀ g : Nat, g ≤ 255 →
    width g ∈ [0, 1, 2, 3, 4, 5, 8] ∧ g ≤ 2 ^ width g - 1 ∧
    ∀ w ∈ [0, 1, 2, 3, 4, 5, 8], g ≤ 2 ^ w - 1 → width g ≤ w

/-- R209: sixteen values below 2^b pack into 2b bytes, value c at bits c·b .. c·b+b-1 of the little-endian integer, and
unpack to themselves. -/
def Obligations.PackPlacesFields : Prop :=
  ∀ (b : Nat) (u : List Byte), b ≤ 5 → u.length = 16 → (∀ x ∈ u, x.toNat < 2 ^ b) →
    (pack b u).length = 2 * b ∧
    (∀ c, c < 16 → leNat (pack b u) / 2 ^ (c * b) % 2 ^ b = (u.getD c 0).toNat) ∧
    unpack b (pack b u) = u

/-- R265, R266: the four candidates of a row in their order, with the cost, header, min and payload of each; a row takes the
candidate of least cost, and among equals the first; it is raw exactly when the literal candidate costs 16 and no candidate
costs less. The min is the least byte and the width that of the greatest less the least, as unsigned; a run-length cost counts
the values that differ from the one before them. -/
def Obligations.RowTakesFirstLeastCost : Prop :=
  (∀ (p pd : Byte) (row : List Byte),
    let ds := diffs p row
    candidates p pd row =
      [if rowWidth row ≤ 5 then
          { cost := 2 * rowWidth row + 1
            row := { header := .literal (rowWidth row), min := some (leastByte row)
                     payload := pack (rowWidth row) (row.map (fun x => x - leastByte row)) } }
        else { cost := 16, row := { header := .raw, min := none, payload := row } },
        if rowWidth ds ≤ 5 then
          { cost := 2 * rowWidth ds + 1
            row := { header := .delta (rowWidth ds), min := some (leastByte ds)
                     payload := pack (rowWidth ds) (ds.map (fun x => x - leastByte ds)) } }
        else { cost := 16, row := { header := .raw, min := none, payload := row } },
        { cost := 2 + ((p :: row).zip row).countP (fun q => q.1 ≠ q.2)
          row := { header := .runLength, min := none, payload := runLength p row } },
        { cost := 2 + ((pd :: ds).zip ds).countP (fun q => q.1 ≠ q.2)
          row := { header := .deltaRunLength, min := none, payload := runLength pd ds } }]) ∧
  (∀ xs : List Byte, xs ≠ [] →
    leastByte xs ∈ xs ∧ ∃ hi ∈ xs, (∀ x ∈ xs, leastByte xs ≤ x ∧ x ≤ hi) ∧
      rowWidth xs = width (hi.toNat - (leastByte xs).toNat)) ∧
  (∀ (p pd : Byte) (row : List Byte),
    (∃ k, (candidates p pd row)[k]? = some (chooseRow p pd row) ∧
      ∀ (j : Nat) (c : Candidate), (candidates p pd row)[j]? = some c →
        (chooseRow p pd row).cost ≤ c.cost ∧ (j < k → (chooseRow p pd row).cost < c.cost)) ∧
    ((chooseRow p pd row).row.header = .raw ↔
      packedCost row = 16 ∧ ∀ c ∈ candidates p pd row, 16 ≤ c.cost))

/-- R210 to R215, R265: every candidate of a row decodes to the row, whatever follows it, and costs its payload and its
min. -/
def Obligations.RowCandidatesDecode : Prop :=
  ∀ (p pd : Byte) (row rest : List Byte) (c : Candidate), row.length = 16 → c ∈ candidates p pd row →
    decodeRow c.row.header (c.row.min.getD 0) p pd (c.row.payload ++ rest) = .ok (row, rest) ∧
    c.cost = c.row.payload.length + (if c.row.min.isSome then 1 else 0)

/-- R220, R271: at most sixteen mins are read back from their run-length form. -/
def Obligations.MinColumnRoundTrip : Prop :=
  ∀ mins rest : List Byte, mins.length ≤ 16 → decodeMins mins.length (runLength 0 mins ++ rest) = .ok (mins, rest)

/-- R216 to R222, R270, R272: a plane record decodes to its plane, whatever follows it, and is never longer than the
plane. -/
def Obligations.PlaneRecordRoundTrip : Prop :=
  ∀ (r : Nat) (plane rest : List Byte), 1 ≤ r → r ≤ 16 → plane.length = 16 * r →
    decodePlane r (encodePlane r plane).1 ((encodePlane r plane).2 ++ rest) = .ok (plane, rest) ∧
    (encodePlane r plane).2.length ≤ 16 * r

/-- R227, R228, R291, R293, R316: an LZ_BLOCK record is within its size limit, opens with 253, and decodes to its block,
whatever follows it. -/
def Obligations.LzRecordRoundTrip : Prop :=
  ∀ (b maxSize : Nat) (blk record rest : List Byte), blk.length = 256 * b →
    lzEncode (blockElements b blk) maxSize = some record →
    record.length ≤ maxSize ∧ ∃ body, record = 253 :: body ∧ decodeLz b (body ++ rest) = .ok (blk, rest)

/-- R263, R286, R287: the LZ pass runs exactly for LZ_EN and BPP 3, 4, 6 or 8; where it runs and gives a record within the
limit, that is the block's record, and it is strictly shorter than the row-coded or copied one; otherwise the block takes
that one. -/
def Obligations.LzOnlyShortens : Prop :=
  ∀ (lzEn : Bool) (b : Nat) (blk : List Byte),
    (lzEn = false ∨ b ∉ [3, 4, 6, 8] → encodeFull lzEn b blk = bestRecord b blk) ∧
    (lzEn = true → b ∈ [3, 4, 6, 8] →
      (∀ record, lzEncode (blockElements b blk) ((bestRecord b blk).length - 1) = some record →
        encodeFull lzEn b blk = record) ∧
      (lzEncode (blockElements b blk) ((bestRecord b blk).length - 1) = none →
        encodeFull lzEn b blk = bestRecord b blk)) ∧
    (encodeFull lzEn b blk ≠ bestRecord b blk → (encodeFull lzEn b blk).length < (bestRecord b blk).length)

/-- R270, R271, R272, R280: a plane is ALL_SAME exactly when it is uniform; otherwise ALL_RAW exactly when its coded record
has at least 16R bytes, NORMAL_RLE exactly when it has fewer and the run-length form of its mins is strictly shorter than
the mins, and NORMAL in the other case. A full block is copied exactly when its row-coded record is not shorter than the
copy. -/
def Obligations.KindsAreChosenBySize : Prop :=
  (∀ (r : Nat) (plane : List Byte), 1 ≤ r → plane.length = 16 * r →
    let rows := encodeRows 0 0 (pieces 16 r plane)
    let mins := rows.filterMap (fun c => c.min)
    let uniform := ∃ v, plane = List.replicate (16 * r) v
    ((encodePlane r plane).1 = .allSame ↔ uniform) ∧
    ((encodePlane r plane).1 = .allRaw ↔ ¬ uniform ∧ 16 * r ≤ codedSize r rows) ∧
    ((encodePlane r plane).1 = .normalRle ↔
      ¬ uniform ∧ codedSize r rows < 16 * r ∧ 2 + (changes 0 mins).length < mins.length) ∧
    ((encodePlane r plane).1 = .normal ↔
      ¬ uniform ∧ codedSize r rows < 16 * r ∧ mins.length ≤ 2 + (changes 0 mins).length) ∧
    (encodePlane r plane).2.length =
      (if (encodePlane r plane).1 = .allSame then 1
        else if (encodePlane r plane).1 = .allRaw then 16 * r else codedSize r rows)) ∧
  (∀ (b : Nat) (blk : List Byte), blk.length = 256 * b →
    (1 + 256 * b ≤ (encodePlanes b 16 blk).length → bestRecord b blk = 252 :: blk) ∧
    ((encodePlanes b 16 blk).length < 1 + 256 * b → bestRecord b blk = encodePlanes b 16 blk))

/-- R302: the size bounds of full blocks, of partial blocks and of the whole output, and a capacity of the bound never
overflows. -/
def Obligations.EncodedSizeIsBounded : Prop :=
  (∀ (lzEn : Bool) (b : Nat) (blk : List Byte), 1 ≤ b → blk.length = 256 * b →
    (encodeFull lzEn b blk).length ≤ 1 + 256 * b) ∧
  (∀ (b : Nat) (blk : List Byte), 1 ≤ b → 0 < blk.length → blk.length < 256 * b →
    (16 * b ≤ blk.length → (encodePartial b blk).length ≤ 1 + (b + 1) / 2 + blk.length) ∧
    (blk.length < 16 * b → (encodePartial b blk).length = 1 + blk.length)) ∧
  (∀ (lzEn : Bool) (b : Nat) (x : List Byte), 1 ≤ b → (encodeSuperblock lzEn b x).length ≤ encodedBound b x.length) ∧
  (∀ (lzEn : Bool) (bpp : Nat) (s t : State), 1 ≤ bpp → s.hazardFree →
    encodedBound bpp s.latch.len.toNat ≤ s.latch.cap.toNat → exec (.blkEnc lzEn bpp) s = .next t →
    t.status.errcode ≠ 0x06)

/-- R320, in what the two commands perform: decoding the encoding of x gives x, for every width, either LZ_EN, and every x
below 2^24 bytes. (The two commands' length limits are R98's and are not part of it: log 19.) -/
def Obligations.BlockCodecRoundTrip : Prop :=
  ∀ (lzEn : Bool) (b : Nat) (x : List Byte), 1 ≤ b → b ≤ 65535 → x.length < 2 ^ 24 →
    decodeSuperblock b x.length (encodeSuperblock lzEn b x) = .ok x

/-- R318, R310: a stream that decodes gives exactly OLEN bytes, and the same stream with bytes left over is
InvalidInput. -/
def Obligations.DecodingConsumesExactly : Prop :=
  ∀ (b n : Nat) (stream out : List Byte), 1 ≤ b → decodeSuperblock b n stream = .ok out →
    out.length = n ∧
    ∀ extra : List Byte, extra ≠ [] → decodeSuperblock b n (stream ++ extra) = .error .invalidInput

/-- R317: a stream that decodes, cut short anywhere, is SrcOverflow. -/
def Obligations.TruncatedStreamOverflows : Prop :=
  ∀ (b n k : Nat) (stream out : List Byte), 1 ≤ b → decodeSuperblock b n stream = .ok out → k < stream.length →
    decodeSuperblock b n (stream.take k) = .error .srcOverflow

/-- R317, R201, R216, R222, R223, R220, R228: the stream defects of InvalidInput besides the bytes left over: 254 opening a
full block; a tail not opened by 254; a kind above 3 or padding in a kind prefix, of a full block or of a tail; a row header
14 or padding in the header bytes of a plane; a min-mask bit at or above K; an LZ offset of 0 or beyond the element. -/
def Obligations.DecoderRefusesDefects : Prop :=
  (∀ (b n : Nat) (rest : List Byte), 1 ≤ b → 256 * b ≤ n →
    decodeSuperblock b n (254 :: rest) = .error .invalidInput) ∧
  (∀ (b n : Nat) (f : Byte) (rest : List Byte), 0 < n → n < 256 * b → f ≠ 254 →
    decodeSuperblock b n (f :: rest) = .error .invalidInput) ∧
  (∀ (b n : Nat) (pre rest : List Byte), 1 ≤ b → 256 * b ≤ n → pre.length = (b + 1) / 2 →
    (pre.getD 0 0).toNat ∉ [252, 253, 254] → ¬ prefixSound b pre →
    decodeSuperblock b n (pre ++ rest) = .error .invalidInput) ∧
  (∀ (b n : Nat) (pre rest : List Byte), 1 ≤ b → 16 * b ≤ n → n < 256 * b → pre.length = (b + 1) / 2 →
    ¬ prefixSound b pre → decodeSuperblock b n (254 :: (pre ++ rest)) = .error .invalidInput) ∧
  (∀ (r : Nat) (kind : Kind) (hdr rest : List Byte), kind ∈ [Kind.normal, .normalRle] → hdr.length = (r + 1) / 2 →
    ¬ headersSound r hdr → decodePlane r kind (hdr ++ rest) = .error .invalidInput) ∧
  (∀ (r mask : Nat) (hdr rest : List Byte), hdr.length = (r + 1) / 2 → headersSound r hdr → mask < 65536 →
    mask / 2 ^ minCount r hdr ≠ 0 →
    decodePlane r .normalRle (hdr ++ leBytes 2 mask ++ rest) = .error .invalidInput) ∧
  (∀ (b : Nat) (els : List (List Byte)) (b0 b1 : Byte) (rest : List Byte),
    (if b0.toNat < 128 then b0.toNat = 0 ∨ els.length < b0.toNat
      else b0.toNat % 128 + 128 * b1.toNat = 0 ∨ els.length < b0.toNat % 128 + 128 * b1.toNat) →
    decodeElement b els true (b0 :: b1 :: rest) = .error .invalidInput) ∧
  (∀ (b n : Nat) (anchor b0 b1 : Byte) (rest : List Byte), 1 ≤ b → 256 * b ≤ n → anchor.toNat % 2 = 1 →
    decodeSuperblock b n (253 :: anchor :: b0 :: b1 :: rest) = .error .invalidInput)
end

