-- ==== Sys2Proof/Laws/Checks.lean ====
section
/-! SUPPORT. The operand checks: each says once when it passes and what it fails with. -/

namespace Sys2Proof.Machine

open Sys2Proof

theorem failIf_cases (c : Bool) (e : Err) :
    (c = true ∧ failIf c e = .error e) ∨ (c = false ∧ failIf c e = .ok ()) := by
  cases c <;> simp [failIf]

@[simp] theorem failIf_eq_ok {c : Bool} {e : Err} : failIf c e = .ok () ↔ c = false := by
  cases c <;> simp [failIf]

@[simp] theorem failIf_eq_error {c : Bool} {e e' : Err} : failIf c e = .error e' ↔ c = true ∧ e = e' := by
  cases c <;> simp [failIf]

/-- A sequence of two checks passes when both do. -/
theorem bind_check_ok {α : Type} {x : Except Err Unit} {y : Except Err α} {v : α} :
    (do x; y) = .ok v ↔ x = .ok () ∧ y = .ok v := by
  cases x <;> simp [bind, Except.bind]

/-- A sequence of two checks fails with the first error. -/
theorem bind_check_error {α : Type} {x : Except Err Unit} {y : Except Err α} {e : Err} :
    (do x; y) = .error e ↔ x = .error e ∨ (x = .ok () ∧ y = .error e) := by
  cases x <;> simp [bind, Except.bind]

@[simp] theorem checkBpp_ok {bpp : Nat} : checkBpp bpp = .ok () ↔ bpp ≠ 0 := by simp [checkBpp]

@[simp] theorem checkWhole_ok {bpp : Nat} {s : State} :
    checkWhole bpp s = .ok () ↔ s.latch.len.toNat % bpp = 0 := by simp [checkWhole]

@[simp] theorem checkLimit_ok {n : Nat} : checkLimit n = .ok () ↔ n < 2 ^ 24 := by
  rw [checkLimit, failIf_eq_ok, decide_eq_false_iff_not, Config.sbMax, not_le]

@[simp] theorem checkCapacity_ok {n : Nat} {s : State} : checkCapacity n s = .ok () ↔ n ≤ s.latch.cap.toNat := by
  simp [checkCapacity]

/-- Checks 6 to 8 pass exactly when both windows are as 20_memory R62 to R64 ask. -/
theorem checkWindows_ok {s : State} : checkWindows s = .ok () ↔ s.windowsOk := by
  simp only [checkWindows, bind_check_ok, checkWrap, checkOverlap, checkBus, failIf_eq_ok, State.windowsOk,
    Bool.or_eq_false_iff, Bool.and_eq_false_iff, decide_eq_false_iff_not]
  omega

theorem validateTransposition_ok {bpp : Nat} {s : State} :
    validateTransposition bpp s = .ok () ↔
      bpp ≠ 0 ∧ s.latch.len.toNat % bpp = 0 ∧ s.windowsOk ∧ s.latch.len.toNat ≤ s.latch.cap.toNat := by
  simp only [validateTransposition, bind_check_ok, checkBpp_ok, checkWhole_ok, checkWindows_ok, checkCapacity_ok]

theorem validateDelta_ok {s : State} :
    validateDelta s = .ok () ↔ s.windowsOk ∧ s.latch.len.toNat ≤ s.latch.cap.toNat := by
  simp only [validateDelta, bind_check_ok, checkWindows_ok, checkCapacity_ok]

theorem validateBlkEnc_ok {bpp : Nat} {s : State} :
    validateBlkEnc bpp s = .ok () ↔ bpp ≠ 0 ∧ s.latch.len.toNat < 2 ^ 24 ∧ s.windowsOk := by
  simp only [validateBlkEnc, bind_check_ok, checkBpp_ok, checkLimit_ok, checkWindows_ok]

theorem validateBlkDec_ok {bpp : Nat} {s : State} :
    validateBlkDec bpp s = .ok () ↔
      bpp ≠ 0 ∧ s.latch.len.toNat < 2 ^ 24 ∧ s.latch.olen.toNat < 2 ^ 24 ∧ s.windowsOk ∧
        s.latch.olen.toNat ≤ s.latch.cap.toNat := by
  simp only [validateBlkDec, bind_check_ok, checkBpp_ok, checkLimit_ok, checkWindows_ok, checkCapacity_ok]

end Sys2Proof.Machine
end

