-- ==== Sys2Proof/Laws/Memory.lean ====
section
/-! SUPPORT. The laws of system memory: what a read sees after a write, and that a write keeps the canonical form. The
read laws hold for every memory, canonical or not. -/

namespace Sys2Proof.Machine

open Sys2Proof

/-! Reading. -/

theorem dropWhile_lt_of_le (cs : List Host.Cell) {a b : Nat} (h : a ≤ b) :
    (cs.dropWhile (fun c => c.1 < a)).dropWhile (fun c => c.1 < b) = cs.dropWhile (fun c => c.1 < b) := by
  induction cs with
  | nil => rfl
  | cons c cs ih =>
    by_cases hc : c.1 < a
    · have hb : c.1 < b := by omega
      simpa [List.dropWhile_cons, hc, hb] using ih
    · simp [List.dropWhile_cons, hc]

theorem Memory.cellsFrom_cellsFrom (m : Memory) {a b : Nat} (h : a ≤ b) :
    (m.cellsFrom a).cellsFrom b = m.cellsFrom b := by
  simp [Memory.cellsFrom, dropWhile_lt_of_le _ h]

theorem Memory.read_cellsFrom (m : Memory) {a b : Nat} (h : a ≤ b) : (m.cellsFrom a).read b = m.read b := by
  simp [Memory.read, Memory.cellsFrom_cellsFrom m h]

/-- `MemRead` is the bytes at its addresses, one by one. -/
theorem Memory.readBytes_eq (m : Memory) (a n : Nat) :
    m.readBytes a n = (List.range n).map (fun k => m.read (a + k)) := by
  induction n generalizing a m with
  | zero => rfl
  | succ n ih =>
    rw [Memory.readBytes, ih, List.range_succ_eq_map]
    simp only [List.map_cons, List.map_map, Nat.add_zero, List.cons.injEq]
    refine ⟨rfl, List.map_congr_left fun k _ => ?_⟩
    rw [Memory.read_cellsFrom m (by omega)]
    simp [Function.comp, Nat.add_assoc, Nat.add_comm 1]

@[simp] theorem Memory.readBytes_length (m : Memory) (a n : Nat) : (m.readBytes a n).length = n := by
  simp [Memory.readBytes_eq]

theorem Memory.readBytes_getD (m : Memory) (a n k : Nat) (h : k < n) :
    (m.readBytes a n).getD k 0 = m.read (a + k) := by
  simp [Memory.readBytes_eq, h, List.getD]

@[simp] theorem State.source_length (s : State) : s.source.length = s.latch.len.toNat := by
  simp [State.source]

theorem State.source_getD (s : State) (k : Nat) (h : k < s.latch.len.toNat) :
    s.source.getD k 0 = s.mem.read (s.latch.src.toNat + k) :=
  s.mem.readBytes_getD _ _ _ h

/-! Writing. -/

theorem takeWhile_lt_eq_nil_or (cs : List Host.Cell) {a x : Nat} (tail : List Host.Cell) (h : a ≤ x) :
    (cs.takeWhile (fun c => c.1 < a) ++ tail).dropWhile (fun c => c.1 < x) = tail.dropWhile (fun c => c.1 < x) := by
  induction cs with
  | nil => rfl
  | cons c cs ih =>
    by_cases hc : c.1 < a
    · have hx : c.1 < x := by omega
      simpa [List.takeWhile_cons, List.dropWhile_cons, hc, hx] using ih
    · simp [hc]

theorem cellsOf_cons_zero (a : Nat) (bs : List Byte) : cellsOf a (0 :: bs) = cellsOf (a + 1) bs := if_pos rfl

theorem cellsOf_cons_ne (a : Nat) {b : Byte} (bs : List Byte) (h : b ≠ 0) :
    cellsOf a (b :: bs) = (a, b) :: cellsOf (a + 1) bs := if_neg h

theorem cellsOf_dropWhile (a x : Nat) (bs : List Byte) (tail : List Host.Cell) (h : a + bs.length ≤ x) :
    (cellsOf a bs ++ tail).dropWhile (fun c => c.1 < x) = tail.dropWhile (fun c => c.1 < x) := by
  induction bs generalizing a with
  | nil => rfl
  | cons b bs ih =>
    simp only [List.length_cons] at h
    have hx : a < x := by omega
    rcases eq_or_ne b 0 with rfl | hb
    · rw [cellsOf_cons_zero]; exact ih (a + 1) (by omega)
    · rw [cellsOf_cons_ne a bs hb]; simpa [hx] using ih (a + 1) (by omega)

/-- No cell before an address at or below which a list starts: what an unlisted address reads as. -/
theorem headAt_of_head_ge {cs : List Host.Cell} {x : Nat} (h : ∀ c ∈ cs.head?, x < c.1) :
    (Memory.read { cells := cs } x) = 0 := by
  cases cs with
  | nil => rfl
  | cons c cs =>
    have hc : x < c.1 := h c rfl
    simp [Memory.read, Memory.cellsFrom, Memory.headAt, Nat.not_lt.mpr hc.le, hc.ne']

theorem cellsFrom_head_ge (m : Memory) (a : Nat) : ∀ c ∈ (m.cellsFrom a).cells.head?, a ≤ c.1 := by
  intro c hc
  unfold Memory.cellsFrom at hc
  have := List.head?_dropWhile_not (fun c : Host.Cell => decide (c.1 < a)) m.cells
  rw [Option.mem_def] at hc
  simp [hc] at this
  exact this

theorem cellsOf_append_head_ge (a : Nat) (bs : List Byte) (tail : List Host.Cell)
    (h : ∀ c ∈ tail.head?, a + bs.length ≤ c.1) : ∀ c ∈ (cellsOf a bs ++ tail).head?, a ≤ c.1 := by
  induction bs generalizing a with
  | nil => simpa [cellsOf] using h
  | cons b bs ih =>
    rcases eq_or_ne b 0 with rfl | hb
    · intro c hc
      rw [cellsOf_cons_zero] at hc
      have := ih (a + 1) (by intro c hc; have := h c hc; simp at this; omega) c hc
      omega
    · intro c hc
      rw [cellsOf_cons_ne a bs hb] at hc
      simp at hc
      simp [← hc]

theorem read_cellsOf (a x : Nat) (bs : List Byte) (tail : List Host.Cell)
    (ht : ∀ c ∈ tail.head?, a + bs.length ≤ c.1) (hx : a ≤ x) (hlt : x < a + bs.length) :
    Memory.read { cells := cellsOf a bs ++ tail } x = bs.getD (x - a) 0 := by
  induction bs generalizing a with
  | nil => simp at hlt; omega
  | cons b bs ih =>
    have ht' : ∀ c ∈ tail.head?, a + 1 + bs.length ≤ c.1 := by
      intro c hc; have := ht c hc; simp at this; omega
    simp only [List.length_cons] at hlt
    rcases Nat.eq_or_lt_of_le hx with rfl | hax
    · rcases eq_or_ne b 0 with rfl | hb
      · simp only [cellsOf_cons_zero, Nat.sub_self, List.getD_cons_zero]
        refine headAt_of_head_ge fun c hc => ?_
        have := cellsOf_append_head_ge (a + 1) bs tail ht' c hc
        omega
      · rw [cellsOf_cons_ne a bs hb]; simp [Memory.read, Memory.cellsFrom, Memory.headAt]
    · have hget : (b :: bs).getD (x - a) 0 = bs.getD (x - (a + 1)) 0 := by
        rw [show x - a = (x - (a + 1)) + 1 by omega, List.getD_cons_succ]
      rw [hget, ← ih (a + 1) ht' (by omega) (by omega)]
      rcases eq_or_ne b 0 with rfl | hb
      · rw [cellsOf_cons_zero]
      · rw [cellsOf_cons_ne a bs hb]; simp [Memory.read, Memory.cellsFrom, hax]

/-- What a byte reads as after `MemWrite`: the written byte inside the range, and as before outside it. -/
theorem Memory.read_writeBytes (m : Memory) (a x : Nat) (bs : List Byte) :
    (m.writeBytes a bs).read x = if a ≤ x ∧ x < a + bs.length then bs.getD (x - a) 0 else m.read x := by
  have ht := cellsFrom_head_ge m (a + bs.length)
  by_cases hlo : a ≤ x
  · have hread : (m.writeBytes a bs).read x =
        Memory.read { cells := cellsOf a bs ++ (m.cellsFrom (a + bs.length)).cells } x := by
      simp only [Memory.writeBytes, Memory.read, Memory.cellsFrom, List.append_assoc, takeWhile_lt_eq_nil_or _ _ hlo]
    rw [hread]
    by_cases hhi : x < a + bs.length
    · rw [if_pos ⟨hlo, hhi⟩, read_cellsOf a x bs _ ht hlo hhi]
    · rw [if_neg (by omega)]
      simp only [Memory.read, Memory.cellsFrom, cellsOf_dropWhile a x bs _ (by omega),
        dropWhile_lt_of_le m.cells (show a + bs.length ≤ x by omega)]
  · rw [if_neg (by omega)]
    have hge := cellsOf_append_head_ge a bs _ ht
    have key : ∀ cs : List Host.Cell, ∀ tail : List Host.Cell, (∀ c ∈ tail.head?, a ≤ c.1) →
        Memory.read { cells := cs.takeWhile (fun c => c.1 < a) ++ tail } x = Memory.read { cells := cs } x := by
      intro cs tail htail
      induction cs with
      | nil =>
        change _ = (0 : Byte)
        refine headAt_of_head_ge fun c hc => ?_
        have := htail c (by simpa using hc); omega
      | cons c cs ih =>
        by_cases hc : c.1 < a
        · by_cases hx : c.1 < x
          · simpa [Memory.read, Memory.cellsFrom, List.takeWhile_cons, List.dropWhile_cons, hc, hx] using ih
          · simp [Memory.read, Memory.cellsFrom, Memory.headAt, hc, hx]
        · rw [headAt_of_head_ge (cs := c :: cs) (fun d hd => by simp at hd; subst hd; omega)]
          refine headAt_of_head_ge fun d hd => ?_
          have := htail d (by simpa [List.takeWhile_cons, hc] using hd); omega
    rw [Memory.writeBytes, List.append_assoc]
    exact key m.cells _ hge

theorem Memory.read_writeBytes_outside (m : Memory) (a x : Nat) (bs : List Byte) (h : x < a ∨ a + bs.length ≤ x) :
    (m.writeBytes a bs).read x = m.read x := by
  rw [Memory.read_writeBytes, if_neg (by omega)]

theorem Memory.read_writeBytes_inside (m : Memory) (a k : Nat) (bs : List Byte) (h : k < bs.length) :
    (m.writeBytes a bs).read (a + k) = bs.getD k 0 := by
  rw [Memory.read_writeBytes, if_pos (by omega)]; simp

/-- Reading back what was written. -/
theorem Memory.readBytes_writeBytes (m : Memory) (a : Nat) (bs : List Byte) :
    (m.writeBytes a bs).readBytes a bs.length = bs := by
  refine List.ext_getElem (by simp) fun k h1 h2 => ?_
  have := m.read_writeBytes_inside a k bs h2
  simp [Memory.readBytes_eq, this, List.getD, h2]

@[simp] theorem Memory.writeBytes_nil (m : Memory) (a : Nat) : m.writeBytes a [] = m := by
  cases m; simp [Memory.writeBytes, cellsOf, Memory.cellsFrom, List.takeWhile_append_dropWhile]

/-! The canonical form. -/

theorem canonicalFrom_mono {cs : List Host.Cell} {lo hi : Nat} (h : lo ≤ hi) (hc : canonicalFrom hi cs = true) :
    canonicalFrom lo cs = true := by
  cases cs with
  | nil => rfl
  | cons c cs =>
    simp only [canonicalFrom, Bool.and_eq_true, decide_eq_true_eq] at hc ⊢
    exact ⟨⟨by omega, hc.1.2⟩, hc.2⟩

theorem canonicalFrom_dropWhile {cs : List Host.Cell} {lo : Nat} (a : Nat) (h : canonicalFrom lo cs = true) :
    canonicalFrom a (cs.dropWhile (fun c => c.1 < a)) = true := by
  induction cs generalizing lo with
  | nil => rfl
  | cons c cs ih =>
    simp only [canonicalFrom, Bool.and_eq_true, decide_eq_true_eq] at h
    by_cases hc : c.1 < a
    · simpa [List.dropWhile_cons, hc] using ih h.2
    · simp only [List.dropWhile_cons, hc, decide_false, Bool.false_eq_true, if_false, canonicalFrom, Bool.and_eq_true,
        decide_eq_true_eq]
      exact ⟨⟨by omega, h.1.2⟩, h.2⟩

theorem canonicalFrom_cellsOf {tail : List Host.Cell} (a : Nat) (bs : List Byte)
    (h : canonicalFrom (a + bs.length) tail = true) : canonicalFrom a (cellsOf a bs ++ tail) = true := by
  induction bs generalizing a with
  | nil => simpa [cellsOf] using h
  | cons b bs ih =>
    have h' := ih (a + 1) (by simpa [Nat.add_assoc, Nat.add_comm 1] using h)
    rcases eq_or_ne b 0 with rfl | hb
    · rw [cellsOf_cons_zero]; exact canonicalFrom_mono (Nat.le_succ a) h'
    · rw [cellsOf_cons_ne a bs hb]
      exact Bool.and_eq_true_iff.mpr ⟨by simpa using hb, h'⟩

theorem canonicalFrom_takeWhile {cs tail : List Host.Cell} {lo a : Nat} (h : canonicalFrom lo cs = true) (hlo : lo ≤ a)
    (ht : canonicalFrom a tail = true) :
    canonicalFrom lo (cs.takeWhile (fun c => c.1 < a) ++ tail) = true := by
  induction cs generalizing lo with
  | nil => exact canonicalFrom_mono hlo ht
  | cons c cs ih =>
    simp only [canonicalFrom, Bool.and_eq_true, decide_eq_true_eq] at h
    by_cases hc : c.1 < a
    · have := ih h.2 (by omega)
      simpa [List.takeWhile_cons, hc, canonicalFrom, h.1.1, this] using h.1.2
    · simpa [List.takeWhile_cons, hc] using canonicalFrom_mono hlo ht

/-- `MemWrite` keeps the canonical form. -/
theorem Memory.wf_writeBytes {m : Memory} (a : Nat) (bs : List Byte) (h : m.wf = true) :
    (m.writeBytes a bs).wf = true := by
  unfold Memory.wf Memory.writeBytes at *
  rw [List.append_assoc]
  exact canonicalFrom_takeWhile h (Nat.zero_le a) (canonicalFrom_cellsOf a bs (canonicalFrom_dropWhile _ h))

theorem cellsOf_lt (a : Nat) (bs : List Byte) : ∀ c ∈ cellsOf a bs, c.1 < a + bs.length := by
  induction bs generalizing a with
  | nil => simp [cellsOf]
  | cons b bs ih =>
    have h := ih (a + 1)
    intro c hc
    rcases eq_or_ne b 0 with rfl | hb
    · have := h c (by rwa [cellsOf_cons_zero] at hc); simp; omega
    · rw [cellsOf_cons_ne a bs hb, List.mem_cons] at hc
      rcases hc with rfl | hc
      · simp
      · have := h c hc; simp; omega

/-- `MemWrite` below `hi` lists nothing at or above `hi`. -/
theorem Memory.below_writeBytes {m : Memory} {hi : Nat} (a : Nat) (bs : List Byte) (h : m.below hi = true)
    (hb : bs = [] ∨ a + bs.length ≤ hi) : (m.writeBytes a bs).below hi = true := by
  rcases hb with rfl | hb
  · simpa using h
  · simp only [Memory.below, List.all_eq_true, decide_eq_true_eq] at *
    intro c hc
    simp only [Memory.writeBytes, List.mem_append, Memory.cellsFrom] at hc
    rcases hc with (hc | hc) | hc
    · exact h c (List.takeWhile_subset _ hc)
    · have := cellsOf_lt a bs c hc; omega
    · exact h c (List.dropWhile_subset _ hc)

/-! Equal memories are equal data. -/

theorem canonicalFrom_mem {cs : List Host.Cell} {lo : Nat} (h : canonicalFrom lo cs = true) :
    ∀ c ∈ cs, lo ≤ c.1 := by
  induction cs generalizing lo with
  | nil => simp
  | cons c cs ih =>
    simp only [canonicalFrom, Bool.and_eq_true, decide_eq_true_eq] at h
    intro d hd
    rcases List.mem_cons.mp hd with rfl | hd
    · exact h.1.1
    · have := ih h.2 d hd; omega

theorem read_cons (c : Host.Cell) (cs : List Host.Cell) (x : Nat) (h : canonicalFrom (c.1 + 1) cs = true) :
    Memory.read { cells := c :: cs } x = if x = c.1 then c.2 else Memory.read { cells := cs } x := by
  rcases Nat.lt_trichotomy x c.1 with hx | rfl | hx
  · rw [if_neg (by omega), headAt_of_head_ge (fun d hd => by simp at hd; subst hd; exact hx)]
    refine (headAt_of_head_ge fun d hd => ?_).symm
    have := canonicalFrom_mem h d (List.mem_of_mem_head? hd); omega
  · simp [Memory.read, Memory.cellsFrom, Memory.headAt]
  · rw [if_neg (by omega)]
    simp [Memory.read, Memory.cellsFrom, hx]

theorem canonical_ext : ∀ (xs ys : List Host.Cell) (lo : Nat), canonicalFrom lo xs = true → canonicalFrom lo ys = true →
    (∀ a, Memory.read { cells := xs } a = Memory.read { cells := ys } a) → xs = ys := by
  intro xs
  induction xs with
  | nil =>
    intro ys lo _ hy h
    cases ys with
    | nil => rfl
    | cons d ys =>
      simp only [canonicalFrom, Bool.and_eq_true, decide_eq_true_eq] at hy
      have := h d.1
      rw [read_cons d ys _ hy.2, if_pos rfl] at this
      exact absurd this.symm (by simpa [Memory.read, Memory.cellsFrom, Memory.headAt] using hy.1.2)
  | cons c xs ih =>
    intro ys lo hx hy h
    simp only [canonicalFrom, Bool.and_eq_true, decide_eq_true_eq] at hx
    have hc0 : c.2 ≠ 0 := by simpa using hx.1.2
    cases ys with
    | nil =>
      have := h c.1
      rw [read_cons c xs _ hx.2, if_pos rfl] at this
      exact absurd this hc0
    | cons d ys =>
      simp only [canonicalFrom, Bool.and_eq_true, decide_eq_true_eq] at hy
      have hd0 : d.2 ≠ 0 := by simpa using hy.1.2
      have hunl : ∀ (cs : List Host.Cell) (lo x : Nat), canonicalFrom lo cs = true → x < lo →
          Memory.read { cells := cs } x = 0 := fun cs lo x hcs hlt =>
        headAt_of_head_ge fun e he => by
          have := canonicalFrom_mem hcs e (List.mem_of_mem_head? he); omega
      have h1 := h c.1
      rw [read_cons c xs _ hx.2, if_pos rfl, read_cons d ys _ hy.2] at h1
      have h2 := h d.1
      rw [read_cons d ys _ hy.2, if_pos rfl, read_cons c xs _ hx.2] at h2
      have hcd : c.1 = d.1 := by
        rcases Nat.lt_trichotomy c.1 d.1 with hlt | heq | hlt
        · rw [if_neg (by omega), hunl ys _ _ hy.2 (by omega)] at h1; exact absurd h1 hc0
        · exact heq
        · rw [if_neg (by omega), hunl xs _ _ hx.2 (by omega)] at h2; exact absurd h2.symm hd0
      rw [if_pos hcd] at h1
      obtain ⟨a, b⟩ := c
      obtain ⟨a', b'⟩ := d
      simp only at hcd h1 hx hy h
      subst hcd h1
      congr 1
      refine ih ys (a + 1) hx.2 hy.2 fun x => ?_
      have hxx := h x
      rw [read_cons (a, b) xs _ hx.2, read_cons (a, b) ys _ hy.2] at hxx
      by_cases hxa : x = a
      · subst hxa
        rw [hunl xs _ _ hx.2 (by omega), hunl ys _ _ hy.2 (by omega)]
      · simpa [hxa] using hxx

/-- Two canonical memories that read alike everywhere are equal. -/
theorem Memory.ext_of_read {m m' : Memory} (h : m.wf = true) (h' : m'.wf = true)
    (heq : ∀ a, m.read a = m'.read a) : m = m' := by
  cases m; cases m'
  congr 1
  exact canonical_ext _ _ 0 h h' heq

end Sys2Proof.Machine
end

