-- ==== Sys2Proof/Laws/Codec.lean ====
section
/-! SUPPORT. The small lemmas of the byte kernels and of the stream's fields: lengths, inverses, what a reader answers. -/

namespace Sys2Proof.Machine

open Sys2Proof

/-! Little-endian bytes. -/

@[simp] theorem leBytes_length (n v : Nat) : (leBytes n v).length = n := by
  induction n generalizing v with
  | zero => rfl
  | succ n ih => simp [leBytes, ih]

theorem leNat_leBytes (n v : Nat) : leNat (leBytes n v) = v % 256 ^ n := by
  induction n generalizing v with
  | zero => simp [leBytes, leNat, Nat.mod_one]
  | succ n ih =>
    simp only [leBytes, leNat, ih, BitVec.toNat_ofNat]
    rw [show 256 ^ (n + 1) = 256 * 256 ^ n from Nat.pow_succ', Nat.mod_mul]

theorem leNat_lt (bs : List Byte) : leNat bs < 256 ^ bs.length := by
  induction bs with
  | nil => simp [leNat]
  | cons b bs ih =>
    have := b.isLt
    simp only [leNat, List.length_cons, Nat.pow_succ]
    omega

/-! Pieces and columns. -/

@[simp] theorem pieces_length (k n : Nat) (x : List Byte) : (pieces k n x).length = n := by
  induction n generalizing x with
  | zero => rfl
  | succ n ih => simp [pieces, ih]

theorem pieces_flatten (k n : Nat) (x : List Byte) (h : x.length = n * k) : (pieces k n x).flatten = x := by
  induction n generalizing x with
  | zero => exact (List.eq_nil_of_length_eq_zero (by simpa using h)).symm
  | succ n ih =>
    have hd : (x.drop k).length = n * k := by simp [h, Nat.succ_mul]
    rw [pieces, List.flatten_cons, ih _ hd, List.take_append_drop]

theorem pieces_getElem (k n i : Nat) (x : List Byte) (h : i < n) :
    (pieces k n x)[i]'(by simpa using h) = (x.drop (i * k)).take k := by
  induction n generalizing i x with
  | zero => omega
  | succ n ih =>
    cases i with
    | zero => simp [pieces]
    | succ i =>
      simp only [pieces, List.getElem_cons_succ]
      rw [ih i (x.drop k) (by omega), List.drop_drop, Nat.succ_mul, Nat.add_comm]

theorem pieces_mem_length (k n : Nat) (x : List Byte) (h : x.length = n * k) :
    ∀ e ∈ pieces k n x, e.length = k := by
  intro e he
  obtain ⟨i, hi, rfl⟩ := List.getElem_of_mem he
  rw [pieces_getElem k n i x (by simpa using hi)]
  simp only [pieces_length] at hi
  have : (i + 1) * k ≤ n * k := Nat.mul_le_mul_right k hi
  simp only [List.length_take, List.length_drop, Nat.succ_mul] at *
  omega

@[simp] theorem column_length (p : Nat) (xs : List (List Byte)) : (column p xs).length = xs.length := by
  simp [column]

@[simp] theorem columns_length (k : Nat) (xs : List (List Byte)) : (columns k xs).length = k := by
  simp [columns]

theorem flatten_length_const {xs : List (List Byte)} {k : Nat} (h : ∀ e ∈ xs, e.length = k) :
    xs.flatten.length = xs.length * k := by
  induction xs with
  | nil => simp
  | cons e xs ih =>
    have he := h e (by simp)
    have := ih fun e he => h e (List.mem_cons_of_mem _ he)
    simp only [List.flatten_cons, List.length_append, List.length_cons, Nat.succ_mul, this, he]
    omega

theorem columns_mem_length (k : Nat) (xs : List (List Byte)) : ∀ e ∈ columns k xs, e.length = xs.length := by
  intro e he
  simp only [columns, List.mem_map] at he
  obtain ⟨p, -, rfl⟩ := he
  simp

theorem columns_flatten_length (k : Nat) (xs : List (List Byte)) :
    (columns k xs).flatten.length = k * xs.length := by
  rw [flatten_length_const (columns_mem_length k xs), columns_length]

theorem flatten_getD_const {xs : List (List Byte)} {k : Nat} (h : ∀ e ∈ xs, e.length = k) {i j : Nat}
    (hi : i < xs.length) (hj : j < k) : xs.flatten.getD (i * k + j) 0 = (xs.getD i []).getD j 0 := by
  induction xs generalizing i with
  | nil => simp at hi
  | cons e xs ih =>
    have he := h e (by simp)
    cases i with
    | zero => simp [List.getD, List.getElem?_append_left (show j < e.length by omega)]
    | succ i =>
      have := ih (fun e he => h e (List.mem_cons_of_mem _ he)) (by simpa using hi)
      rw [← List.getD_cons_succ (x := e)] at this
      simp only [List.flatten_cons, List.getD, List.getElem?_cons_succ] at this ⊢
      rw [List.getElem?_append_right (by rw [he, Nat.succ_mul]; omega), he, Nat.succ_mul,
        show i * k + k + j - k = i * k + j by omega]
      exact this

/-- Byte `j` of column `p`, in the flattened columns, is byte `p` of piece `j`. -/
theorem columns_flatten_getD (k : Nat) (xs : List (List Byte)) {p j : Nat} (hp : p < k) (hj : j < xs.length) :
    (columns k xs).flatten.getD (p * xs.length + j) 0 = (xs.getD j []).getD p 0 := by
  rw [flatten_getD_const (columns_mem_length k xs) (by simpa using hp) hj]
  simp [columns, column, List.getD, hp, hj]

@[simp] theorem shuffle_length (b : Nat) (x : List Byte) (h : x.length % b = 0) :
    (shuffle b x).length = x.length := by
  rw [shuffle, columns_flatten_length, pieces_length, Nat.mul_div_cancel' (Nat.dvd_of_mod_eq_zero h)]

@[simp] theorem unshuffle_length (b : Nat) (x : List Byte) (h : x.length % b = 0) :
    (unshuffle b x).length = x.length := by
  rw [unshuffle, columns_flatten_length, pieces_length, Nat.div_mul_cancel (Nat.dvd_of_mod_eq_zero h)]

/-! Differences and running sums. -/

@[simp] theorem diffs_length (p : Byte) (xs : List Byte) : (diffs p xs).length = xs.length := by
  induction xs generalizing p with
  | nil => rfl
  | cons x xs ih => simp [diffs, ih]

@[simp] theorem sums_length (p : Byte) (xs : List Byte) : (sums p xs).length = xs.length := by
  induction xs generalizing p with
  | nil => rfl
  | cons x xs ih => simp [sums, ih]

/-- Running sums undo differences (43_block_format R207). -/
@[simp] theorem sums_diffs (p : Byte) (xs : List Byte) : sums p (diffs p xs) = xs := by
  induction xs generalizing p with
  | nil => rfl
  | cons x xs ih =>
    have : p + (x - p) = x := by bv_omega
    simp [diffs, sums, this, ih]

/-- Differences undo running sums. -/
@[simp] theorem diffs_sums (p : Byte) (ds : List Byte) : diffs p (sums p ds) = ds := by
  induction ds generalizing p with
  | nil => rfl
  | cons d ds ih =>
    have : p + d - p = d := by bv_omega
    simp [diffs, sums, this, ih]

/-- A stream kernel that keeps lengths gives an output as long as its input. -/
theorem onStreams_length (f : List Byte → List Byte) (hf : ∀ y, (f y).length = y.length) (x : List Byte) :
    (onStreams f x).length = x.length := by
  unfold onStreams
  split
  · exact hf x
  · set q := x.length / 4
    have h4 : 4 * q ≤ x.length := Nat.mul_div_le x.length 4
    have hq : ∀ e ∈ (pieces q 4 x).map f, e.length = q := by
      intro e he
      obtain ⟨y, hy, rfl⟩ := List.mem_map.mp he
      obtain ⟨i, hi, rfl⟩ := List.getElem_of_mem hy
      simp only [pieces_length] at hi
      rw [hf, pieces_getElem q 4 i x hi]
      have : (i + 1) * q ≤ 4 * q := Nat.mul_le_mul_right q hi
      simp only [List.length_take, List.length_drop, Nat.succ_mul] at *
      omega
    rw [List.length_append, flatten_length_const hq, List.length_map, pieces_length, List.length_drop]
    omega

@[simp] theorem delta_length (x : List Byte) : (delta x).length = x.length := onStreams_length _ (diffs_length 0) x

@[simp] theorem deltaInv_length (x : List Byte) : (deltaInv x).length = x.length := onStreams_length _ (sums_length 0) x

/-! Fields of the stream. -/

theorem width_le_five_or (g : Nat) : width g ≤ 5 ∨ width g = 8 := by
  unfold width; split_ifs <;> omega

@[simp] theorem pack_length (b : Nat) (u : List Byte) : (pack b u).length = 2 * b := by simp [pack]

@[simp] theorem unpackNat_length (b n v : Nat) : (unpackNat b n v).length = n := by
  induction n generalizing v with
  | zero => rfl
  | succ n ih => simp [unpackNat, ih]

@[simp] theorem unpack_length (b : Nat) (t : List Byte) : (unpack b t).length = 16 := by
  simp [unpack, Config.rowBytes]

@[simp] theorem sameMask_length (p : Byte) (xs : List Byte) : (sameMask p xs).length = xs.length := by
  induction xs generalizing p with
  | nil => rfl
  | cons x xs ih => simp [sameMask, ih]

theorem changes_length_le (p : Byte) (xs : List Byte) : (changes p xs).length ≤ xs.length := by
  induction xs generalizing p with
  | nil => simp [changes]
  | cons x xs ih =>
    have := ih x
    simp only [changes]
    split <;> simp <;> omega

@[simp] theorem bitsOfNat_length (n v : Nat) : (bitsOfNat n v).length = n := by
  induction n generalizing v with
  | zero => rfl
  | succ n ih => simp [bitsOfNat, ih]

theorem natOfBits_lt (bs : List Bool) : natOfBits bs < 2 ^ bs.length := by
  induction bs with
  | nil => simp [natOfBits]
  | cons b bs ih =>
    have := b.toNat_le
    simp only [natOfBits, List.length_cons, Nat.pow_succ]
    omega

/-- The bits of a mask are read back from its integer. -/
theorem bitsOfNat_natOfBits (bs : List Bool) : bitsOfNat bs.length (natOfBits bs) = bs := by
  induction bs with
  | nil => rfl
  | cons b bs ih =>
    have h1 : (b.toNat + 2 * natOfBits bs) % 2 = b.toNat := by cases b <;> simp
    have h2 : (b.toNat + 2 * natOfBits bs) / 2 = natOfBits bs := by have := b.toNat_le; omega
    simp only [natOfBits, List.length_cons, bitsOfNat, h1, h2, ih]
    cases b <;> simp

theorem packNibbles_length (cs : List Nat) : (packNibbles cs).length = (cs.length + 1) / 2 := by
  induction cs using packNibbles.induct with
  | case1 => rfl
  | case2 a => simp [packNibbles]
  | case3 a b cs ih => simp only [packNibbles, List.length_cons, ih]; omega

theorem nibbles_length (bs : List Byte) : (nibbles bs).length = 2 * bs.length := by
  induction bs with
  | nil => rfl
  | cons b bs ih => simp only [nibbles, List.length_cons, ih]; omega

/-- The code of a row header is read back as that header. -/
theorem rowHeaderOf_code (h : RowHeader) (hb : ∀ b, h = .literal b ∨ h = .delta b → b ≤ 5) :
    rowHeaderOf h.code = some h := by
  cases h with
  | literal b => simp [rowHeaderOf, RowHeader.code, hb b (.inl rfl)]
  | delta b =>
    have := hb b (.inr rfl)
    simp [rowHeaderOf, RowHeader.code, show ¬ 8 + b ≤ 5 by omega, show ¬ 8 + b = 6 by omega,
      show ¬ 8 + b = 7 by omega, show 8 + b ≤ 13 by omega]
  | deltaRunLength | runLength | raw => rfl

@[simp] theorem kindOf_code (k : Kind) : kindOf k.code = some k := by cases k <;> rfl

/-! Readers. -/

/-- `Take(k)` takes k bytes where there are k. -/
theorem takeBytes_of_le {k : Nat} {t : List Byte} (h : k ≤ t.length) : takeBytes k t = .ok (t.take k, t.drop k) := by
  have : ¬ (t.take k).length < k := by simp only [List.length_take]; omega
  rw [takeBytes, if_neg this]

/-- `Take(k)` past the end of the source window is SrcOverflow (00_scope R13). -/
theorem takeBytes_of_lt {k : Nat} {t : List Byte} (h : t.length < k) : takeBytes k t = .error .srcOverflow := by
  have : (t.take k).length < k := by simp only [List.length_take]; omega
  rw [takeBytes, if_pos this]

theorem takeBytes_append (bs t : List Byte) : takeBytes bs.length (bs ++ t) = .ok (bs, t) := by
  rw [takeBytes_of_le (by simp)]; simp

/-- What a reader of `Take` answers: it splits the stream, or it is SrcOverflow. -/
theorem takeBytes_inversion (k : Nat) (t : List Byte) :
    (∃ bs rest, takeBytes k t = .ok (bs, rest) ∧ t = bs ++ rest ∧ bs.length = k) ∨
    (t.length < k ∧ takeBytes k t = .error .srcOverflow) := by
  rcases Nat.lt_or_ge t.length k with h | h
  · exact .inr ⟨h, takeBytes_of_lt h⟩
  · exact .inl ⟨_, _, takeBytes_of_le h, (List.take_append_drop k t).symm, by simp [h]⟩

@[simp] theorem takeU8_cons (b : Byte) (t : List Byte) : takeU8 (b :: t) = .ok (b, t) := rfl

theorem takeU16_leBytes (v : Nat) (t : List Byte) (h : v < 65536) : takeU16 (leBytes 2 v ++ t) = .ok (v, t) := by
  have hv := leNat_leBytes 2 v
  rw [Nat.mod_eq_of_lt (by omega)] at hv
  have := takeBytes_append (leBytes 2 v) t
  rw [leBytes_length] at this
  simp [takeU16, this, bind, Except.bind, hv]

/-- A run-length form is read back as the bytes it codes (43_block_format R212). -/
theorem expandRuns_changes (p : Byte) (xs t : List Byte) :
    expandRuns p (sameMask p xs) (changes p xs ++ t) = .ok (xs, t) := by
  induction xs generalizing p with
  | nil => rfl
  | cons x xs ih =>
    by_cases h : x = p
    · subst h; simp [sameMask, changes, expandRuns, ih, bind, Except.bind]
    · have hf : (x == p) = false := by simpa using h
      simp [sameMask, changes, hf, h, expandRuns, ih, bind, Except.bind]

theorem expandRuns_length {p : Byte} {bits : List Bool} {t xs rest : List Byte}
    (h : expandRuns p bits t = .ok (xs, rest)) : xs.length = bits.length := by
  induction bits generalizing p t xs rest with
  | nil => simp [expandRuns] at h; simp [← h.1]
  | cons b bits ih =>
    cases b with
    | true =>
      cases hx : expandRuns p bits t with
      | error e => simp [expandRuns, hx, bind, Except.bind] at h
      | ok v => simp [expandRuns, hx, bind, Except.bind] at h; simp [← h.1, ih hx]
    | false =>
      cases t with
      | nil => simp [expandRuns, takeU8, bind, Except.bind] at h
      | cons c t =>
        cases hx : expandRuns c bits t with
        | error e => simp [expandRuns, hx, bind, Except.bind] at h
        | ok v => simp [expandRuns, hx, bind, Except.bind] at h; simp [← h.1, ih hx]

end Sys2Proof.Machine
end

