-- ==== Sys2Proof/Laws/State.lean ====
section
/-! SUPPORT. The small lemmas of every state update: one for each field, and STATUS field by field. A later proof cites
these and unfolds no record update. -/

namespace Sys2Proof.Machine

open Sys2Proof

/-! `startCommand` -/

@[simp] theorem State.startCommand_platform (s : State) (w : Word) : (s.startCommand w).platform = s.platform := rfl
@[simp] theorem State.startCommand_ie (s : State) (w : Word) : (s.startCommand w).ie = s.ie := rfl
@[simp] theorem State.startCommand_status (s : State) (w : Word) :
    (s.startCommand w).status = s.status.started := rfl
@[simp] theorem State.startCommand_cmd (s : State) (w : Word) : (s.startCommand w).cmd = w := rfl
@[simp] theorem State.startCommand_args (s : State) (w : Word) : (s.startCommand w).args = s.args := rfl
@[simp] theorem State.startCommand_result (s : State) (w : Word) : (s.startCommand w).result = 0 := rfl
@[simp] theorem State.startCommand_latchCmd (s : State) (w : Word) : (s.startCommand w).latchCmd = w := rfl
@[simp] theorem State.startCommand_latch (s : State) (w : Word) : (s.startCommand w).latch = s.args := rfl
@[simp] theorem State.startCommand_work (s : State) (w : Word) : (s.startCommand w).work = s.work := rfl
@[simp] theorem State.startCommand_mem (s : State) (w : Word) : (s.startCommand w).mem = s.mem := rfl
@[simp] theorem State.startCommand_script (s : State) (w : Word) : (s.startCommand w).script = s.script := rfl
@[simp] theorem State.startCommand_hostData (s : State) (w : Word) : (s.startCommand w).hostData = s.hostData := rfl
@[simp] theorem State.startCommand_raced (s : State) (w : Word) : (s.startCommand w).raced = [] := rfl
@[simp] theorem State.startCommand_hostStores (s : State) (w : Word) : (s.startCommand w).hostStores = [] := rfl
@[simp] theorem State.startCommand_draws (s : State) (w : Word) : (s.startCommand w).draws = s.draws := rfl
@[simp] theorem State.startCommand_unseen (s : State) (w : Word) : (s.startCommand w).unseen = s.unseen := rfl
@[simp] theorem State.startCommand_loads (s : State) (w : Word) : (s.startCommand w).loads = s.loads := rfl

/-! `dropCommand` -/

@[simp] theorem State.dropCommand_platform (s : State) : s.dropCommand.platform = s.platform := rfl
@[simp] theorem State.dropCommand_ie (s : State) : s.dropCommand.ie = s.ie := rfl
@[simp] theorem State.dropCommand_status (s : State) : s.dropCommand.status = s.status.dropped := rfl
@[simp] theorem State.dropCommand_cmd (s : State) : s.dropCommand.cmd = s.cmd := rfl
@[simp] theorem State.dropCommand_args (s : State) : s.dropCommand.args = s.args := rfl
@[simp] theorem State.dropCommand_result (s : State) : s.dropCommand.result = s.result := rfl
@[simp] theorem State.dropCommand_latchCmd (s : State) : s.dropCommand.latchCmd = s.latchCmd := rfl
@[simp] theorem State.dropCommand_latch (s : State) : s.dropCommand.latch = s.latch := rfl
@[simp] theorem State.dropCommand_work (s : State) : s.dropCommand.work = s.work := rfl
@[simp] theorem State.dropCommand_mem (s : State) : s.dropCommand.mem = s.mem := rfl
@[simp] theorem State.dropCommand_script (s : State) : s.dropCommand.script = s.script := rfl
@[simp] theorem State.dropCommand_hostData (s : State) : s.dropCommand.hostData = s.hostData := rfl
@[simp] theorem State.dropCommand_raced (s : State) : s.dropCommand.raced = s.raced := rfl
@[simp] theorem State.dropCommand_hostStores (s : State) : s.dropCommand.hostStores = s.hostStores := rfl
@[simp] theorem State.dropCommand_draws (s : State) : s.dropCommand.draws = s.draws := rfl
@[simp] theorem State.dropCommand_unseen (s : State) : s.dropCommand.unseen = s.unseen := rfl
@[simp] theorem State.dropCommand_loads (s : State) : s.dropCommand.loads = s.loads := rfl

/-! `writeStatus` -/

@[simp] theorem State.writeStatus_platform (s : State) (w : Word) : (s.writeStatus w).platform = s.platform := rfl
@[simp] theorem State.writeStatus_ie (s : State) (w : Word) : (s.writeStatus w).ie = s.ie := rfl
@[simp] theorem State.writeStatus_status (s : State) (w : Word) :
    (s.writeStatus w).status = s.status.written w := rfl
@[simp] theorem State.writeStatus_cmd (s : State) (w : Word) : (s.writeStatus w).cmd = s.cmd := rfl
@[simp] theorem State.writeStatus_args (s : State) (w : Word) : (s.writeStatus w).args = s.args := rfl
@[simp] theorem State.writeStatus_result (s : State) (w : Word) : (s.writeStatus w).result = s.result := rfl
@[simp] theorem State.writeStatus_latchCmd (s : State) (w : Word) : (s.writeStatus w).latchCmd = s.latchCmd := rfl
@[simp] theorem State.writeStatus_latch (s : State) (w : Word) : (s.writeStatus w).latch = s.latch := rfl
@[simp] theorem State.writeStatus_work (s : State) (w : Word) : (s.writeStatus w).work = s.work := rfl
@[simp] theorem State.writeStatus_mem (s : State) (w : Word) : (s.writeStatus w).mem = s.mem := rfl
@[simp] theorem State.writeStatus_script (s : State) (w : Word) : (s.writeStatus w).script = s.script := rfl
@[simp] theorem State.writeStatus_hostData (s : State) (w : Word) : (s.writeStatus w).hostData = s.hostData := rfl
@[simp] theorem State.writeStatus_raced (s : State) (w : Word) : (s.writeStatus w).raced = s.raced := rfl
@[simp] theorem State.writeStatus_hostStores (s : State) (w : Word) :
    (s.writeStatus w).hostStores = s.hostStores := rfl
@[simp] theorem State.writeStatus_draws (s : State) (w : Word) : (s.writeStatus w).draws = s.draws := rfl
@[simp] theorem State.writeStatus_unseen (s : State) (w : Word) : (s.writeStatus w).unseen = s.unseen := rfl
@[simp] theorem State.writeStatus_loads (s : State) (w : Word) : (s.writeStatus w).loads = s.loads := rfl

/-! `completeError` -/

@[simp] theorem State.completeError_platform (s : State) (e : Err) : (s.completeError e).platform = s.platform := rfl
@[simp] theorem State.completeError_ie (s : State) (e : Err) : (s.completeError e).ie = s.ie := rfl
@[simp] theorem State.completeError_status (s : State) (e : Err) :
    (s.completeError e).status = s.status.completed e.code := rfl
@[simp] theorem State.completeError_cmd (s : State) (e : Err) : (s.completeError e).cmd = s.cmd := rfl
@[simp] theorem State.completeError_args (s : State) (e : Err) : (s.completeError e).args = s.args := rfl
@[simp] theorem State.completeError_result (s : State) (e : Err) : (s.completeError e).result = 0 := rfl
@[simp] theorem State.completeError_latchCmd (s : State) (e : Err) : (s.completeError e).latchCmd = s.latchCmd := rfl
@[simp] theorem State.completeError_latch (s : State) (e : Err) : (s.completeError e).latch = s.latch := rfl
@[simp] theorem State.completeError_work (s : State) (e : Err) : (s.completeError e).work = s.work := rfl
@[simp] theorem State.completeError_mem (s : State) (e : Err) : (s.completeError e).mem = s.mem := rfl
@[simp] theorem State.completeError_script (s : State) (e : Err) : (s.completeError e).script = s.script := rfl
@[simp] theorem State.completeError_hostData (s : State) (e : Err) : (s.completeError e).hostData = s.hostData := rfl
@[simp] theorem State.completeError_raced (s : State) (e : Err) : (s.completeError e).raced = [] := rfl
@[simp] theorem State.completeError_hostStores (s : State) (e : Err) : (s.completeError e).hostStores = [] := rfl
@[simp] theorem State.completeError_draws (s : State) (e : Err) : (s.completeError e).draws = s.draws + 1 := rfl
@[simp] theorem State.completeError_unseen (s : State) (e : Err) : (s.completeError e).unseen = s.unseen := rfl
@[simp] theorem State.completeError_loads (s : State) (e : Err) : (s.completeError e).loads = s.loads := rfl

/-! `completeOk` -/

@[simp] theorem State.completeOk_platform (s : State) (out : List Byte) :
    (s.completeOk out).platform = s.platform := rfl
@[simp] theorem State.completeOk_ie (s : State) (out : List Byte) : (s.completeOk out).ie = s.ie := rfl
@[simp] theorem State.completeOk_status (s : State) (out : List Byte) :
    (s.completeOk out).status = s.status.completed 0 := rfl
@[simp] theorem State.completeOk_cmd (s : State) (out : List Byte) : (s.completeOk out).cmd = s.cmd := rfl
@[simp] theorem State.completeOk_args (s : State) (out : List Byte) : (s.completeOk out).args = s.args := rfl
@[simp] theorem State.completeOk_result (s : State) (out : List Byte) :
    (s.completeOk out).result = BitVec.ofNat 64 out.length := rfl
@[simp] theorem State.completeOk_latchCmd (s : State) (out : List Byte) :
    (s.completeOk out).latchCmd = s.latchCmd := rfl
@[simp] theorem State.completeOk_latch (s : State) (out : List Byte) : (s.completeOk out).latch = s.latch := rfl
@[simp] theorem State.completeOk_work (s : State) (out : List Byte) :
    (s.completeOk out).work = { s.work with staging := out } := rfl
@[simp] theorem State.completeOk_mem (s : State) (out : List Byte) :
    (s.completeOk out).mem = s.mem.writeBytes s.latch.dst.toNat (s.delivered out) := rfl
@[simp] theorem State.completeOk_script (s : State) (out : List Byte) : (s.completeOk out).script = s.script := rfl
@[simp] theorem State.completeOk_hostData (s : State) (out : List Byte) :
    (s.completeOk out).hostData = s.hostData := rfl
@[simp] theorem State.completeOk_raced (s : State) (out : List Byte) : (s.completeOk out).raced = [] := rfl
@[simp] theorem State.completeOk_hostStores (s : State) (out : List Byte) : (s.completeOk out).hostStores = [] := rfl
@[simp] theorem State.completeOk_draws (s : State) (out : List Byte) : (s.completeOk out).draws = s.draws + 1 := rfl
@[simp] theorem State.completeOk_unseen (s : State) (out : List Byte) :
    (s.completeOk out).unseen =
      unseenBytes s.latch.dst.toNat out (s.mem.readBytes s.latch.dst.toNat out.length) ++ s.unseen := rfl
@[simp] theorem State.completeOk_loads (s : State) (out : List Byte) : (s.completeOk out).loads = s.loads := rfl

/-! `resetEngine` -/

@[simp] theorem State.resetEngine_platform (s : State) : s.resetEngine.platform = s.platform := rfl
@[simp] theorem State.resetEngine_ie (s : State) : s.resetEngine.ie = false := rfl
@[simp] theorem State.resetEngine_status (s : State) : s.resetEngine.status = Status.zero := rfl
@[simp] theorem State.resetEngine_cmd (s : State) : s.resetEngine.cmd = 0 := rfl
@[simp] theorem State.resetEngine_args (s : State) : s.resetEngine.args = Args.zero := rfl
@[simp] theorem State.resetEngine_result (s : State) : s.resetEngine.result = 0 := rfl
@[simp] theorem State.resetEngine_latchCmd (s : State) : s.resetEngine.latchCmd = 0 := rfl
@[simp] theorem State.resetEngine_latch (s : State) : s.resetEngine.latch = Args.zero := rfl
@[simp] theorem State.resetEngine_work (s : State) : s.resetEngine.work = Work.initial := rfl
@[simp] theorem State.resetEngine_mem (s : State) : s.resetEngine.mem = s.abortedMem := rfl
@[simp] theorem State.resetEngine_script (s : State) : s.resetEngine.script = s.script := rfl
@[simp] theorem State.resetEngine_hostData (s : State) : s.resetEngine.hostData = s.hostData := rfl
@[simp] theorem State.resetEngine_raced (s : State) : s.resetEngine.raced = [] := rfl
@[simp] theorem State.resetEngine_hostStores (s : State) : s.resetEngine.hostStores = [] := rfl
@[simp] theorem State.resetEngine_draws (s : State) : s.resetEngine.draws = s.draws + 1 := rfl
@[simp] theorem State.resetEngine_unseen (s : State) : s.resetEngine.unseen = s.unseen := rfl
@[simp] theorem State.resetEngine_loads (s : State) : s.resetEngine.loads = s.loads := rfl

/-! `storeByte` -/

@[simp] theorem State.storeByte_platform (s : State) (a : Nat) (b : Byte) :
    (s.storeByte a b).platform = s.platform := rfl
@[simp] theorem State.storeByte_ie (s : State) (a : Nat) (b : Byte) : (s.storeByte a b).ie = s.ie := rfl
@[simp] theorem State.storeByte_status (s : State) (a : Nat) (b : Byte) : (s.storeByte a b).status = s.status := rfl
@[simp] theorem State.storeByte_cmd (s : State) (a : Nat) (b : Byte) : (s.storeByte a b).cmd = s.cmd := rfl
@[simp] theorem State.storeByte_args (s : State) (a : Nat) (b : Byte) : (s.storeByte a b).args = s.args := rfl
@[simp] theorem State.storeByte_result (s : State) (a : Nat) (b : Byte) : (s.storeByte a b).result = s.result := rfl
@[simp] theorem State.storeByte_latchCmd (s : State) (a : Nat) (b : Byte) :
    (s.storeByte a b).latchCmd = s.latchCmd := rfl
@[simp] theorem State.storeByte_latch (s : State) (a : Nat) (b : Byte) : (s.storeByte a b).latch = s.latch := rfl
@[simp] theorem State.storeByte_work (s : State) (a : Nat) (b : Byte) : (s.storeByte a b).work = s.work := rfl
@[simp] theorem State.storeByte_mem (s : State) (a : Nat) (b : Byte) :
    (s.storeByte a b).mem = s.mem.writeBytes a [s.keptByte a b] := rfl
@[simp] theorem State.storeByte_script (s : State) (a : Nat) (b : Byte) : (s.storeByte a b).script = s.script := rfl
@[simp] theorem State.storeByte_hostData (s : State) (a : Nat) (b : Byte) :
    (s.storeByte a b).hostData = s.hostData := rfl
@[simp] theorem State.storeByte_raced (s : State) (a : Nat) (b : Byte) :
    (s.storeByte a b).raced =
      if s.status.busy && s.inSource a then (a, s.mem.read a) :: (a, b) :: s.raced else s.raced := rfl
@[simp] theorem State.storeByte_hostStores (s : State) (a : Nat) (b : Byte) :
    (s.storeByte a b).hostStores = if s.status.busy && s.inDest a then (a, b) :: s.hostStores else s.hostStores := rfl
@[simp] theorem State.storeByte_unseen (s : State) (a : Nat) (b : Byte) :
    (s.storeByte a b).unseen = s.unseenAfter a b := rfl
@[simp] theorem State.storeByte_draws (s : State) (a : Nat) (b : Byte) :
    (s.storeByte a b).draws = if (s.unseenAt a).isSome then s.draws + 1 else s.draws := rfl
@[simp] theorem State.storeByte_loads (s : State) (a : Nat) (b : Byte) : (s.storeByte a b).loads = s.loads := rfl

/-! A store where every completion is observed. -/

@[simp] theorem State.unseenAt_of_nil (s : State) (a : Nat) (h : s.unseen = []) : s.unseenAt a = none := by
  simp [State.unseenAt, h]

@[simp] theorem State.keptByte_of_nil (s : State) (a : Nat) (b : Byte) (h : s.unseen = []) : s.keptByte a b = b := by
  simp [State.keptByte, h]

@[simp] theorem State.unseenAfter_of_nil (s : State) (a : Nat) (b : Byte) (h : s.unseen = []) :
    s.unseenAfter a b = [] := by
  simp [State.unseenAfter, h]

/-! `Status.started` -/

@[simp] theorem Status.started_busy (t : Status) : t.started.busy = true := rfl
@[simp] theorem Status.started_done (t : Status) : t.started.done = false := rfl
@[simp] theorem Status.started_ovr (t : Status) : t.started.ovr = t.ovr := rfl
@[simp] theorem Status.started_errcode (t : Status) : t.started.errcode = 0 := rfl

/-! `Status.dropped` -/

@[simp] theorem Status.dropped_busy (t : Status) : t.dropped.busy = t.busy := rfl
@[simp] theorem Status.dropped_done (t : Status) : t.dropped.done = t.done := rfl
@[simp] theorem Status.dropped_ovr (t : Status) : t.dropped.ovr = true := rfl
@[simp] theorem Status.dropped_errcode (t : Status) : t.dropped.errcode = t.errcode := rfl

/-! `Status.completed` -/

@[simp] theorem Status.completed_busy (t : Status) (c : Byte) : (t.completed c).busy = false := rfl
@[simp] theorem Status.completed_done (t : Status) (c : Byte) : (t.completed c).done = true := rfl
@[simp] theorem Status.completed_ovr (t : Status) (c : Byte) : (t.completed c).ovr = t.ovr := rfl
@[simp] theorem Status.completed_errcode (t : Status) (c : Byte) : (t.completed c).errcode = c := rfl

/-! `Status.written` -/

@[simp] theorem Status.written_busy (t : Status) (w : Word) : (t.written w).busy = t.busy := rfl
@[simp] theorem Status.written_done (t : Status) (w : Word) : (t.written w).done = (t.done && !w.getLsbD 1) := rfl
@[simp] theorem Status.written_ovr (t : Status) (w : Word) : (t.written w).ovr = (t.ovr && !w.getLsbD 2) := rfl
@[simp] theorem Status.written_errcode (t : Status) (w : Word) : (t.written w).errcode = t.errcode := rfl

@[simp] theorem Status.zero_busy : Status.zero.busy = false := rfl
@[simp] theorem Status.zero_done : Status.zero.done = false := rfl
@[simp] theorem Status.zero_ovr : Status.zero.ovr = false := rfl
@[simp] theorem Status.zero_errcode : Status.zero.errcode = 0 := rfl
@[simp] theorem Args.zero_src : Args.zero.src = 0 := rfl
@[simp] theorem Args.zero_dst : Args.zero.dst = 0 := rfl
@[simp] theorem Args.zero_len : Args.zero.len = 0 := rfl
@[simp] theorem Args.zero_olen : Args.zero.olen = 0 := rfl
@[simp] theorem Args.zero_cap : Args.zero.cap = 0 := rfl

/-! The operations that choose between updates. -/

@[simp] theorem State.complete_error (s : State) (e : Err) : s.complete (.error e) = s.completeError e := rfl

theorem State.complete_ok_of_le (s : State) (out : List Byte) (h : out.length ≤ s.latch.cap.toNat) :
    s.complete (.ok out) = s.completeOk out := by
  simp [State.complete, Nat.not_lt.mpr h]

theorem State.complete_ok_of_lt (s : State) (out : List Byte) (h : s.latch.cap.toNat < out.length) :
    s.complete (.ok out) = s.completeError .dstOverflow := by
  simp [State.complete, h]

@[simp] theorem State.writeCmd_of_busy (s : State) (w : Word) (h : s.status.busy = true) :
    s.writeCmd w = s.dropCommand := by
  simp [State.writeCmd, h]

@[simp] theorem State.writeCmd_of_idle (s : State) (w : Word) (h : s.status.busy = false) :
    s.writeCmd w = s.startCommand w := by
  simp [State.writeCmd, h]

@[simp] theorem State.abortedMem_of_idle (s : State) (h : s.status.busy = false) : s.abortedMem = s.mem := by
  simp [State.abortedMem, h]

end Sys2Proof.Machine
end

