-- ==== Sys2Proof/Laws/Completion.lean ====
section
/-! SUPPORT. What a completion, a command, a reset, a store and a step can do, each said once. -/

namespace Sys2Proof.Machine

open Sys2Proof

/-! Completion. -/

/-- A completion ends in an error, or it writes an output that fits the capacity. -/
theorem State.complete_cases (s : State) (r : Except Err (List Byte)) :
    (∃ e, s.complete r = s.completeError e) ∨
    (∃ out, r = .ok out ∧ out.length ≤ s.latch.cap.toNat ∧ s.complete r = s.completeOk out) := by
  match r with
  | .error e => exact .inl ⟨e, rfl⟩
  | .ok out =>
    rcases Nat.lt_or_ge s.latch.cap.toNat out.length with h | h
    · exact .inl ⟨.dstOverflow, s.complete_ok_of_lt out h⟩
    · exact .inr ⟨out, rfl, h, s.complete_ok_of_le out h⟩

@[simp] theorem State.delivered_length (s : State) (out : List Byte) : (s.delivered out).length = out.length := by
  unfold State.delivered; split <;> simp

@[simp] theorem State.delivered_nil (s : State) : s.delivered [] = [] := by
  unfold State.delivered; split <;> simp

/-- Without a hazard on the destination window the command's bytes are delivered as they are. -/
theorem State.delivered_of_noStores (s : State) (out : List Byte) (h : s.hostStores = []) :
    s.delivered out = out := by
  simp [State.delivered, h]

/-- A delivered byte is the command's, or the one the host last stored there (70_reset R401). -/
theorem State.deliveredByte_cases (s : State) (a : Nat) (b : Byte) :
    s.deliveredByte a b = b ∨ s.hostByte a = some (s.deliveredByte a b) := by
  unfold State.deliveredByte
  split
  · exact .inl rfl
  · rename_i h hh
    split
    · exact .inr hh
    · exact .inl rfl

/-- Each delivered byte is the command's, or the one the host last stored there (70_reset R401). -/
theorem State.delivered_getD (s : State) (out : List Byte) (k : Nat) (h : k < out.length) :
    (s.delivered out).getD k 0 = out.getD k 0 ∨
    s.hostByte (s.latch.dst.toNat + k) = some ((s.delivered out).getD k 0) := by
  unfold State.delivered
  split
  · exact .inl rfl
  · simpa [List.getD, h] using s.deliveredByte_cases (s.latch.dst.toNat + k) out[k]

theorem State.kernelOutput_length (s : State) (f : List Byte → List Byte)
    (hf : ∀ x, x.length = s.latch.len.toNat → (f x).length = x.length) :
    (s.kernelOutput f).length = s.latch.len.toNat := by
  unfold State.kernelOutput
  split
  · rw [hf _ s.source_length, s.source_length]
  · simp

/-- The records of a completion are one for each byte it wrote, with the byte that was there (20_memory R73). -/
theorem mem_unseenBytes {u : UnseenByte} {a : Nat} {bs old : List Byte} (h : u ∈ unseenBytes a bs old) :
    ∃ k, k < bs.length ∧ u = { addr := a + k, written := bs.getD k 0, older := old.getD k 0 } := by
  induction bs generalizing a old with
  | nil => simp [unseenBytes] at h
  | cons b bs ih =>
    simp only [unseenBytes, List.mem_cons] at h
    rcases h with rfl | h
    · exact ⟨0, by simp, by cases old <;> simp⟩
    · obtain ⟨k, hk, rfl⟩ := ih h
      refine ⟨k + 1, by simpa using hk, ?_⟩
      have : a + 1 + k = a + (k + 1) := by omega
      cases old <;> simp [this]

/-! Commands. -/

/-- What a command does: it completes, with an outcome that is an output only if NOP produced it (it is empty) or the
windows are as the checks ask; besides what the completion does, only the working storage may change. -/
theorem exec_inversion (i : Instr) (s : State) :
    ∃ (w : Work) (r : Except Err (List Byte)),
      exec i s = .next ({ s with work := w }.complete r) ∧
      (∀ out, r = .ok out → out = [] ∨ s.windowsOk) := by
  cases i with
  | nop b => exact ⟨s.work, .ok [], rfl, fun out h => .inl (by simpa using h.symm)⟩
  | shuffle b =>
    refine ⟨s.work, _, rfl, fun out h => .inr ?_⟩
    exact (validateTransposition_ok.mp (bind_check_ok.mp h).1).2.2.1
  | unshuffle b =>
    refine ⟨s.work, _, rfl, fun out h => .inr ?_⟩
    exact (validateTransposition_ok.mp (bind_check_ok.mp h).1).2.2.1
  | delta b =>
    refine ⟨s.work, _, rfl, fun out h => .inr ?_⟩
    exact (validateDelta_ok.mp (bind_check_ok.mp h).1).1
  | deltaInv b =>
    refine ⟨s.work, _, rfl, fun out h => .inr ?_⟩
    exact (validateDelta_ok.mp (bind_check_ok.mp h).1).1
  | blkEnc lz b =>
    simp only [exec, execBlkEnc]
    cases hv : validateBlkEnc b s with
    | error e => exact ⟨s.work, .error e, rfl, fun out h => nomatch h⟩
    | ok u => exact ⟨_, _, rfl, fun out _ => .inr (validateBlkEnc_ok.mp hv).2.2⟩
  | blkDec b =>
    refine ⟨s.work, _, rfl, fun out h => .inr ?_⟩
    exact (validateBlkDec_ok.mp (bind_check_ok.mp h).1).2.2.2.1

/-- The engine's step is a command's completion, or IllegalCommand for an illegal word. -/
theorem engineStep_inversion (s : State) :
    ∃ (w : Work) (r : Except Err (List Byte)),
      engineStep s = .next ({ s with work := w }.complete r) ∧
      (∀ out, r = .ok out → out = [] ∨ s.windowsOk) := by
  unfold engineStep
  cases decode s.latchCmd with
  | ok i => exact exec_inversion i s
  | error e => exact ⟨s.work, .error .illegalCommand, rfl, fun out h => nomatch h⟩

/-! Reset. -/

/-- A reset changes no byte outside the destination window of the command it aborts (70_reset R392). -/
theorem State.abortedMem_read_outside (s : State) (a : Nat) (h : s.inDest a = false) :
    s.abortedMem.read a = s.mem.read a := by
  unfold State.abortedMem
  split
  · refine Memory.read_writeBytes_outside _ _ _ _ ?_
    simp only [State.inDest, Bool.and_eq_false_iff, decide_eq_false_iff_not] at h
    simp only [List.length_map, List.length_range]
    omega
  · rfl

theorem State.abortedMem_wf (s : State) (h : s.mem.wf = true) : s.abortedMem.wf = true := by
  unfold State.abortedMem
  split
  · exact Memory.wf_writeBytes _ _ h
  · exact h

theorem State.abortedMem_below (s : State) (h : s.mem.below s.platform.memSize = true) :
    s.abortedMem.below s.platform.memSize = true := by
  unfold State.abortedMem
  split
  · refine Memory.below_writeBytes _ _ h ?_
    rcases Nat.lt_or_ge s.latch.dst.toNat s.platform.memSize with hd | hd
    · right; simp only [List.length_map, List.length_range]; omega
    · left
      have : min (s.latch.dst.toNat + s.latch.cap.toNat) s.platform.memSize - s.latch.dst.toNat = 0 := by omega
      simp [this]
  · exact h

/-! Stores into system memory. -/

/-- What a store of one byte keeps: the byte, or where a completion is not observed the command's (70_reset R401). -/
theorem State.keptByte_cases (s : State) (a : Nat) (b : Byte) :
    s.keptByte a b = b ∨ ∃ u, s.unseenAt a = some u ∧ s.keptByte a b = u.written := by
  unfold State.keptByte
  split
  · exact .inl rfl
  · rename_i u hu
    split
    · exact .inl rfl
    · exact .inr ⟨u, hu, rfl⟩

/-- A store changes only memory, the records of hazards and the draw counter. -/
theorem State.storeBytes_frame (bs : List Byte) (s : State) (a : Nat) :
    ∃ m r h u n, s.storeBytes a bs = { s with mem := m, raced := r, hostStores := h, unseen := u, draws := n } := by
  induction bs generalizing s a with
  | nil => exact ⟨s.mem, s.raced, s.hostStores, s.unseen, s.draws, rfl⟩
  | cons b bs ih =>
    obtain ⟨m, r, h, u, n, heq⟩ := ih (s.storeByte a b) (a + 1)
    exact ⟨m, r, h, u, n, heq⟩

/-- Where every completion is observed, a store keeps it so and draws nothing. -/
theorem State.storeBytes_unseen_nil (bs : List Byte) (s : State) (a : Nat) (h : s.unseen = []) :
    (s.storeBytes a bs).unseen = [] ∧ (s.storeBytes a bs).draws = s.draws := by
  induction bs generalizing s a with
  | nil => exact ⟨h, rfl⟩
  | cons b bs ih =>
    obtain ⟨hu, hd⟩ := ih (s.storeByte a b) (a + 1) (by simp [h])
    exact ⟨hu, by rw [State.storeBytes, hd]; simp [h]⟩

/-- A store leaves every byte outside it as it was. -/
theorem State.storeBytes_read_outside (bs : List Byte) (s : State) (a x : Nat) (h : x < a ∨ a + bs.length ≤ x) :
    (s.storeBytes a bs).mem.read x = s.mem.read x := by
  induction bs generalizing s a with
  | nil => rfl
  | cons b bs ih =>
    simp only [List.length_cons] at h
    rw [State.storeBytes, ih _ _ (by omega), State.storeByte_mem,
      Memory.read_writeBytes_outside _ _ _ _ (by simp only [List.length_singleton]; omega)]

/-- Where every completion is observed, memory after a store is memory after one write of its bytes. -/
theorem State.storeBytes_mem_read (bs : List Byte) (s : State) (a x : Nat) (h : s.unseen = []) :
    (s.storeBytes a bs).mem.read x = (s.mem.writeBytes a bs).read x := by
  induction bs generalizing s a with
  | nil => simp [State.storeBytes]
  | cons b bs ih =>
    rw [State.storeBytes, ih _ _ (by simp [h]), Memory.read_writeBytes, State.storeByte_mem, State.keptByte_of_nil _ _ _ h,
      Memory.read_writeBytes, Memory.read_writeBytes]
    by_cases hx : x = a
    · subst hx; simp
    · by_cases hin : a + 1 ≤ x ∧ x < a + 1 + bs.length
      · rw [if_pos hin, if_pos (by simp; omega), show x - a = (x - (a + 1)) + 1 by omega, List.getD_cons_succ]
      · rw [if_neg hin, if_neg (by simp; omega), if_neg (by simp; omega)]

/-- A store of one byte changes the record of no other address. -/
theorem State.storeByte_unseenAt_of_ne (s : State) (a x : Nat) (b : Byte) (h : x ≠ a) :
    (s.storeByte a b).unseenAt x = s.unseenAt x := by
  have hne : ¬ a = x := fun e => h e.symm
  simp only [State.unseenAt, State.storeByte_unseen, State.unseenAfter]
  split <;> simp [hne]

/-- A store to a byte that is not observed keeps its record open, with the byte stored as one that a load may return. -/
theorem State.storeByte_unseenAt (s : State) (a : Nat) (b : Byte) :
    (s.storeByte a b).unseenAt a =
      (s.unseenAt a).map (fun u => { addr := a, written := u.written, older := b }) := by
  rw [State.unseenAt, State.storeByte_unseen, State.unseenAfter]
  cases h : s.unseenAt a with
  | none => simpa [State.unseenAt] using h
  | some u => simp

/-- What a store does to the records of the bytes not observed, said once for each address. -/
theorem State.storeBytes_unseenAt (bs : List Byte) (s : State) (a x : Nat) :
    (s.storeBytes a bs).unseenAt x =
      if a ≤ x ∧ x < a + bs.length then
        (s.unseenAt x).map (fun u => { addr := x, written := u.written, older := bs.getD (x - a) 0 })
      else s.unseenAt x := by
  induction bs generalizing s a with
  | nil => rw [if_neg (by simp only [List.length_nil]; omega)]; rfl
  | cons b bs ih =>
    rw [State.storeBytes, ih]
    by_cases hx : x = a
    · subst hx
      rw [if_neg (by omega), if_pos (by simp only [List.length_cons]; omega), State.storeByte_unseenAt]
      simp
    · rw [State.storeByte_unseenAt_of_ne _ _ _ _ hx]
      by_cases hin : a + 1 ≤ x ∧ x < a + 1 + bs.length
      · rw [if_pos hin, if_pos (by simp only [List.length_cons]; omega), show x - a = (x - (a + 1)) + 1 by omega,
          List.getD_cons_succ]
      · rw [if_neg hin, if_neg (by simp only [List.length_cons]; omega)]

/-- Each byte of a store lands, or where a command wrote it and its completion is not observed, it may leave the command's
byte (70_reset R401). -/
theorem State.storeBytes_read_inside (bs : List Byte) (s : State) (a k : Nat) (hk : k < bs.length) :
    (s.storeBytes a bs).mem.read (a + k) = bs.getD k 0 ∨
    ∃ u, s.unseenAt (a + k) = some u ∧ (s.storeBytes a bs).mem.read (a + k) = u.written := by
  induction bs generalizing s a k with
  | nil => simp at hk
  | cons b bs ih =>
    cases k with
    | zero =>
      rw [State.storeBytes, State.storeBytes_read_outside _ _ _ _ (by omega), State.storeByte_mem]
      simpa [Memory.read_writeBytes] using s.keptByte_cases a b
    | succ k =>
      have h := ih (s.storeByte a b) (a + 1) k (by simpa using hk)
      rwa [show a + 1 + k = a + (k + 1) by omega, State.storeByte_unseenAt_of_ne _ _ _ _ (by omega)] at h

/-- While a command runs, each byte of a store into its destination window is the host's byte there. -/
theorem State.storeBytes_hostByte (bs : List Byte) (s : State) (a x : Nat) :
    (s.storeBytes a bs).hostByte x =
      if s.status.busy = true ∧ s.inDest x = true ∧ a ≤ x ∧ x < a + bs.length then some (bs.getD (x - a) 0)
      else s.hostByte x := by
  induction bs generalizing s a with
  | nil => rw [if_neg (by simp only [List.length_nil]; omega)]; rfl
  | cons b bs ih =>
    have hb : (s.storeByte a b).status.busy = s.status.busy := rfl
    have hd : (s.storeByte a b).inDest x = s.inDest x := rfl
    rw [State.storeBytes, ih, hb, hd]
    by_cases hx : x = a
    · subst hx
      rw [if_neg (by omega)]
      by_cases hw : s.status.busy = true ∧ s.inDest x = true
      · rw [if_pos ⟨hw.1, hw.2, by simp only [List.length_cons]; omega⟩]
        simp [State.hostByte, hw.1, hw.2]
      · rw [if_neg (fun h => hw ⟨h.1, h.2.1⟩)]
        have : (s.status.busy && s.inDest x) = false := by simpa using hw
        simp [State.hostByte, this]
    · have hs : (s.storeByte a b).hostByte x = s.hostByte x := by
        have hne : ¬ a = x := fun e => hx e.symm
        simp only [State.hostByte, State.storeByte_hostStores]
        split <;> simp [hne]
      rw [hs]
      by_cases hin : s.status.busy = true ∧ s.inDest x = true ∧ a + 1 ≤ x ∧ x < a + 1 + bs.length
      · rw [if_pos hin, if_pos ⟨hin.1, hin.2.1, by simp only [List.length_cons]; omega⟩,
          show x - a = (x - (a + 1)) + 1 by omega, List.getD_cons_succ]
      · rw [if_neg hin, if_neg]
        rintro ⟨h1, h2, h3, h4⟩
        simp only [List.length_cons] at h4
        exact hin ⟨h1, h2, by omega, by omega⟩

/-- A store keeps the record of what raced the source window. -/
theorem State.storeBytes_raced_subset (bs : List Byte) (s : State) (a : Nat) : s.raced ⊆ (s.storeBytes a bs).raced := by
  induction bs generalizing s a with
  | nil => exact fun _ h => h
  | cons b bs ih =>
    refine fun c hc => ih (s.storeByte a b) (a + 1) ?_
    simp only [State.storeByte_raced]
    split <;> simp [hc]

/-- While a command runs, a store into its source window is recorded with the byte before it and the byte stored
(70_reset R400). -/
theorem State.storeBytes_raced (bs : List Byte) (s : State) (a k : Nat) (hb : s.status.busy = true)
    (hk : k < bs.length) (hi : s.inSource (a + k) = true) :
    (a + k, s.mem.read (a + k)) ∈ (s.storeBytes a bs).raced ∧ (a + k, bs.getD k 0) ∈ (s.storeBytes a bs).raced := by
  induction bs generalizing s a k with
  | nil => simp at hk
  | cons b bs ih =>
    cases k with
    | zero =>
      have hr := State.storeBytes_raced_subset bs (s.storeByte a b) (a + 1)
      have hi' : s.inSource a = true := hi
      refine ⟨hr ?_, hr ?_⟩ <;> simp [hb, hi']
    | succ k =>
      have h := ih (s.storeByte a b) (a + 1) k hb (by simpa using hk)
        (show s.inSource (a + 1 + k) = true by rwa [show a + 1 + k = a + (k + 1) by omega])
      rwa [show a + 1 + k = a + (k + 1) by omega, State.storeByte_mem,
        Memory.read_writeBytes_outside _ _ _ _ (by simp only [List.length_singleton]; omega)] at h

/-- A store outside both windows of a command in flight, or with none in flight, records no hazard. -/
theorem State.storeBytes_records (bs : List Byte) (s : State) (a : Nat)
    (h : s.status.busy = false ∨ ∀ k, k < bs.length → s.inSource (a + k) = false ∧ s.inDest (a + k) = false) :
    (s.storeBytes a bs).raced = s.raced ∧ (s.storeBytes a bs).hostStores = s.hostStores := by
  induction bs generalizing s a with
  | nil => exact ⟨rfl, rfl⟩
  | cons b bs ih =>
    obtain ⟨hr, hs⟩ := ih (s.storeByte a b) (a + 1) (h.imp id fun h k hk => by
      have := h (k + 1) (by simpa using hk)
      rwa [show a + (k + 1) = a + 1 + k by omega] at this)
    have h0 : (s.status.busy && s.inSource a) = false ∧ (s.status.busy && s.inDest a) = false := by
      rcases h with h | h
      · simp [h]
      · have := h 0 (by simp); simp only [Nat.add_zero] at this; simp [this]
    rw [State.storeBytes, hr, hs]
    simp [h0]

theorem State.storeBytes_wf (bs : List Byte) (s : State) (a : Nat) (h : s.mem.wf = true) :
    (s.storeBytes a bs).mem.wf = true := by
  induction bs generalizing s a with
  | nil => exact h
  | cons b bs ih => exact ih _ _ (Memory.wf_writeBytes a [s.keptByte a b] h)

theorem State.storeBytes_below (bs : List Byte) (s : State) (a hi : Nat) (h : s.mem.below hi = true)
    (hb : a + bs.length ≤ hi) : (s.storeBytes a bs).mem.below hi = true := by
  induction bs generalizing s a with
  | nil => exact h
  | cons b bs ih =>
    simp only [List.length_cons] at hb
    refine ih _ _ (Memory.below_writeBytes a [s.keptByte a b] h (.inr (by simp; omega))) (by omega)

/-! Register writes. -/

/-- What a register write can do: nothing, a new value of an argument half, of CTRL or of STATUS, a start, a dropped
command, or a reset (10_state R20 to R32). -/
theorem State.writeReg_cases (s : State) (r : Reg) (w : Word) :
    s.writeReg r w = s ∨ (∃ as, s.writeReg r w = { s with args := as }) ∨
    (r = .ctrl ∧ w.getLsbD 1 = false ∧ s.writeReg r w = { s with ie := w.getLsbD 0 }) ∨
    (r = .ctrl ∧ w.getLsbD 1 = true ∧ s.writeReg r w = s.resetEngine) ∨
    (r = .status ∧ s.writeReg r w = s.writeStatus w) ∨
    (r = .cmd ∧ s.status.busy = true ∧ s.writeReg r w = s.dropCommand) ∨
    (r = .cmd ∧ s.status.busy = false ∧ s.writeReg r w = s.startCommand w) := by
  cases r
  case ctrl =>
    cases h : w.getLsbD 1
    · exact .inr (.inr (.inl ⟨rfl, rfl, by rw [State.writeReg, State.writeCtrl, h]; rfl⟩))
    · exact .inr (.inr (.inr (.inl ⟨rfl, rfl, by rw [State.writeReg, State.writeCtrl, h]; rfl⟩)))
  case status => simp [State.writeReg]
  case cmd =>
    cases h : s.status.busy
    · exact .inr (.inr (.inr (.inr (.inr (.inr ⟨rfl, rfl, s.writeCmd_of_idle w h⟩)))))
    · exact .inr (.inr (.inr (.inr (.inr (.inl ⟨rfl, rfl, s.writeCmd_of_busy w h⟩)))))
  case id | resultLo | resultHi | caps | reserved => exact .inl rfl
  all_goals exact .inr (.inl ⟨_, rfl⟩)

/-! Steps. -/

/-- What a step can do, said once for each event. -/
theorem step_inversion (s : State) :
    (s.script = [] ∧ step s = engineTurn s) ∨
    (∃ rest, s.script = .engine :: rest ∧ step s = engineTurn { s with script := rest }) ∨
    (∃ a w rest, s.script = .load a w :: rest ∧
      step s = hostLoad { s with script := rest } s.comingOutput a w) ∨
    (∃ a bs rest, s.script = .store a bs :: rest ∧ step s = hostStore { s with script := rest } a bs) ∨
    (∃ rest, s.script = .powerOn :: rest ∧ step s = .next { s with script := rest }.resetEngine) := by
  unfold step
  match h : s.script with
  | [] => exact .inl ⟨rfl, rfl⟩
  | .engine :: rest => exact .inr (.inl ⟨rest, rfl, rfl⟩)
  | .load a w :: rest => exact .inr (.inr (.inl ⟨a, w, rest, rfl, rfl⟩))
  | .store a bs :: rest => exact .inr (.inr (.inr (.inl ⟨a, bs, rest, rfl, rfl⟩)))
  | .powerOn :: rest => exact .inr (.inr (.inr (.inr ⟨rest, rfl, rfl⟩)))

/-- A load changes only the host's data, the load counter and, if it observes a completion, what is not observed; or it
faults. -/
theorem hostLoad_inversion (s : State) (coming : List Byte) (a w : Nat) :
    (∃ bs, hostLoad s coming a w =
      .next { s with hostData := bs, unseen := if s.observes a w then [] else s.unseen }) ∨
    (∃ bs, hostLoad s coming a w = .next { s with hostData := bs, loads := s.loads + 1 }) ∨
    hostLoad s coming a w = .fault (.noMemory a) := by
  unfold hostLoad
  split
  · exact .inl ⟨_, rfl⟩
  · split
    · exact .inr (.inl ⟨_, rfl⟩)
    · exact .inr (.inr rfl)

/-- Each byte of a load is one of the values that it may return (70_reset R401). -/
theorem State.loadByte_mem_visible (s : State) (coming : List Byte) (a : Nat) :
    s.loadByte coming a ∈ s.visible coming a := by
  have hpos : 0 < (s.visible coming a).length := by simp [State.visible]
  have hlt := Nat.mod_lt (Config.readChoice s.loads a) hpos
  unfold State.loadByte
  rw [List.getD_eq_getElem _ _ hlt]
  exact List.getElem_mem hlt

/-- With no command in flight and every completion observed, a load returns the byte in memory. -/
theorem State.loadByte_of_quiet (s : State) (coming : List Byte) (a : Nat) (hb : s.status.busy = false)
    (hu : s.unseen = []) : s.loadByte coming a = s.mem.read a := by
  simp [State.loadByte, State.visible, hb, hu, Nat.mod_one]

/-- A load of a byte that no command in flight will write and that no record holds open returns the byte in memory. -/
theorem State.loadByte_of_closed (s : State) (coming : List Byte) (a : Nat)
    (hb : s.status.busy = true → ¬ (s.latch.dst.toNat ≤ a ∧ a < s.latch.dst.toNat + coming.length))
    (hu : ∀ u ∈ s.unseen, u.addr ≠ a) : s.loadByte coming a = s.mem.read a := by
  have hf : s.unseen.filter (fun u => u.addr = a) = [] := List.filter_eq_nil_iff.2 fun u h => by simpa using hu u h
  have hv : s.visible coming a = [s.mem.read a] := by
    unfold State.visible
    rw [hf, if_neg]
    · rfl
    · simpa using hb
  simp [State.loadByte, hv, Nat.mod_one]

/-- A store is a register access, a store into implemented memory, or a fault. -/
theorem hostStore_inversion (s : State) (a : Nat) (bs : List Byte) :
    (inBlock s.platform a = true ∧ hostStore s a bs = .next (s.blockStore (a - s.platform.mmioBase) bs)) ∨
    (inMemory s.platform a bs.length = true ∧ hostStore s a bs = .next (s.storeBytes a bs)) ∨
    hostStore s a bs = .fault (.noMemory a) := by
  unfold hostStore
  split
  · rename_i h; exact .inl ⟨h, rfl⟩
  · split
    · rename_i h; exact .inr (.inl ⟨h, rfl⟩)
    · exact .inr (.inr rfl)

/-- A store to the register block changes nothing or writes one register (20_memory R75). -/
theorem State.blockStore_cases (s : State) (off : Nat) (bs : List Byte) :
    s.blockStore off bs = s ∨
    (bs.length = 4 ∧ off % 4 = 0 ∧ s.blockStore off bs = s.writeReg (regAt off) (BitVec.ofNat 32 (leNat bs))) := by
  unfold State.blockStore
  split
  · rename_i h
    simp [wordAccess] at h
    exact .inr ⟨h.1, h.2, rfl⟩
  · exact .inl rfl

/-- The state at the engine's turn has the command in flight that is in flight now. -/
theorem State.atTurn_latch (es : List Event) (s t : State) (h : State.atTurn es s = some t)
    (hb : s.status.busy = true) : t.latch = s.latch ∧ t.status.busy = true := by
  induction es generalizing s with
  | nil => cases h; exact ⟨rfl, hb⟩
  | cons e es ih =>
    cases e with
    | engine => cases h; exact ⟨rfl, hb⟩
    | powerOn => cases h
    | load a w =>
      simp only [State.atTurn] at h
      split at h
      · exact ih s h hb
      · cases h
    | store a bs =>
      simp only [State.atTurn] at h
      split at h
      · rename_i u hu
        split at h
        · rename_i hub
          obtain ⟨hl, ht⟩ := ih u h hub
          refine ⟨hl.trans ?_, ht⟩
          rcases hostStore_inversion s a bs with ⟨_, he⟩ | ⟨_, he⟩ | he
          · rw [he] at hu; cases hu
            rcases s.blockStore_cases (a - s.platform.mmioBase) bs with hc | ⟨_, _, hc⟩
            · rw [hc]
            · rw [hc] at hub ⊢
              rcases s.writeReg_cases (regAt (a - s.platform.mmioBase)) (BitVec.ofNat 32 (leNat bs)) with
                hw | ⟨_, hw⟩ | ⟨_, _, hw⟩ | ⟨_, _, hw⟩ | ⟨_, hw⟩ | ⟨_, _, hw⟩ | ⟨_, hi, hw⟩
              · rw [hw]
              · rw [hw]
              · rw [hw]
              · rw [hw] at hub; simp at hub
              · rw [hw]; rfl
              · rw [hw]; rfl
              · rw [hb] at hi; cases hi
          · rw [he] at hu; cases hu
            obtain ⟨m, r, h', un, n, hf⟩ := State.storeBytes_frame bs s a
            rw [hf]
          · rw [he] at hu; cases hu
        · cases h
      · cases h
      · cases h

/-- A command's RESULT fits its capacity. -/
theorem engineStep_result_le (s t : State) (h : engineStep s = .next t) : t.result.toNat ≤ s.latch.cap.toNat := by
  obtain ⟨w, r, he, _⟩ := engineStep_inversion s
  rw [he] at h
  injection h with h
  rcases State.complete_cases { s with work := w } r with ⟨e, hc⟩ | ⟨out, _, hle, hc⟩
  · rw [← h, hc]; simp
  · rw [← h, hc, State.completeOk_result, BitVec.toNat_ofNat]
    exact Nat.le_trans (Nat.mod_le _ _) hle

/-- What the command in flight will write fits its capacity. -/
theorem State.comingOutput_length_le (s : State) (hb : s.status.busy = true) :
    s.comingOutput.length ≤ s.latch.cap.toNat := by
  have hl : ((State.atTurn s.script s).getD { s with script := [] }).latch = s.latch := by
    cases h : State.atTurn s.script s with
    | none => rfl
    | some t => exact (State.atTurn_latch _ _ _ h hb).1
  unfold State.comingOutput
  generalize (State.atTurn s.script s).getD { s with script := [] } = x at hl
  split
  · rename_i t ht
    split
    · rw [Memory.readBytes_length, ← hl]; exact engineStep_result_le { x with hostStores := [] } t ht
    · exact Nat.zero_le _
  · exact Nat.zero_le _
  · exact Nat.zero_le _

end Sys2Proof.Machine
end

