-- ==== Sys2Proof/Laws/PerInstr.lean ====
section
/-! SUPPORT. Statements for all instructions, proved constructor by constructor. `EncodedFields`: each field of the word of
a well-formed command is the one 30_encoding R90 asks for. -/

namespace Sys2Proof.Laws

open Sys2Proof

/-- The five fields of a command's word (30_encoding R90). -/
def EncodedFields.Statement (i : Instr) : Prop :=
  i.wf = true →
    wordField (encode i) 3 0 = i.op ∧ wordField (encode i) 7 4 = 0 ∧ wordField (encode i) 8 8 = i.lzBit ∧
      wordField (encode i) 15 9 = 0 ∧ wordField (encode i) 31 16 = i.bpp

/-- The arithmetic all constructors share. -/
theorem EncodedFields.ofBounds {i : Instr} (hop : i.op < 16) (hlz : i.lzBit < 2) : EncodedFields.Statement i := by
  intro h
  have hb : i.bpp < 65536 := by simpa [Instr.wf] using h
  have hw : (encode i).toNat = i.bpp * 65536 + i.lzBit * 256 + i.op := by
    simp only [encode, BitVec.toNat_ofNat]; omega
  simp only [wordField, hw]
  norm_num
  omega

theorem EncodedFields.nop (bpp : Nat) : EncodedFields.Statement (.nop bpp) :=
  ofBounds (by simp [Instr.op]) (by simp [Instr.lzBit])
theorem EncodedFields.shuffle (bpp : Nat) : EncodedFields.Statement (.shuffle bpp) :=
  ofBounds (by simp [Instr.op]) (by simp [Instr.lzBit])
theorem EncodedFields.unshuffle (bpp : Nat) : EncodedFields.Statement (.unshuffle bpp) :=
  ofBounds (by simp [Instr.op]) (by simp [Instr.lzBit])
theorem EncodedFields.delta (bpp : Nat) : EncodedFields.Statement (.delta bpp) :=
  ofBounds (by simp [Instr.op]) (by simp [Instr.lzBit])
theorem EncodedFields.deltaInv (bpp : Nat) : EncodedFields.Statement (.deltaInv bpp) :=
  ofBounds (by simp [Instr.op]) (by simp [Instr.lzBit])
theorem EncodedFields.blkEnc (lzEn : Bool) (bpp : Nat) : EncodedFields.Statement (.blkEnc lzEn bpp) :=
  ofBounds (by simp [Instr.op]) (by simpa [Instr.lzBit] using lzEn.toNat_lt)
theorem EncodedFields.blkDec (bpp : Nat) : EncodedFields.Statement (.blkDec bpp) :=
  ofBounds (by simp [Instr.op]) (by simp [Instr.lzBit])

end Sys2Proof.Laws
end

