-- ==== Sys2Proof/Laws/Race.lean ====
section
/-! SUPPORT. Races on the source window: what a reading sees, and that where all readings agree the raced functions are the
plain ones. -/

namespace Sys2Proof.Machine

open Sys2Proof

/-! What a reading sees. -/

@[simp] theorem State.snapshot_length (s : State) (r : List Nat) : (s.snapshot r).length = s.latch.len.toNat := by
  simp [State.snapshot]

/-- A reading of a byte sees one of the values it has held (70_reset R400). -/
theorem State.seen_mem_heldValues (s : State) (r : List Nat) (a : Nat) : s.seen r a ∈ s.heldValues a := by
  have hpos : 0 < (s.heldValues a).length := by simp [State.heldValues]
  have hlt := Nat.mod_lt (Config.raceChoice s.draws r a) hpos
  unfold State.seen
  rw [List.getD_eq_getElem _ _ hlt]
  exact List.getElem_mem hlt

theorem State.snapshot_getD (s : State) (r : List Nat) (k : Nat) (h : k < s.latch.len.toNat) :
    (s.snapshot r).getD k 0 = s.seen r (s.latch.src.toNat + k) := by
  simp [State.snapshot, List.getD, h]

/-- Every byte of a reading of the window is one of the values it has held. -/
theorem State.snapshot_getD_mem (s : State) (r : List Nat) (k : Nat) (h : k < s.latch.len.toNat) :
    (s.snapshot r).getD k 0 ∈ s.heldValues (s.latch.src.toNat + k) := by
  rw [s.snapshot_getD r k h]; exact s.seen_mem_heldValues r _

theorem State.inSource_add (s : State) (k : Nat) (h : k < s.latch.len.toNat) :
    s.inSource (s.latch.src.toNat + k) = true := by
  simp [State.inSource, h]

/-- Without stores into it the source window is settled. -/
theorem State.settled_of_unraced (s : State) (h : s.unraced = true) : s.settled := by
  intro a _ v hv
  simp only [State.unraced, Bool.and_eq_true, List.isEmpty_iff] at h
  simpa [State.heldValues, h.1, h.2] using hv

/-- Bytes of the source window that no store reaches are settled. -/
theorem State.settledAt_of_unstored (s : State) (k n : Nat)
    (h : ∀ c ∈ s.raced ++ s.lateStores, c.1 < s.latch.src.toNat + k ∨ s.latch.src.toNat + k + n ≤ c.1) :
    s.settledAt k n := by
  intro j hj v hv
  have hnone : (s.raced ++ s.lateStores).filter (fun c => c.1 = s.latch.src.toNat + k + j) = [] :=
    List.filter_eq_nil_iff.2 fun c hc => by have := h c hc; simp only [decide_eq_true_eq]; omega
  simpa [State.heldValues, hnone] using hv

/-- Every reading of a settled window sees the window. -/
theorem State.snapshot_of_settled (s : State) (h : s.settled) (r : List Nat) : s.snapshot r = s.source := by
  refine List.ext_getElem (by simp) fun k h1 h2 => ?_
  have hk : k < s.latch.len.toNat := by simpa using h1
  rw [← List.getD_eq_getElem _ 0 h1, ← List.getD_eq_getElem _ 0 h2, s.snapshot_getD r k hk, s.source_getD k hk]
  exact h _ (s.inSource_add k hk) _ (s.seen_mem_heldValues r _)

/-- A kernel on a settled window is the kernel of the window. -/
theorem State.kernelOutput_of_settled (s : State) (f : List Byte → List Byte) (h : s.settled)
    (hf : (f s.source).length = s.latch.len.toNat) : s.kernelOutput f = f s.source := by
  unfold State.kernelOutput
  split
  · rfl
  · refine List.ext_getElem (by simp [hf]) fun k h1 h2 => ?_
    simp [s.snapshot_of_settled h, List.getD, h2]

/-- Each byte a raced kernel gives comes from one reading of the window. -/
theorem State.kernelOutput_getD (s : State) (f : List Byte → List Byte) (k : Nat) (hk : k < s.latch.len.toNat) :
    ∃ xs : List Byte, xs.length = s.latch.len.toNat ∧
      (∀ j, j < s.latch.len.toNat → xs.getD j 0 ∈ s.heldValues (s.latch.src.toNat + j)) ∧
      (s.kernelOutput f).getD k 0 = (f xs).getD k 0 := by
  unfold State.kernelOutput
  split
  · refine ⟨s.source, by simp, fun j hj => ?_, rfl⟩
    rw [s.source_getD j hj]; simp [State.heldValues]
  · exact ⟨s.snapshot [k], by simp, fun j hj => s.snapshot_getD_mem [k] j hj, by simp [List.getD, hk]⟩

/-! Run-length rows. -/

@[simp] theorem unmasked_sameMask (p : Byte) (xs : List Byte) : unmasked (sameMask p xs) xs = changes p xs := by
  induction xs generalizing p with
  | nil => rfl
  | cons x xs ih =>
    by_cases h : x = p
    · subst h; simp [sameMask, unmasked, changes, ih]
    · have hf : (x == p) = false := by simpa using h
      simp [sameMask, unmasked, changes, hf, h, ih]

/-- A run-length form is its mask then its literals (43_block_format R212). -/
theorem runLength_eq (p : Byte) (xs : List Byte) :
    runLength p xs = leBytes 2 (natOfBits (sameMask p xs)) ++ changes p xs := by
  simp [runLength, maskedBytes]

/-- The four candidates of a row, spelt out (44_block_encode R265). -/
theorem candidates_eq (p pd : Byte) (row : List Byte) :
    candidates p pd row =
      [{ cost := packedCost row, row := packedRow .literal row row row },
        { cost := packedCost (diffs p row), row := packedRow .delta (diffs p row) (diffs p row) row },
        { cost := runCost p row, row := { header := .runLength, min := none, payload := runLength p row } },
        { cost := runCost pd (diffs p row),
          row := { header := .deltaRunLength, min := none, payload := runLength pd (diffs p row) } }] := rfl

/-! The encoder where all readings agree. -/

@[simp] theorem rowViews_length (p pd : Byte) (rows : List (List Byte)) : (rowViews p pd rows).length = rows.length := by
  induction rows generalizing p pd with
  | nil => rfl
  | cons row rows ih => simp [rowViews, ih]

theorem encodeRows_eq_map (p pd : Byte) (rows : List (List Byte)) :
    encodeRows p pd rows = (rowViews p pd rows).map (fun v => (cheapest (candidatesSeen (fun _ => v))).row) := by
  induction rows generalizing p pd with
  | nil => rfl
  | cons row rows ih => simp only [encodeRows, rowViews, List.map_cons, ih]; rfl

theorem map_range_getD {α β : Type} (xs : List α) (d : α) (f : α → β) :
    (List.range xs.length).map (fun i => f (xs.getD i d)) = xs.map f := by
  refine List.ext_getElem (by simp) fun k h1 h2 => ?_
  have hk : k < xs.length := by simpa using h1
  simp [List.getD, hk]

theorem encodePlaneSeen_agree (r : Nat) (plane : List Byte) : encodePlaneSeen r (fun _ => plane) = encodePlane r plane := by
  have h := map_range_getD (rowViews 0 0 (pieces Config.rowBytes r plane)) { before := 0, deltaBefore := 0, bytes := [] }
    (fun v => (cheapest (candidatesSeen (fun _ => v))).row)
  rw [← encodeRows_eq_map, rowViews_length, pieces_length] at h
  simp only [encodePlaneSeen, encodePlane, rowView, h]

theorem encodePlanesSeen_agree (b r : Nat) (blk : List Byte) :
    encodePlanesSeen b r (fun _ => blk) = encodePlanes b r blk := by
  simp only [encodePlanesSeen, encodePlanes, encodePlaneSeen_agree, blockPlanes, columns, List.map_map]
  rfl

theorem bestRecordSeen_agree (b : Nat) (blk : List Byte) : bestRecordSeen b (fun _ => blk) = bestRecord b blk := by
  simp only [bestRecordSeen, bestRecord, encodePlanesSeen_agree]

theorem encodePartialSeen_agree (b : Nat) (blk : List Byte) :
    encodePartialSeen b blk.length (fun _ => blk) = encodePartial b blk := by
  simp only [encodePartialSeen, encodePartial, encodePlanesSeen_agree]

/-- The elements of a full block, found by their place (43_block_format R202). -/
theorem blockElements_getD (b e : Nat) (blk : List Byte) (h : blk.length = 256 * b) :
    (blockElements b blk).getD e [] = (blk.drop (e * b)).take b := by
  rcases Nat.lt_or_ge e 256 with he | he
  · have := pieces_getElem b Config.blockElems e blk he
    rw [← this, blockElements, List.getD_eq_getElem]
  · have hl : blk.length ≤ e * b := by rw [h]; exact Nat.mul_le_mul_right b he
    rw [blockElements, List.getD_eq_default _ _ (by simpa [Config.blockElems] using he), List.drop_eq_nil_of_le hl]
    simp

theorem encodeFullSeen_agree (lzEn : Bool) (b : Nat) (blk : List Byte) (h : blk.length = 256 * b) :
    encodeFullSeen lzEn b (fun _ => blk) = encodeFull lzEn b blk := by
  have hl : (fun (_ _ e : Nat) => (blk.drop (e * b)).take b) = lookAt (blockElements b blk) := by
    funext i k e; exact (blockElements_getD b e blk h).symm
  unfold encodeFullSeen encodeFull
  rw [hl, bestRecordSeen_agree]
  rfl

/-- Block `k` of a superblock. -/
theorem pieces_getElem_block (b k : Nat) (x : List Byte) (h : k < x.length / (256 * b)) :
    ((x.drop (k * (256 * b))).take (256 * b)).length = 256 * b := by
  have h1 : (k + 1) * (256 * b) ≤ x.length / (256 * b) * (256 * b) := Nat.mul_le_mul_right _ h
  have h2 := Nat.div_mul_le_self x.length (256 * b)
  rw [Nat.add_mul, Nat.one_mul] at h1
  simp only [List.length_take, List.length_drop]
  omega

/-- BLK_ENC's output where all readings agree is the encoding (44_block_encode R261). -/
theorem encodeSuperblockSeen_agree (lzEn : Bool) (b : Nat) (x : List Byte) :
    encodeSuperblockSeen lzEn b x.length (fun _ => x) = encodeSuperblock lzEn b x := by
  unfold encodeSuperblockSeen encodeSuperblock encodeFulls
  generalize hsize : Config.blockElems * b = size
  have hs : size = 256 * b := hsize.symm
  have htail : (x.drop (x.length / size * size)).length = x.length % size := by
    rw [List.length_drop, Nat.mod_eq_sub_div_mul]
  have hfull : (List.range (x.length / size)).map (fun k =>
        encodeFullSeen lzEn b (fun _ => (x.drop (k * size)).take size)) =
      (pieces size (x.length / size) x).map (encodeFull lzEn b) := by
    refine List.ext_getElem (by simp) fun k h1 h2 => ?_
    have hk : k < x.length / size := by simpa using h1
    rw [List.getElem_map, List.getElem_map, List.getElem_range, pieces_getElem _ _ _ _ hk]
    refine encodeFullSeen_agree lzEn b _ ?_
    subst hs
    exact pieces_getElem_block b k x hk
  have hpart : (if x.length % size = 0 then []
        else encodePartialSeen b (x.length % size) (fun _ => x.drop (x.length / size * size))) =
      if (x.drop (x.length / size * size)).isEmpty then [] else encodePartial b (x.drop (x.length / size * size)) := by
    rw [← htail, encodePartialSeen_agree]
    simp only [List.isEmpty_iff, ← List.length_eq_zero_iff]
  exact congrArg₂ (· ++ ·) (congrArg List.flatten hfull) hpart

theorem State.encodeOutput_of_settled (s : State) (lzEn : Bool) (bpp : Nat) (h : s.settled) :
    s.encodeOutput lzEn bpp = encodeSuperblock lzEn bpp s.source := by
  unfold State.encodeOutput
  split
  · rfl
  · have hs : s.snapshot = fun _ => s.source := funext (s.snapshot_of_settled h)
    rw [hs, ← s.source_length, encodeSuperblockSeen_agree]

end Sys2Proof.Machine
end

