-- ==== Sys2Proof/Laws/Readers.lean ====
section
/-! SUPPORT. The readers of the decoder leave a suffix of the stream they are given, and the decoder under a race is the
decoder where both its readings agree. -/

namespace Sys2Proof.Machine

open Sys2Proof

/-- A reader's answer `x` on the stream `t` leaves a suffix of it unread. -/
def leaves {α : Type} (x : Except Err (α × List Byte)) (t : List Byte) : Prop :=
  ∀ v r, x = .ok (v, r) → r <:+ t

theorem leaves_ok {α : Type} {v : α} {r t : List Byte} (h : r <:+ t) : leaves (.ok (v, r)) t := by
  rintro v' r' he; cases he; exact h

theorem leaves_error {α : Type} {e : Err} {t : List Byte} : leaves (.error e : Except Err (α × List Byte)) t :=
  fun _ _ h => nomatch h

theorem leaves_mono {α : Type} {x : Except Err (α × List Byte)} {r t : List Byte} (hx : leaves x r) (h : r <:+ t) :
    leaves x t := fun v r' he => (hx v r' he).trans h

/-- A reader after a reader. -/
theorem leaves_bind {α β : Type} {x : Except Err (α × List Byte)} {k : α × List Byte → Except Err (β × List Byte)}
    {t : List Byte} (hx : leaves x t) (hk : ∀ v r, leaves (k (v, r)) r) : leaves (x >>= k) t := by
  intro v r he
  match hxe : x with
  | .error e => simp [bind, Except.bind] at he
  | .ok (a, ra) => exact (hk a ra v r (by simpa [bind, Except.bind] using he)).trans (hx a ra rfl)

/-- A reader after a check. -/
theorem leaves_check {α β : Type} {x : Except Err α} {k : α → Except Err (β × List Byte)} {t : List Byte}
    (hk : ∀ v, leaves (k v) t) : leaves (x >>= k) t := by
  intro v r he
  match hxe : x with
  | .error e => simp [bind, Except.bind] at he
  | .ok a => exact hk a v r (by simpa [bind, Except.bind] using he)

theorem leaves_takeBytes (k : Nat) (t : List Byte) : leaves (takeBytes k t) t := by
  unfold takeBytes
  split
  · exact leaves_error
  · exact leaves_ok (List.drop_suffix k t)

theorem leaves_takeU8 (t : List Byte) : leaves (takeU8 t) t := by
  cases t with
  | nil => exact leaves_error
  | cons b rest => exact leaves_ok (List.suffix_cons b rest)

theorem leaves_takeU16 (t : List Byte) : leaves (takeU16 t) t :=
  leaves_bind (leaves_takeBytes 2 t) fun _ _ => leaves_ok List.suffix_rfl

theorem leaves_expandRuns (p : Byte) (bits : List Bool) (t : List Byte) : leaves (expandRuns p bits t) t := by
  induction bits generalizing p t with
  | nil => exact leaves_ok List.suffix_rfl
  | cons b bits ih =>
    cases b with
    | true => exact leaves_bind (ih p t) fun _ _ => leaves_ok List.suffix_rfl
    | false =>
      exact leaves_bind (leaves_takeU8 t) fun x r => leaves_bind (ih x r) fun _ _ => leaves_ok List.suffix_rfl

theorem leaves_decodeRow (h : RowHeader) (min p pd : Byte) (t : List Byte) : leaves (decodeRow h min p pd t) t := by
  cases h with
  | literal b => exact leaves_bind (leaves_takeBytes _ t) fun _ _ => leaves_ok List.suffix_rfl
  | delta b => exact leaves_bind (leaves_takeBytes _ t) fun _ _ => leaves_ok List.suffix_rfl
  | raw => exact leaves_takeBytes _ t
  | runLength => exact leaves_bind (leaves_takeU16 t) fun m r => leaves_expandRuns _ _ r
  | deltaRunLength =>
    exact leaves_bind (leaves_takeU16 t) fun m r => leaves_bind (leaves_expandRuns _ _ r) fun _ r =>
      leaves_ok List.suffix_rfl

theorem leaves_decodeRows (p pd : Byte) (hs : List RowHeader) (mins t : List Byte) :
    leaves (decodeRows p pd hs mins t) t := by
  induction hs generalizing p pd mins t with
  | nil => exact leaves_ok List.suffix_rfl
  | cons h hs ih =>
    exact leaves_bind (leaves_decodeRow h _ p pd t) fun row r => leaves_bind (ih _ _ _ r) fun _ r =>
      leaves_ok List.suffix_rfl

theorem leaves_decodeMins (k : Nat) (t : List Byte) : leaves (decodeMins k t) t :=
  leaves_bind (leaves_takeU16 t) fun mm r => by
    show leaves (if mm / 2 ^ k ≠ 0 then .error .invalidInput else expandRuns 0 (bitsOfNat k mm) r) r
    split
    · exact leaves_error
    · exact leaves_expandRuns _ _ r

theorem leaves_takeHeaders (r : Nat) (t : List Byte) : leaves (takeHeaders r t) t :=
  leaves_bind (leaves_takeBytes _ t) fun _ _ => leaves_check fun _ => leaves_check fun _ => leaves_ok List.suffix_rfl

theorem leaves_decodeCoded (r : Nat) (mins : Nat → List Byte → Except Err (List Byte × List Byte)) (t : List Byte)
    (hm : ∀ k t, leaves (mins k t) t) : leaves (decodeCoded r mins t) t :=
  leaves_bind (leaves_takeHeaders r t) fun _ r => leaves_bind (hm _ r) fun _ r => leaves_decodeRows _ _ _ _ r

theorem leaves_decodePlane (r : Nat) (kind : Kind) (t : List Byte) : leaves (decodePlane r kind t) t := by
  cases kind with
  | allSame => exact leaves_bind (leaves_takeU8 t) fun _ _ => leaves_ok List.suffix_rfl
  | allRaw => exact leaves_takeBytes _ t
  | normal => exact leaves_decodeCoded r _ t leaves_takeBytes
  | normalRle => exact leaves_decodeCoded r _ t leaves_decodeMins

theorem leaves_decodePlaneList (r : Nat) (kinds : List Kind) (t : List Byte) : leaves (decodePlaneList r kinds t) t := by
  induction kinds generalizing t with
  | nil => exact leaves_ok List.suffix_rfl
  | cons k ks ih =>
    exact leaves_bind (leaves_decodePlane r k t) fun _ t' => leaves_bind (ih t') fun _ _ => leaves_ok List.suffix_rfl

theorem leaves_decodePlanes (b r : Nat) (t : List Byte) : leaves (decodePlanes b r t) t :=
  leaves_bind (leaves_takeBytes _ t) fun _ t' => leaves_check fun _ => leaves_check fun kinds =>
    leaves_bind (leaves_decodePlaneList r kinds t') fun _ _ => leaves_ok List.suffix_rfl

theorem leaves_takeOffset (t : List Byte) : leaves (takeOffset t) t :=
  leaves_bind (leaves_takeU8 t) fun b0 r => by
    show leaves (if b0.toNat < 128 then .ok (b0.toNat, r)
      else do
        let (b1, t) ← takeU8 r
        .ok (b0.toNat % 128 + 128 * b1.toNat, t)) r
    split
    · exact leaves_ok List.suffix_rfl
    · exact leaves_bind (leaves_takeU8 r) fun _ _ => leaves_ok List.suffix_rfl

theorem leaves_decodeElement (b : Nat) (els : List (List Byte)) (isRef : Bool) (t : List Byte) :
    leaves (decodeElement b els isRef t) t := by
  cases isRef with
  | false => exact leaves_takeBytes b t
  | true =>
    exact leaves_bind (leaves_takeOffset t) fun off r => by
      show leaves (if off < 1 ∨ els.length < off then .error .invalidInput
        else .ok (els.getD (els.length - off) [], r)) r
      split
      · exact leaves_error
      · exact leaves_ok List.suffix_rfl

theorem leaves_decodeItems (b : Nat) (bits : List Bool) (els : List (List Byte)) (t : List Byte) :
    leaves (decodeItems b bits els t) t := by
  induction bits generalizing els t with
  | nil => exact leaves_ok List.suffix_rfl
  | cons bit bits ih => exact leaves_bind (leaves_decodeElement b els bit t) fun _ r => ih _ r

theorem leaves_decodeGroups (b n : Nat) (els : List (List Byte)) (t : List Byte) :
    leaves (decodeGroups b n els t) t := by
  induction n generalizing els t with
  | zero => exact leaves_ok List.suffix_rfl
  | succ n ih =>
    exact leaves_bind (leaves_takeU8 t) fun a r => leaves_bind (leaves_decodeItems b _ els r) fun _ r => ih _ r

theorem leaves_decodeLz (b : Nat) (t : List Byte) : leaves (decodeLz b t) t :=
  leaves_bind (leaves_decodeGroups b 32 [] t) fun _ _ => leaves_ok List.suffix_rfl

theorem leaves_decodeRecord (b : Nat) (f : Byte) (t : List Byte) : leaves (decodeRecord b f t) t := by
  unfold decodeRecord
  split
  · exact leaves_mono (leaves_takeBytes _ _) (List.drop_suffix 1 t)
  · split
    · exact leaves_mono (leaves_decodeLz b _) (List.drop_suffix 1 t)
    · split
      · exact leaves_error
      · exact leaves_decodePlanes b _ t

/-- On a suffix of the window, a look at the discriminator in the same reading sees the next byte. -/
theorem decodeFullSeen_agree (b : Nat) {look t : List Byte} (h : t <:+ look) :
    decodeFullSeen look b t = decodeFull b t := by
  cases t with
  | nil => rfl
  | cons x rest =>
    obtain ⟨pre, rfl⟩ := h
    have : (pre ++ x :: rest).getD ((pre ++ x :: rest).length - (rest.length + 1)) 0 = x := by
      simp [List.getD]
    simp only [decodeFullSeen, decodeFull, this]

theorem decodeFulls_agree (b f : Nat) {look t : List Byte} (h : t <:+ look) :
    decodeFulls (decodeFullSeen look b) f t = decodeFulls (decodeFull b) f t := by
  induction f generalizing t with
  | zero => rfl
  | succ f ih =>
    simp only [decodeFulls, decodeFullSeen_agree b h]
    match hd : decodeFull b t with
    | .error e => rfl
    | .ok (blk, r) =>
      have hr : r <:+ t := by
        cases t with
        | nil => simp [decodeFull] at hd
        | cons x rest => exact leaves_decodeRecord b x _ _ _ hd
      simp only [bind, Except.bind, ih (hr.trans h)]

/-- BLK_DEC's decoding where both readings agree (45_block_decode R310). -/
theorem decodeWith_agree (b n : Nat) (t : List Byte) :
    decodeWith (decodeFullSeen t b) b n t = decodeSuperblock b n t := by
  simp only [decodeSuperblock, decodeWith, decodeFulls_agree b _ List.suffix_rfl]

theorem State.decodeOutput_of_settled (s : State) (bpp : Nat) (h : s.settled) :
    s.decodeOutput bpp = decodeSuperblock bpp s.latch.olen.toNat s.source := by
  unfold State.decodeOutput
  split
  · rfl
  · rw [s.snapshot_of_settled h, s.snapshot_of_settled h, decodeWith_agree]

end Sys2Proof.Machine
end

