-- ==== Sys2Proof/Tests/Slice0.lean ====
section
/-! SUPPORT. Tests of the model against the spec's own examples, and a witness for every statement that has hypotheses.
Expected values come from spec/ (the rule is named at each test), not from the model. -/

namespace Sys2Proof.Tests

open Sys2Proof Sys2Proof.Machine

/-! Helpers. -/

/-- Bytes from numbers. -/
def bytes (l : List Nat) : List Byte := l.map (BitVec.ofNat 8)

/-- The machine after reset with `src` at 0x1000 and a command with word `w` in flight, its destination window at
0x2000 with `cap` bytes. -/
def running (w : Word) (src : List Byte) (cap : Nat) (olen : Nat := 0) : State :=
  let as : Args :=
    { src := 0x1000, dst := 0x2000, len := BitVec.ofNat 64 src.length, olen := BitVec.ofNat 64 olen,
      cap := BitVec.ofNat 64 cap }
  { { State.reset with mem := State.reset.mem.writeBytes 0x1000 src, args := as }.startCommand w with script := [] }

/-- `running` with other windows. -/
def runningAt (w : Word) (src len dst cap : Nat) : State :=
  { State.reset with
    args := { src := BitVec.ofNat 64 src, dst := BitVec.ofNat 64 dst, len := BitVec.ofNat 64 len, olen := 0,
              cap := BitVec.ofNat 64 cap } }.startCommand w

/-- STATUS, RESULT and the bytes at 0x2000 after the next step. -/
def outcome (s : State) : Option (Nat × Nat × List Byte) :=
  match step s with
  | .next t => some ((t.readReg .status).toNat, t.result.toNat, t.mem.readBytes 0x2000 t.result.toNat)
  | .fault _ => none
  | .refused _ => none

/-- The state that a command leaves. -/
def after (i : Instr) (s : State) : State :=
  match exec i s with
  | .next t => t
  | .fault _ => s
  | .refused _ => s

/-- `t` with its latched source moved to what `s`'s command wrote at 0x2000, and its destination to 0x3000 with `cap`
bytes. -/
def feed (t : State) (cap : Nat) : State :=
  { t with latch := { src := 0x2000, dst := 0x3000, len := t.result, olen := t.latch.len, cap := BitVec.ofNat 64 cap } }

/-- The ERRCODE of the next step. -/
def errcode (s : State) : Option Byte :=
  match step s with
  | .next t => some t.status.errcode
  | .fault _ => none
  | .refused _ => none

/-- Where the host stored into neither window, there is no hazard. -/
theorem quiet {s : State} (h : s.unraced = true ∧ s.hostStores = []) : s.hazardFree :=
  ⟨s.settled_of_unraced h.1, h.2⟩

/-- A host store of a word to the register at `off`. -/
def wr (off : Nat) (w : Word) : Event := .store (0xFFFF0000 + off) (leBytes 4 w.toNat)

/-! Well-formedness: BPP has 16 bits (30_encoding R91). -/

theorem test_wf_refuses_wide_nop : (Instr.nop 65536).wf = false := by decide
theorem test_wf_refuses_wide_shuffle : (Instr.shuffle 65536).wf = false := by decide
theorem test_wf_refuses_wide_unshuffle : (Instr.unshuffle 65536).wf = false := by decide
theorem test_wf_refuses_wide_delta : (Instr.delta 65536).wf = false := by decide
theorem test_wf_refuses_wide_deltaInv : (Instr.deltaInv 65536).wf = false := by decide
theorem test_wf_refuses_wide_blkEnc : (Instr.blkEnc true 65536).wf = false := by decide
theorem test_wf_refuses_wide_blkDec : (Instr.blkDec 65536).wf = false := by decide

/-! Decoding: words written out from the fields of 30_encoding R90, BPP RSV1 LZ_EN RSV0 OP. -/

theorem test_decode_nop : decode 0b0000000000000000_0000000_0_0000_0000#32 = .ok (.nop 0) := by decide
theorem test_decode_shuffle : decode 0b0000000000000100_0000000_0_0000_0001#32 = .ok (.shuffle 4) := by decide
theorem test_decode_unshuffle : decode 0b1000000000000001_0000000_0_0000_0010#32 = .ok (.unshuffle 32769) := by decide
theorem test_decode_delta : decode 0b0000000000000000_0000000_0_0000_0011#32 = .ok (.delta 0) := by decide
theorem test_decode_deltaInv : decode 0b0000000000000000_0000000_0_0000_0100#32 = .ok (.deltaInv 0) := by decide
theorem test_decode_blkEnc : decode 0b0000000000000011_0000000_0_0000_0101#32 = .ok (.blkEnc false 3) := by decide
theorem test_decode_blkEnc_lz : decode 0b0000000000000100_0000000_1_0000_0101#32 = .ok (.blkEnc true 4) := by decide
theorem test_decode_blkDec : decode 0b1111111111111111_0000000_0_0000_0110#32 = .ok (.blkDec 65535) := by decide

/-- 30_encoding R93: OP 7 and OP 15. -/
theorem test_decode_reserved_op :
    decode 0b0000000000000001_0000000_0_0000_0111#32 = .error .reservedOpcode ∧
    decode 0b0000000000000001_0000000_0_0000_1111#32 = .error .reservedOpcode := by decide

/-- 30_encoding R94: each end of RSV0 and of RSV1, whatever OP is. -/
theorem test_decode_reserved_bits :
    decode 0b0000000000000000_0000000_0_0001_0000#32 = .error .reservedBits ∧
    decode 0b0000000000000000_0000000_0_1000_0011#32 = .error .reservedBits ∧
    decode 0b0000000000000001_0000001_0_0000_0101#32 = .error .reservedBits ∧
    decode 0b0000000000000001_1000000_0_0000_0111#32 = .error .reservedBits := by decide

/-- 30_encoding R95: LZ_EN with an OP other than BLK_ENC. -/
theorem test_decode_lz_elsewhere :
    decode 0b0000000000000100_0000000_1_0000_0110#32 = .error .lzNotAllowed ∧
    decode 0b0000000000000000_0000000_1_0000_0000#32 = .error .lzNotAllowed := by decide

theorem test_decodeTableWord_reads_the_row : decodeTableWord 32 0x00040105 = some (.blkEnc true 4) := by decide

/-! Commands, on the spec's examples. -/

/-- 40_control R130: STATUS = 2, RESULT = 0, with no window check. -/
theorem test_nop : outcome (runningAt 0xFFFF0000 0 5 0 5) = some (2, 0, []) := by decide

/-- 41_transpose R151, BPP = 3. -/
theorem test_shuffle : outcome (running 0x00030001 (bytes [0, 1, 2, 3, 4, 5]) 6) =
    some (2, 6, bytes [0, 3, 1, 4, 2, 5]) := by decide

/-- 41_transpose R150: BPP above LEN > 0 is InvalidParameter. -/
theorem test_shuffle_wide : outcome (running 0x00070001 (bytes [0, 1, 2, 3, 4, 5]) 6) = some (0x0902, 0, []) := by decide

/-- 41_transpose R155, BPP = 3. -/
theorem test_unshuffle : outcome (running 0x00030002 (bytes [0, 3, 1, 4, 2, 5]) 6) =
    some (2, 6, bytes [0, 1, 2, 3, 4, 5]) := by decide

/-- 41_transpose R155, R150: BPP = 0 is InvalidParameter. -/
theorem test_unshuffle_zero : outcome (running 0x00000002 (bytes [0]) 6) = some (0x0902, 0, []) := by decide

/-- 42_delta R177. -/
theorem test_delta : outcome (running 0x00000003 (bytes [0x0A, 0x0C, 0x0B, 0xFF, 0x00]) 5) =
    some (2, 5, bytes [0x0A, 0x02, 0xFF, 0xF4, 0x01]) := by decide

/-- 42_delta R170: CAP < LEN is DstOverflow; a BPP field is ignored. -/
theorem test_delta_overflow : outcome (running 0xABCD0003 (bytes [1, 2]) 1) = some (0x0602, 0, []) := by decide

/-- 42_delta R177. -/
theorem test_deltaInv : outcome (running 0x00000004 (bytes [0x0A, 0x02, 0xFF, 0xF4, 0x01]) 5) =
    some (2, 5, bytes [0x0A, 0x0C, 0x0B, 0xFF, 0x00]) := by decide

/-- 42_delta R175: no byte. -/
theorem test_deltaInv_empty : outcome (running 0x00000004 [] 5) = some (2, 0, []) := by decide

/-- 44_block_encode R300: the partial tail of 34 u16 elements 1000, 1003, … and a byte 0xAB. -/
theorem test_blkEnc_partial :
    outcome (running 0x00020005
      (((List.range 34).map (fun j => leBytes 2 (1000 + 3 * j))).flatten ++ [0xAB]) 18) =
    some (2, 18, bytes [0xFE, 0x22, 0x86, 0x03, 0xFC, 0xFF, 0xE8, 0x03, 0x01, 0x03, 0x04, 0x00, 0xFF, 0x48, 0x04,
      0x4B, 0x04, 0xAB]) := by decide +kernel

/-- 43_block_format R231, 44_block_encode R260: 256 × 0x7B in a window one byte too small is DstOverflow. -/
theorem test_blkEnc_overflow :
    outcome (running 0x00010005 (List.replicate 256 0x7B) 1) = some (0x0602, 0, []) := by decide +kernel

/-- 45_block_decode R310, R321: a whole superblock, then a trailing byte. -/
theorem test_blkDec : outcome (running 0x00010006 (bytes [0x00, 0x7B]) 256 256) =
    some (2, 256, List.replicate 256 0x7B) := by decide +kernel

/-- 45_block_decode R321: the decoder examples that end in an error. -/
theorem test_blkDec_defects :
    errcode (running 0x00010006 (bytes [0x00]) 256 0) = some 0x04 ∧
    errcode (running 0x00010006 (bytes [0x00]) 256 256) = some 0x02 ∧
    errcode (running 0x00010006 (bytes [0x02, 0x0E, 0, 0, 0, 0, 0, 0, 0]) 256 256) = some 0x04 ∧
    errcode (running 0x00010006 (bytes [0x10, 0x7B]) 256 256) = some 0x04 ∧
    errcode (running 0x00040006 (bytes [0xFD, 0x02, 0, 0, 0, 0, 0x05]) 1024 1024) = some 0x04 := by decide +kernel

/-- 44_block_encode R267: the rows that the rule lists as raw and as run-length. -/
theorem test_chooseRow :
    (chooseRow 0 0 (bytes [0x05, 0x35, 0xAF, 0x73, 0x81, 0xD9, 0x7B, 0x67, 0x9D, 0x1D, 0xE7, 0xFB, 0x59, 0x01, 0xF3,
      0x2F])).row.header = .raw ∧
    (chooseRow 5 0 (bytes [0x0A, 0x0B, 0x0C, 0x0D, 0x0E, 0x0F, 0x10, 0x11, 0x12, 0x13, 0x14, 0x15, 0x16, 0x17, 0x18,
      0x19])).row.payload = bytes [0xFC, 0xFF, 0x05, 0x01] := by decide

/-! Start, completion, registers, reset. -/

/-- 40_control R121, R122: a CMD write starts a command; a second one is dropped and sets OVR. -/
theorem test_start_then_drop :
    (match step { State.reset with script := [wr 0x0C 3, wr 0x0C 7] } with
      | .next t => (match step t with
        | .next u => (u.readReg .status, u.cmd)
        | .fault _ => (0, 0)
        | .refused _ => (0, 0))
      | .fault _ => (0, 0)
      | .refused _ => (0, 0)) = (5#32, 3#32) := by decide

/-- `withFetchWord` places a command that the very next step runs. -/
theorem test_withFetchWord : outcome (State.reset.withFetchWord 32 0x00040001) = some (2, 0, []) := by decide

theorem test_reset_memory_wf : State.reset.mem.wf = true := by decide

/-! Witnesses: for every statement that has hypotheses, values that meet all of them together. -/

/-- The source bytes 0 to 15. -/
def sixteen : List Byte := bytes (List.range 16)

theorem witness_DecodeInvertsEncode : (Instr.blkEnc true 65535).wf = true ∧ (Instr.nop 0).wf = true := by decide

theorem witness_EncodeInvertsDecode : decode 0xFFFF0105#32 = .ok (.blkEnc true 65535) := by decide

theorem witness_ReservedWordsAreIllegal :
    (running 7 [] 0).status.busy = true ∧ (running 7 [] 0).engineNext ∧
    decode (running 7 [] 0).latchCmd = .error .reservedOpcode := by decide

theorem witness_StepRunsDecodedCommand :
    ((running 0x00040001 sixteen 16).status.busy = true ∧ (running 0x00040001 sixteen 16).engineNext ∧
      decode (running 0x00040001 sixteen 16).latchCmd = .ok (.shuffle 4) ∧ (Instr.shuffle 4).wf = true) ∧
    (State.reset.status.busy = false ∧ State.reset.engineNext) := by decide

theorem witness_WrittenCommandRuns :
    ({ State.reset with script := [wr 0x0C 3, .engine] }).status.busy = false ∧
    ({ State.reset with script := [wr 0x0C 3, .engine] }).nextWrites 0x0C 3 [.engine] ∧
    decode 3#32 = .ok (.delta 0) := by decide

/-- A shuffle that fills its window, and one of no byte. -/
theorem witness_ShuffleTransposes :
    ((1 ≤ 4 ∧ (running 0x00040001 sixteen 16).latch.len.toNat % 4 = 0 ∧ (running 0x00040001 sixteen 16).windowsOk ∧
      (running 0x00040001 sixteen 16).latch.len.toNat ≤ (running 0x00040001 sixteen 16).latch.cap.toNat ∧
      (running 0x00040001 [] 0).latch.len.toNat % 4 = 0 ∧ (running 0x00040001 [] 0).windowsOk)) ∧
    (running 0x00040001 sixteen 16).hazardFree ∧ (running 0x00040001 [] 0).hazardFree :=
  ⟨by decide, quiet (by decide), quiet (by decide)⟩

theorem witness_UnshuffleTransposesBack :
    (1 ≤ 16 ∧ (running 0x00100002 sixteen 16).latch.len.toNat % 16 = 0 ∧ (running 0x00100002 sixteen 16).windowsOk ∧
      (running 0x00100002 sixteen 16).latch.len.toNat ≤ (running 0x00100002 sixteen 16).latch.cap.toNat) ∧
    (running 0x00100002 sixteen 16).hazardFree := ⟨by decide, quiet (by decide)⟩

/-- Source and destination of 2049 bytes: the least length with four streams. -/
theorem witness_DeltaWritesDifferences :
    ((running 3 sixteen 16).windowsOk ∧
      (running 3 sixteen 16).latch.len.toNat ≤ (running 3 sixteen 16).latch.cap.toNat ∧
      copiedByDelta 16 0 ∧ ¬ copiedByDelta 16 15 ∧ (runningAt 3 0x1000 2049 0x4000 2049).windowsOk ∧
      copiedByDelta 2049 512 ∧ copiedByDelta 2049 2048 ∧ ¬ copiedByDelta 2049 2047) ∧
    (running 3 sixteen 16).hazardFree ∧ (runningAt 3 0x1000 2049 0x4000 2049).hazardFree :=
  ⟨by decide, quiet (by decide), quiet (by decide)⟩

theorem witness_DeltaInvWritesSums :
    ((running 4 sixteen 17).windowsOk ∧
      (running 4 sixteen 17).latch.len.toNat ≤ (running 4 sixteen 17).latch.cap.toNat ∧
      copiedByDelta 2048 0 ∧ ¬ copiedByDelta 2048 512) ∧
    (running 4 sixteen 17).hazardFree := ⟨by decide, quiet (by decide)⟩

/-- Ten bytes of width 4 encode to eleven (43_block_format R231): a capacity of 11 holds them, one of 10 does not. -/
theorem witness_BlkEncWritesEncoding :
    (1 ≤ 4 ∧ (running 0x00040005 (bytes (List.range 10)) 11).latch.len.toNat < 2 ^ 24 ∧
      (running 0x00040005 (bytes (List.range 10)) 11).windowsOk ∧
      (encodeSuperblock false 4 (running 0x00040005 (bytes (List.range 10)) 11).source).length ≤ 11 ∧
      10 < (encodeSuperblock false 4 (running 0x00040005 (bytes (List.range 10)) 10).source).length) ∧
    (running 0x00040005 (bytes (List.range 10)) 11).hazardFree ∧
    (running 0x00040005 (bytes (List.range 10)) 10).hazardFree :=
  ⟨by decide, quiet (by decide), quiet (by decide)⟩

theorem witness_BlkDecWritesDecoding :
    (1 ≤ 1 ∧ (running 0x00010006 (bytes [0, 0x7B]) 256 256).latch.len.toNat < 2 ^ 24 ∧
      (running 0x00010006 (bytes [0, 0x7B]) 256 256).latch.olen.toNat < 2 ^ 24 ∧
      (running 0x00010006 (bytes [0, 0x7B]) 256 256).windowsOk ∧
      (running 0x00010006 (bytes [0, 0x7B]) 256 256).latch.olen.toNat ≤
        (running 0x00010006 (bytes [0, 0x7B]) 256 256).latch.cap.toNat ∧
      decodeSuperblock 1 (running 0x00010006 (bytes [0, 0x7B]) 256 256).latch.olen.toNat
        (running 0x00010006 (bytes [0, 0x7B]) 256 256).source = .ok (List.replicate 256 0x7B)) ∧
    (running 0x00010006 (bytes [0, 0x7B]) 256 256).hazardFree := ⟨by decide +kernel, quiet (by decide)⟩

/-- The stream `00`: with OLEN 256 it is too short, with OLEN 0 it is one byte too long. -/
theorem witness_BlkDecStreamDefect :
    (1 ≤ 1 ∧ (running 0x00010006 (bytes [0]) 256 256).latch.len.toNat < 2 ^ 24 ∧
      (running 0x00010006 (bytes [0]) 256 256).latch.olen.toNat < 2 ^ 24 ∧
      (running 0x00010006 (bytes [0]) 256 256).windowsOk ∧
      (running 0x00010006 (bytes [0]) 256 256).latch.olen.toNat ≤
        (running 0x00010006 (bytes [0]) 256 256).latch.cap.toNat ∧
      decodeSuperblock 1 256 (running 0x00010006 (bytes [0]) 256 256).source = .error .srcOverflow ∧
      (running 0x00010006 (bytes [0]) 256 0).latch.olen.toNat = 0 ∧ (running 0x00010006 (bytes [0]) 256 0).windowsOk ∧
      decodeSuperblock 1 0 (running 0x00010006 (bytes [0]) 256 0).source = .error .invalidInput) ∧
    (running 0x00010006 (bytes [0]) 256 256).hazardFree ∧ (running 0x00010006 (bytes [0]) 256 0).hazardFree :=
  ⟨by decide, quiet (by decide), quiet (by decide)⟩

/-- Shuffle 0 to 15 and unshuffle what it wrote, and the other way round. -/
theorem witness_ShuffleCommandsUndoEachOther :
    ((running 0x00040001 sixteen 16).hazardFree ∧
      outputFeeds (running 0x00040001 sixteen 16) (after (.shuffle 4) (running 0x00040001 sixteen 16))
        (feed (after (.shuffle 4) (running 0x00040001 sixteen 16)) 16) ∧
      validateByR123 (.shuffle 4) (running 0x00040001 sixteen 16) = none ∧
      validateByR123 (.unshuffle 4) (feed (after (.shuffle 4) (running 0x00040001 sixteen 16)) 16) = none) ∧
    ((running 0x00020002 sixteen 16).hazardFree ∧
      outputFeeds (running 0x00020002 sixteen 16) (after (.unshuffle 2) (running 0x00020002 sixteen 16))
        (feed (after (.unshuffle 2) (running 0x00020002 sixteen 16)) 16) ∧
      validateByR123 (.unshuffle 2) (running 0x00020002 sixteen 16) = none ∧
      validateByR123 (.shuffle 2) (feed (after (.unshuffle 2) (running 0x00020002 sixteen 16)) 16) = none) :=
  ⟨⟨quiet (by decide), ⟨quiet (by decide +kernel), by decide +kernel⟩, by decide, by decide +kernel⟩,
    quiet (by decide), ⟨quiet (by decide +kernel), by decide +kernel⟩, by decide, by decide +kernel⟩

/-- The states `after` gives in the witnesses are next states. -/
theorem witness_after :
    exec (.shuffle 4) (running 0x00040001 sixteen 16) = .next (after (.shuffle 4) (running 0x00040001 sixteen 16)) ∧
    exec (.unshuffle 2) (running 0x00020002 sixteen 16) = .next (after (.unshuffle 2) (running 0x00020002 sixteen 16)) ∧
    exec (.delta 0) (running 3 sixteen 16) = .next (after (.delta 0) (running 3 sixteen 16)) ∧
    exec (.deltaInv 0) (running 4 sixteen 16) = .next (after (.deltaInv 0) (running 4 sixteen 16)) ∧
    exec (.blkEnc false 4) (running 0x00040005 sixteen 17) =
      .next (after (.blkEnc false 4) (running 0x00040005 sixteen 17)) :=
  ⟨rfl, rfl, rfl, rfl, rfl⟩

theorem witness_DeltaCommandsUndoEachOther :
    ((running 3 sixteen 16).hazardFree ∧
      outputFeeds (running 3 sixteen 16) (after (.delta 0) (running 3 sixteen 16))
        (feed (after (.delta 0) (running 3 sixteen 16)) 16) ∧
      validateByR123 (.delta 0) (running 3 sixteen 16) = none ∧
      validateByR123 (.deltaInv 9) (feed (after (.delta 0) (running 3 sixteen 16)) 16) = none) ∧
    ((running 4 sixteen 16).hazardFree ∧
      outputFeeds (running 4 sixteen 16) (after (.deltaInv 0) (running 4 sixteen 16))
        (feed (after (.deltaInv 0) (running 4 sixteen 16)) 16) ∧
      validateByR123 (.deltaInv 0) (running 4 sixteen 16) = none ∧
      validateByR123 (.delta 9) (feed (after (.deltaInv 0) (running 4 sixteen 16)) 16) = none) :=
  ⟨⟨quiet (by decide), ⟨quiet (by decide +kernel), by decide +kernel⟩, by decide, by decide +kernel⟩,
    quiet (by decide), ⟨quiet (by decide +kernel), by decide +kernel⟩, by decide, by decide +kernel⟩

theorem witness_BlockCommandsRoundTrip :
    4 ≤ 65535 ∧ (running 0x00040005 sixteen 17).hazardFree ∧
    outputFeeds (running 0x00040005 sixteen 17) (after (.blkEnc false 4) (running 0x00040005 sixteen 17))
      (feed (after (.blkEnc false 4) (running 0x00040005 sixteen 17)) 16) ∧
    validateByR123 (.blkEnc false 4) (running 0x00040005 sixteen 17) = none ∧
    (after (.blkEnc false 4) (running 0x00040005 sixteen 17)).status.errcode = 0 ∧
    (feed (after (.blkEnc false 4) (running 0x00040005 sixteen 17)) 16).latch.olen =
      (running 0x00040005 sixteen 17).latch.len ∧
    validateByR123 (.blkDec 4) (feed (after (.blkEnc false 4) (running 0x00040005 sixteen 17)) 16) = none :=
  ⟨by decide, quiet (by decide), ⟨quiet (by decide +kernel), by decide +kernel⟩, by decide +kernel⟩

/-- An illegal word; each check of 40_control R123 as the first that fails, at its boundary; and commands that pass. -/
theorem witness_FirstFailingCheckDecides :
    decode (running 7 [] 0).latchCmd = .error .reservedOpcode ∧
    validateByR123 (.shuffle 0) (running 1 sixteen 15) = some .invalidParameter ∧
    validateByR123 (.shuffle 15) (running 1 sixteen 15) = some .invalidParameter ∧
    validateByR123 (.blkEnc false 1) (runningAt 5 0xFFFFF000 0x1000000 0x2000 1) = some .invalidParameter ∧
    validateByR123 (.delta 0) (runningAt 3 0xFFFFFFFF 2 0x2000 0) = some .invalidParameter ∧
    validateByR123 (.delta 0) (runningAt 3 0x1000 16 0x100F 16) = some .invalidParameter ∧
    validateByR123 (.delta 0) (runningAt 3 0x1000 16 0xFFFF8 9) = some .busFault ∧
    validateByR123 (.delta 0) (runningAt 3 0x1000 16 0x1010 15) = some .dstOverflow ∧
    validateByR123 (.delta 0) (runningAt 3 0x1000 16 0xFFFF0 16) = none ∧ (Instr.delta 0).op ≤ 4 ∧
    validateByR123 (.nop 0) (runningAt 0 0xFFFFFFFF 2 0x2000 0) = none ∧ (Instr.nop 0).op ≤ 4 := by decide

/-- A command that ends in an error, and one that succeeds. -/
theorem witness_ErrorWritesNothing :
    engineStep (running 0x00000001 sixteen 16) = .next (after (.shuffle 0) (running 0x00000001 sixteen 16)) ∧
    (after (.shuffle 0) (running 0x00000001 sixteen 16)).status.errcode ≠ 0 := ⟨rfl, by decide⟩

theorem witness_SuccessWritesOnlyResult :
    engineStep (running 0x00040001 sixteen 16) = .next (after (.shuffle 4) (running 0x00040001 sixteen 16)) ∧
    (after (.shuffle 4) (running 0x00040001 sixteen 16)).status.errcode = 0 ∧
    (running 0x00040001 sixteen 16).inSource 0x100F = true := ⟨rfl, by decide, by decide⟩

/-- The same 16 source bytes, one command over them with its destination elsewhere and OVR and IE set. -/
theorem witness_OutputDependsOnOperandsOnly :
    let s₁ := running 0x00040001 sixteen 16
    let s₂ := { s₁ with
      ie := true, status := { s₁.status with ovr := true }, latch := { s₁.latch with dst := 0x5000 } }
    s₁.hazardFree ∧ s₂.hazardFree ∧ s₁.source = s₂.source ∧ s₁.latch.olen = s₂.latch.olen ∧
    s₁.latch.cap = s₂.latch.cap ∧ validateByR123 (.shuffle 4) s₁ = none ∧ validateByR123 (.shuffle 4) s₂ = none ∧
    (after (.shuffle 4) s₂).status.errcode = 0 := ⟨quiet (by decide), quiet (by decide), by decide⟩

theorem witness_WorkingStorageUnobserved :
    step (running 0x00040001 sixteen 16) = .next (after (.shuffle 4) (running 0x00040001 sixteen 16)) := rfl

/-! Host accesses: a script whose next event is the one the statement asks for. -/

/-- The machine after reset with one event to come. -/
def facing (e : Event) : State := { State.reset with script := [e] }

/-- A shuffle in flight with one event to come. -/
def busyFacing (e : Event) : State := { running 0x00040001 sixteen 16 with script := [e] }

theorem witness_StartLatchesArguments :
    (facing (wr 0x0C 7)).status.busy = false ∧ (facing (wr 0x0C 7)).nextWrites 0x0C 7 [] := by decide

theorem witness_DroppedCommandSetsOverrun :
    (busyFacing (wr 0x0C 7)).status.busy = true ∧ (busyFacing (wr 0x0C 7)).nextWrites 0x0C 7 [] := by decide

theorem witness_StatusStoreClearsByOne : (facing (wr 0x08 6)).nextWrites 0x08 6 [] := by decide

theorem witness_CtrlStoreSetsInterruptEnable :
    (facing (wr 0x04 1)).nextWrites 0x04 1 [] ∧ (1#32).getLsbD 1 = false := by decide

theorem witness_ArgumentHalvesAreIndependent :
    Reg.srcHi ∈ [Reg.srcLo, .srcHi, .dstLo, .dstHi, .lenLo, .lenHi, .olenLo, .olenHi, .capLo, .capHi] ∧
    Reg.srcLo ≠ Reg.srcHi := by decide

/-- The last word of the block, a narrow access, a misaligned one, and a read of STATUS. -/
theorem witness_RegisterAccessWidths :
    (0xFC < 256 ∧ (facing (.load (0xFFFF0000 + 0xFC) 4)).script =
      .load ((facing (.load (0xFFFF0000 + 0xFC) 4)).platform.mmioBase + 0xFC) 4 :: []) ∧
    (0xFF < 256 ∧ (facing (.load (0xFFFF0000 + 0xFF) 1)).script =
      .load ((facing (.load (0xFFFF0000 + 0xFF) 1)).platform.mmioBase + 0xFF) 1 :: []) ∧
    (0x0E < 256 ∧ (facing (.store (0xFFFF0000 + 0x0E) [1, 0, 0, 0])).script =
      .store ((facing (.store (0xFFFF0000 + 0x0E) [1, 0, 0, 0])).platform.mmioBase + 0x0E) [1, 0, 0, 0] :: []) ∧
    (0x08 < 256 ∧ (facing (.load (0xFFFF0000 + 0x08) 4)).script =
      .load ((facing (.load (0xFFFF0000 + 0x08) 4)).platform.mmioBase + 0x08) 4 :: [] ∧
      (facing (.load (0xFFFF0000 + 0x08) 4)).status.busy = false) := by
  decide

theorem witness_ReadOnlyRegistersIgnoreWrites :
    Reg.caps ∈ [Reg.id, .resultLo, .resultHi, .caps, .reserved] ∧ State.reset.platform.valid = true ∧ 0x44 ≤ 0x44 := by
  decide

theorem witness_ResetRestoresRegisters :
    (facing .powerOn).nextResets [] ∧ (facing (wr 0x04 3)).nextResets [] ∧ (facing .powerOn).status.busy = false :=
  ⟨.inl rfl, .inr ⟨3, by decide, by decide⟩, rfl⟩

theorem witness_ResetAbortsCommand :
    (busyFacing .powerOn).status.busy = true ∧ (busyFacing .powerOn).nextResets [] ∧
    (busyFacing (wr 0x04 2)).nextResets [] ∧ (busyFacing .powerOn).inSource 0x1000 = true :=
  ⟨rfl, .inl rfl, .inr ⟨2, by decide, by decide⟩, by decide⟩

/-- IRQ rises in a completion and in a store to CTRL. -/
theorem witness_IrqChangesOnlyAtItsEvents_rises :
    let s := { running 0 [] 0 with ie := true }
    let u := { facing (wr 0x04 1) with status := { Status.zero with done := true } }
    s.irq = false ∧ (step s = .next (after (.nop 0) s)) ∧ (after (.nop 0) s).irq = true ∧
    u.irq = false ∧ step u = .next { u with script := [], ie := true } ∧ ({ u with script := [], ie := true }).irq = true :=
  ⟨rfl, rfl, rfl, rfl, rfl, rfl⟩

/-- IRQ falls in the start of a command, in a store to STATUS and in a reset. -/
theorem witness_IrqChangesOnlyAtItsEvents_falls :
    let s := fun e => { facing e with ie := true, status := { Status.zero with done := true } }
    (s (wr 0x0C 0)).irq = true ∧ step (s (wr 0x0C 0)) = .next ({ s (wr 0x0C 0) with script := [] }.startCommand 0) ∧
    ({ s (wr 0x0C 0) with script := [] }.startCommand 0).irq = false ∧
    step (s (wr 0x08 2)) = .next { s (wr 0x08 2) with script := [], status := Status.zero } ∧
    step (s .powerOn) = .next { s .powerOn with script := [] }.resetEngine ∧
    ({ s .powerOn with script := [] }.resetEngine).irq = false :=
  ⟨rfl, rfl, rfl, rfl, rfl, rfl⟩

/-- BUSY stays over a dropped command, rises at a start, and falls in a completion. -/
theorem witness_LatchedCopiesFixedWhileBusy :
    (busyFacing (wr 0x0C 7)).status.busy = true ∧
    step (busyFacing (wr 0x0C 7)) = .next ({ busyFacing (wr 0x0C 7) with script := [] }.dropCommand) ∧
    ({ busyFacing (wr 0x0C 7) with script := [] }.dropCommand).status.busy = true := ⟨rfl, rfl, rfl⟩

/-- BUSY falls in a completion, a power-on reset and a store of SRST, and rises in a store to CMD. -/
theorem witness_BusyChangesOnlyAtItsEvents :
    ((running 0 [] 0).status.busy = true ∧ step (running 0 [] 0) = .next (after (.nop 0) (running 0 [] 0)) ∧
      (after (.nop 0) (running 0 [] 0)).status.busy = false) ∧
    ((busyFacing .powerOn).status.busy = true ∧
      step (busyFacing .powerOn) = .next ({ busyFacing .powerOn with script := [] }.resetEngine) ∧
      ({ busyFacing .powerOn with script := [] }.resetEngine).status.busy = false) ∧
    ((busyFacing (wr 0x04 3)).status.busy = true ∧
      step (busyFacing (wr 0x04 3)) = .next ({ busyFacing (wr 0x04 3) with script := [] }.resetEngine) ∧
      ({ busyFacing (wr 0x04 3) with script := [] }.resetEngine).status.busy = false) ∧
    ((facing (wr 0x0C 7)).status.busy = false ∧
      step (facing (wr 0x0C 7)) = .next ({ facing (wr 0x0C 7) with script := [] }.startCommand 7) ∧
      ({ facing (wr 0x0C 7) with script := [] }.startCommand 7).status.busy = true) :=
  ⟨⟨rfl, rfl, rfl⟩, ⟨rfl, rfl, rfl⟩, ⟨rfl, rfl, rfl⟩, rfl, rfl, rfl⟩

/-- A store and a load that end at the last byte of memory, and a load and a store that pass it; and while a shuffle runs, a
store that ends with the first byte of its source window, one that ends before it, and a load that ends before the
destination window. -/
theorem witness_HostReachesMemory :
    ((facing (.store 0xFFFFE [1, 2])).status.busy = false ∧ (facing (.store 0xFFFFE [1, 2])).unseen = [] ∧
      (facing (.store 0xFFFFE [1, 2])).script = .store 0xFFFFE [1, 2] :: [] ∧
      inBlock (facing (.store 0xFFFFE [1, 2])).platform 0xFFFFE = false ∧
      0xFFFFE + [(1 : Byte), 2].length ≤ (facing (.store 0xFFFFE [1, 2])).platform.memSize) ∧
    (let s := busyFacing (.store 0xFFF [1, 2]);
      s.status.busy = true ∧ s.script = .store 0xFFF [1, 2] :: [] ∧ s.inSource (0xFFF + 1) = true ∧
      s.unseenAt 0xFFF = none ∧ inBlock s.platform 0xFFF = false ∧ s.inSource 0xFFF = false ∧
      s.inDest 0xFFF = false) ∧
    ((facing (.load 0xFFFFE 2)).status.busy = false ∧ (facing (.load 0xFFFFE 2)).unseen = [] ∧
      inBlock State.reset.platform 0xFFFFE = false ∧ 0xFFFFE + 2 ≤ State.reset.platform.memSize) ∧
    ((busyFacing (.load 0x1FFF 1)).status.busy = true ∧ (busyFacing (.load 0x1FFF 1)).unseen = [] ∧
      (busyFacing (.load 0x1FFF 1)).inDest 0x1FFF = false) ∧
    ((facing (.load 0xFFFFE 3)).script = .load 0xFFFFE 3 :: [] ∧ State.reset.platform.memSize < 0xFFFFE + 3) ∧
    ((facing (.store 0xFFFFE [1, 2, 3])).script = .store 0xFFFFE [1, 2, 3] :: [] ∧
      State.reset.platform.memSize < 0xFFFFE + [(1 : Byte), 2, 3].length) := by decide

/-- The machine after a shuffle that wrote 16 bytes at 0x2000 and whose completion is not observed, with `es` to come. -/
def finished (es : List Event) : State := { after (.shuffle 4) (running 0x00040001 sixteen 16) with script := es }

/-- A load of what a command in flight will write, its turn next; and one of what a command wrote, not observed. -/
theorem witness_HostLoadsOldOrNewBytes :
    let s := { running 0x00040001 sixteen 16 with script := [.load 0x2001 1, .engine] }
    let t := { s with script := [.engine], hostData := [s.loadByte s.comingOutput 0x2001], loads := 1 }
    (s.status.busy = true ∧ s.hostStores = [] ∧ s.unseen = [] ∧ inBlock s.platform 0x2001 = false ∧
      0x2001 + 1 ≤ s.platform.memSize ∧ s.visible s.comingOutput 0x2001 = [0, 4]) ∧
    step s = .next t ∧ step t = .next (after (.shuffle 4) { t with script := [] }) ∧
    ((finished [.load 0x2001 1]).status.busy = false ∧ { addr := 0x2001, written := 4, older := 0 } ∈ (finished []).unseen) :=
  ⟨by decide +kernel, rfl, rfl, by decide +kernel⟩

/-- 20_memory R73: before the completion is observed a load may return the byte before the command or the command's; a read
of STATUS with BUSY = 0 leaves only the command's. -/
theorem test_observed_completion :
    (finished []).visible [] 0x2001 = [4, 4, 0] ∧
    step (finished [.load 0xFFFF0008 4]) =
      .next { finished [] with unseen := [], hostData := [2, 0, 0, 0] } ∧
    ({ finished [] with unseen := [] } : State).visible [] 0x2001 = [4] := ⟨by decide +kernel, rfl, by decide +kernel⟩

/-- A shuffle in flight after a host store to the first byte of its destination window. -/
def storedInto : State := (running 0x00040001 sixteen 16).storeByte 0x2000 0xEE

/-- A store during the command; an error during one; a store to a byte that a command wrote, before it is observed. -/
theorem witness_DestinationRaceHasTwoOutcomes :
    (storedInto.hostByte 0x2000 = some 0xEE ∧ engineStep storedInto = .next (after (.shuffle 4) storedInto) ∧
      engineStep { storedInto with hostStores := [] } = .next (after (.shuffle 4) { storedInto with hostStores := [] }) ∧
      (after (.shuffle 4) storedInto).status.errcode = 0) ∧
    (engineStep (running 1 sixteen 16) = .next (after (.shuffle 0) (running 1 sixteen 16)) ∧
      (after (.shuffle 0) (running 1 sixteen 16)).status.errcode ≠ 0) ∧
    ((finished [.store 0x200F [0xEE, 7]]).unseenAt 0x200F = some { addr := 0x200F, written := 15, older := 0 } ∧
      inBlock (finished []).platform 0x200F = false ∧ 0x200F + 2 ≤ (finished []).platform.memSize) ∧
    ((busyFacing (.store 0x200F [0xEE, 7])).status.busy = true ∧
      (busyFacing (.store 0x200F [0xEE, 7])).inDest 0x200F = true) :=
  ⟨⟨rfl, rfl, rfl, rfl⟩, ⟨rfl, by decide⟩, by decide +kernel, by decide⟩

/-- 70_reset R401: a store under a running command at a byte of an earlier one that is not observed. The host's byte is the
byte stored, whichever byte the store leaves in memory. -/
theorem test_host_byte_over_unseen :
    let s := ({ finished [] with status := Status.zero.started }).storeByte 0x200F 0xEE
    s.hostByte 0x200F = some 0xEE ∧ s.hostByte 0x200E = none ∧
    s.unseenAt 0x200F = some { addr := 0x200F, written := 15, older := 0xEE } := by decide +kernel

/-- A host store to the first byte of a source window, in flight, and one after the completion that no STATUS read comes
before: the byte has held what it held and what was stored. -/
theorem witness_RacedKernelsSeeHeldValues :
    let s := fun w => (running w sixteen 16).storeByte 0x1000 0xEE
    let u := fun es => { running 0x00040001 sixteen 16 with script := es }
    (validateByR123 (.shuffle 4) (s 0x00040001) = none ∧ validateByR123 (.unshuffle 4) (s 0x00040002) = none ∧
      validateByR123 (.delta 4) (s 3) = none ∧ validateByR123 (.deltaInv 4) (s 4) = none ∧ (s 4).hostStores = [] ∧
      (s 4).heldValues 0x1000 = [0xEE, 0x00, 0xEE] ∧ (s 4).heldValues 0x1001 = [0x01]) ∧
    (u [.store 0x1000 [0xEE], .load 0xFFFF0008 4]).heldValues 0x1000 = [0x00, 0xEE] ∧
    (u [.load 0xFFFF0008 4, .store 0x1000 [0xEE]]).heldValues 0x1000 = [0x00] := by decide

/-- A stream of 256 × 0x7B whose second byte was stored to, and an encoding of two blocks and a tail of one byte whose first
byte was: the second block and the tail are settled. -/
theorem witness_RacedBlockCommandsSeeHeldValues :
    let s := (running 0x00010006 (bytes [0, 0x7B]) 256 256).storeByte 0x1001 0xEE
    let u := (running 0x00010005 (List.replicate 513 0x7B) 600).storeByte 0x1000 0xEE
    (validateByR123 (.blkDec 1) s = none ∧ s.hostStores = [] ∧ s.heldValues 0x1001 = [0xEE, 0x7B, 0xEE]) ∧
    (validateByR123 (.blkEnc false 1) u = none ∧ u.hostStores = [] ∧ u.latch.len.toNat / (256 * 1) = 2 ∧
      u.latch.len.toNat % (256 * 1) = 1) ∧ u.settledAt (1 * (256 * 1)) (256 * 1) ∧ u.settledAt (2 * (256 * 1)) 1 := by
  refine ⟨by decide, by decide +kernel, ?_, ?_⟩ <;> exact State.settledAt_of_unstored _ _ _ (by decide +kernel)

theorem witness_StepKeepsInvariant : State.reset.Inv :=
  { platform := by decide, canonical := by decide, implemented := by decide, inFlight := by decide, code := by decide,
    errorResult := by decide, capacity := by decide, idle := by decide, racedInSource := by decide,
    storesInDest := by decide }

/-- The invariant holds too of a command in flight with hazards recorded, and it steps. -/
theorem witness_StepKeepsInvariant_busy :
    let s := ((running 0x00040001 sixteen 16).storeByte 0x1000 0xEE).storeByte 0x2000 0xEE
    s.Inv ∧ step s = .next (after (.shuffle 4) s) ∧ step State.reset = .next State.reset :=
  ⟨{ platform := by decide, canonical := by decide, implemented := by decide, inFlight := by decide,
      code := by decide, errorResult := by decide, capacity := by decide, idle := by decide,
      racedInSource := by decide, storesInDest := by decide }, rfl, rfl⟩

/-! The byte functions. -/

theorem witness_ShuffleIsABijection :
    1 ≤ 4 ∧ sixteen.length % 4 = 0 ∧ 3 < sixteen.length / 4 ∧ 3 < 4 := by decide

theorem witness_WidthIsLeast : 255 ≤ 255 ∧ 0 ≤ 255 := by decide

theorem witness_PackPlacesFields :
    (5 ≤ 5 ∧ (List.replicate 16 (31 : Byte)).length = 16 ∧ ∀ x ∈ List.replicate 16 (31 : Byte), x.toNat < 2 ^ 5) ∧
    (∀ x ∈ List.replicate 16 (0 : Byte), x.toNat < 2 ^ 0) := by decide

/-- The candidates of 0 to 15 at the start of a plane: the second and the fourth cost 3, and the row takes the second. -/
theorem witness_RowTakesFirstLeastCost :
    sixteen ≠ [] ∧ (candidates 0 0 sixteen)[1]? = some (chooseRow 0 0 sixteen) ∧
    (candidates 0 0 sixteen).map (fun c => c.cost) = [9, 3, 17, 3] ∧
    (chooseRow 0 0 sixteen).row.header = .delta 1 := by decide

theorem witness_RowCandidatesDecode :
    sixteen.length = 16 ∧ (candidates 0 0 sixteen).getD 3 (chooseRow 0 0 sixteen) ∈ candidates 0 0 sixteen := by decide

theorem witness_MinColumnRoundTrip : sixteen.length ≤ 16 := by decide

theorem witness_PlaneRecordRoundTrip :
    (1 ≤ 1 ∧ 1 ≤ 16 ∧ sixteen.length = 16 * 1) ∧ (16 ≤ 16 ∧ (List.replicate 256 (0 : Byte)).length = 16 * 16) := by
  decide +kernel

/-- A block of 256 zero bytes: its record has 266 bytes. -/
theorem witness_LzRecordRoundTrip :
    (List.replicate 256 (0 : Byte)).length = 256 * 1 ∧
    (lzEncode (blockElements 1 (List.replicate 256 0)) 1000).isSome = true := by decide +kernel

/-- The 32 elements of width 4 of 95_test_vectors' repeating block. -/
def table32 : List Byte :=
  bytes [25, 164, 126, 30, 112, 188, 201, 81, 90, 223, 164, 128, 252, 47, 139, 243, 59, 208, 6, 131, 151, 199, 174,
    165, 144, 255, 40, 220, 73, 146, 244, 243, 132, 104, 70, 26, 203, 172, 85, 226, 34, 45, 41, 57, 130, 20, 18,
    229, 29, 37, 221, 153, 4, 149, 25, 159, 233, 166, 122, 142, 226, 107, 173, 107, 117, 40, 139, 200, 143, 222,
    147, 146, 22, 95, 61, 140, 204, 163, 167, 215, 121, 154, 4, 187, 233, 117, 205, 198, 191, 52, 163, 196, 41,
    233, 171, 125, 189, 60, 67, 192, 250, 24, 232, 197, 230, 58, 38, 150, 10, 154, 235, 112, 227, 81, 108, 61, 147,
    31, 166, 0, 236, 125, 60, 157, 113, 78, 170, 20]

/-- The repeating block of 44_block_encode R294: element i is element i mod 32 of the table. -/
def repeating : List Byte := (List.replicate 8 table32).flatten

/-- Its LZ record as R294 gives it: five groups of literals, then 27 groups of offset 32. -/
def repeatingRecord : List Byte :=
  253 :: ((List.range 5).map (fun g => 0 :: (table32.drop (g % 4 * 32)).take 32)).flatten ++
    (List.replicate 27 (255 :: List.replicate 8 32)).flatten

/-- 44_block_encode R294: the LZ record has 409 bytes, and it replaces the 1025-byte COPY_BLOCK. -/
theorem test_lz_record :
    repeatingRecord.length = 409 ∧
    encodeFull true 4 repeating = repeatingRecord ∧ (bestRecord 4 repeating).length = 1025 := by
  decide +kernel

/-- A block that takes its LZ record, and a block of zeros of width 3, whose LZ pass fails. -/
theorem witness_LzOnlyShortens :
    5 ∉ [3, 4, 6, 8] ∧ 4 ∈ [3, 4, 6, 8] ∧ encodeFull true 4 repeating ≠ bestRecord 4 repeating ∧
    (∃ record, lzEncode (blockElements 4 repeating) ((bestRecord 4 repeating).length - 1) = some record) ∧
    lzEncode (blockElements 3 (List.replicate 768 0)) ((bestRecord 3 (List.replicate 768 0)).length - 1) = none := by
  obtain ⟨h409, hrec, hbest⟩ := test_lz_record
  have hne : encodeFull true 4 repeating ≠ bestRecord 4 repeating := fun h => by
    rw [← h, hrec, h409] at hbest
    cases hbest
  refine ⟨by decide, by decide, hne, ?_, by decide +kernel⟩
  have key : ∀ (o : Option (List Byte)) (d : List Byte), o.getD d ≠ d → ∃ record, o = some record := fun o d h => by
    cases o with
    | none => exact absurd rfl h
    | some record => exact ⟨record, rfl⟩
  exact key _ (bestRecord 4 repeating) hne

/-- The row that 44_block_encode R267 lists as raw. -/
def rawRow : List Byte :=
  bytes [0x05, 0x35, 0xAF, 0x73, 0x81, 0xD9, 0x7B, 0x67, 0x9D, 0x1D, 0xE7, 0xFB, 0x59, 0x01, 0xF3, 0x2F]

/-- A row with values below 32 that no run shortens. -/
def literalRow : List Byte := bytes [0, 31, 7, 19, 2, 28, 11, 23, 5, 30, 1, 17, 9, 26, 3, 21]

/-- A uniform plane, a raw one, one with a single min and one whose 16 mins are alike; a block that is copied and one that is
not. -/
theorem witness_KindsAreChosenBySize :
    (List.replicate 16 (7 : Byte)).length = 16 * 1 ∧ encodePlane 1 (List.replicate 16 7) = (.allSame, [7]) ∧
    rawRow.length = 16 * 1 ∧ (encodePlane 1 rawRow).1 = .allRaw ∧
    (sixteen.length = 16 * 1 ∧ (encodePlane 1 sixteen).1 = .normal) ∧
    ((List.replicate 16 literalRow).flatten.length = 16 * 16 ∧
      (encodePlane 16 (List.replicate 16 literalRow).flatten).1 = .normalRle) ∧
    ((List.replicate 16 rawRow).flatten.length = 256 * 1 ∧
      1 + 256 * 1 ≤ (encodePlanes 1 16 (List.replicate 16 rawRow).flatten).length) ∧
    (encodePlanes 1 16 (List.replicate 16 literalRow).flatten).length < 1 + 256 * 1 := by decide +kernel

theorem witness_EncodedSizeIsBounded :
    (List.replicate 256 (0 : Byte)).length = 256 * 1 ∧
    (0 < (List.replicate 16 (0 : Byte)).length ∧ (List.replicate 16 (0 : Byte)).length < 256 * 1 ∧
      16 * 1 ≤ (List.replicate 16 (0 : Byte)).length) ∧
    ((List.replicate 15 (0 : Byte)).length < 16 * 1) ∧
    ((running 0x00040005 sixteen 19).hazardFree ∧
      encodedBound 4 (running 0x00040005 sixteen 19).latch.len.toNat ≤
        (running 0x00040005 sixteen 19).latch.cap.toNat ∧
      exec (.blkEnc false 4) (running 0x00040005 sixteen 19) =
        .next (after (.blkEnc false 4) (running 0x00040005 sixteen 19))) := by
  refine ⟨by decide +kernel, by decide, by decide, quiet (by decide), by decide, rfl⟩

theorem witness_BlockCodecRoundTrip : 1 ≤ 65535 ∧ 65535 ≤ 65535 ∧ sixteen.length < 2 ^ 24 := by decide

theorem witness_DecodingConsumesExactly :
    decodeSuperblock 1 256 (bytes [0, 0x7B]) = .ok (List.replicate 256 0x7B) ∧ bytes [0] ≠ [] := by decide +kernel

theorem witness_TruncatedStreamOverflows :
    decodeSuperblock 1 256 (bytes [0, 0x7B]) = .ok (List.replicate 256 0x7B) ∧ 1 < (bytes [0, 0x7B]).length := by
  decide +kernel

/-- For each clause, a defect at a boundary: kind 4, padding of a prefix, header 14, padding of the headers, a mask bit at K,
an LZ offset of 0, of one more than the elements, and of one more in two bytes. -/
theorem witness_DecoderRefusesDefects :
    (1 ≤ 1 ∧ 256 * 1 ≤ 256 ∧ 0 < 1 ∧ 255 < 256 * 1 ∧ (253 : Byte) ≠ 254 ∧ 16 * 1 ≤ 16 ∧ 16 < 256 * 1) ∧
    (¬ prefixSound 1 [0x04] ∧ ¬ prefixSound 1 [0x10] ∧ ¬ prefixSound 2 [0x40] ∧ prefixSound 2 [0x33] ∧
      [(0x04 : Byte)].length = (1 + 1) / 2 ∧ (0x04 : Byte).toNat ∉ [252, 253, 254]) ∧
    (¬ headersSound 1 [0x0E] ∧ ¬ headersSound 1 [0x1F] ∧ ¬ headersSound 2 [0xE0] ∧ headersSound 2 [0xDF] ∧
      [(0x0E : Byte)].length = (1 + 1) / 2) ∧
    (minCount 2 [0xD5] = 2 ∧ minCount 2 [0x67] = 0 ∧ 4 / 2 ^ minCount 2 [0xD5] ≠ 0 ∧
      1 / 2 ^ minCount 2 [0x67] ≠ 0) ∧
    ((0 : Byte).toNat < 128 ∧ (0 : Byte).toNat = 0 ∧ [sixteen].length < (2 : Byte).toNat ∧
      ¬ (0x80 : Byte).toNat < 128 ∧ (0x80 : Byte).toNat % 128 + 128 * (0 : Byte).toNat = 0 ∧
      [sixteen].length < (0x82 : Byte).toNat % 128 + 128 * (0 : Byte).toNat ∧ (1 : Byte).toNat % 2 = 1) := by
  refine ⟨by decide, ?_, ?_, by decide, by decide⟩
  · unfold prefixSound; decide
  · unfold headersSound; decide

end Sys2Proof.Tests
end

