-- ==== Sys2Proof/Proofs/Errors.lean ====
section
/-! PROOFS. The errors a command can end in: BLK_DEC's readers fail only with the two defects of 45_block_decode R317, the
operand checks only with the codes of 40_control R123, and so a completion reports only a code of 60_exceptions R350, R351. -/

namespace Sys2Proof.Machine

open Sys2Proof

/-- `x` fails, if it fails, with an error that `P` allows. -/
def ErrorsIn {α : Type} (P : Err → Prop) (x : Except Err α) : Prop := ∀ e, x = .error e → P e

theorem errorsIn_ok {α : Type} {P : Err → Prop} {v : α} : ErrorsIn P (.ok v) := fun _ h => nomatch h

theorem errorsIn_error {α : Type} {P : Err → Prop} {e : Err} (h : P e) : ErrorsIn P (.error e : Except Err α) := by
  rintro e' he; cases he; exact h

theorem errorsIn_mono {α : Type} {P Q : Err → Prop} {x : Except Err α} (hx : ErrorsIn P x) (h : ∀ e, P e → Q e) :
    ErrorsIn Q x := fun e he => h e (hx e he)

/-- A sequence fails with an error of its first part or of what follows. -/
theorem errorsIn_bind {α β : Type} {P : Err → Prop} {x : Except Err α} {k : α → Except Err β} (hx : ErrorsIn P x)
    (hk : ∀ v, ErrorsIn P (k v)) : ErrorsIn P (x >>= k) := by
  cases x with
  | error e => exact errorsIn_error (hx e rfl)
  | ok v => exact hk v

theorem errorsIn_ite {α : Type} {P : Err → Prop} {c : Prop} [Decidable c] {x y : Except Err α} (hx : ErrorsIn P x)
    (hy : ErrorsIn P y) : ErrorsIn P (if c then x else y) := by
  split
  · exact hx
  · exact hy

/-! The decoder. -/

/-- The two errors of a defective stream (45_block_decode R317). -/
def StreamDefect (e : Err) : Prop := e = .srcOverflow ∨ e = .invalidInput

/-- A stream that ends early. -/
theorem errorsIn_srcOverflow {α : Type} : ErrorsIn StreamDefect (.error .srcOverflow : Except Err α) :=
  errorsIn_error (.inl rfl)

/-- A stream that is not well formed. -/
theorem errorsIn_invalidInput {α : Type} : ErrorsIn StreamDefect (.error .invalidInput : Except Err α) :=
  errorsIn_error (.inr rfl)

theorem takeBytes_errors (k : Nat) (t : List Byte) : ErrorsIn StreamDefect (takeBytes k t) :=
  errorsIn_ite errorsIn_srcOverflow errorsIn_ok

theorem takeU8_errors (t : List Byte) : ErrorsIn StreamDefect (takeU8 t) := by
  cases t with
  | nil => exact errorsIn_srcOverflow
  | cons b rest => exact errorsIn_ok

theorem takeU16_errors (t : List Byte) : ErrorsIn StreamDefect (takeU16 t) :=
  errorsIn_bind (takeBytes_errors 2 t) fun _ => errorsIn_ok

theorem expandRuns_errors (p : Byte) (bits : List Bool) (t : List Byte) :
    ErrorsIn StreamDefect (expandRuns p bits t) := by
  induction bits generalizing p t with
  | nil => exact errorsIn_ok
  | cons b bits ih =>
    cases b with
    | true => exact errorsIn_bind (ih p t) fun _ => errorsIn_ok
    | false => exact errorsIn_bind (takeU8_errors t) fun (x, r) => errorsIn_bind (ih x r) fun _ => errorsIn_ok

theorem decodeRow_errors (h : RowHeader) (min p pd : Byte) (t : List Byte) :
    ErrorsIn StreamDefect (decodeRow h min p pd t) := by
  cases h with
  | literal b => exact errorsIn_bind (takeBytes_errors _ t) fun _ => errorsIn_ok
  | delta b => exact errorsIn_bind (takeBytes_errors _ t) fun _ => errorsIn_ok
  | raw => exact takeBytes_errors _ t
  | runLength => exact errorsIn_bind (takeU16_errors t) fun (_, r) => expandRuns_errors _ _ r
  | deltaRunLength =>
    exact errorsIn_bind (takeU16_errors t) fun (_, r) => errorsIn_bind (expandRuns_errors _ _ r) fun _ => errorsIn_ok

theorem decodeRows_errors (p pd : Byte) (hs : List RowHeader) (mins t : List Byte) :
    ErrorsIn StreamDefect (decodeRows p pd hs mins t) := by
  induction hs generalizing p pd mins t with
  | nil => exact errorsIn_ok
  | cons h hs ih =>
    exact errorsIn_bind (decodeRow_errors h _ p pd t) fun (_, r) => errorsIn_bind (ih _ _ _ r) fun _ => errorsIn_ok

theorem decodeMins_errors (k : Nat) (t : List Byte) : ErrorsIn StreamDefect (decodeMins k t) :=
  errorsIn_bind (takeU16_errors t) fun (_, r) => errorsIn_ite errorsIn_invalidInput (expandRuns_errors _ _ r)

theorem unpadded_errors (n : Nat) (bs : List Byte) : ErrorsIn StreamDefect (unpadded n bs) :=
  errorsIn_ite errorsIn_invalidInput errorsIn_ok

theorem allCodes_errors {α : Type} (f : Nat → Option α) (codes : List Nat) :
    ErrorsIn StreamDefect (allCodes f codes) := by
  unfold allCodes
  split
  · exact errorsIn_invalidInput
  · exact errorsIn_ok

theorem takeHeaders_errors (r : Nat) (t : List Byte) : ErrorsIn StreamDefect (takeHeaders r t) :=
  errorsIn_bind (takeBytes_errors _ t) fun (bs, _) => errorsIn_bind (unpadded_errors r bs) fun codes =>
    errorsIn_bind (allCodes_errors rowHeaderOf codes) fun _ => errorsIn_ok

theorem decodeCoded_errors (r : Nat) (mins : Nat → List Byte → Except Err (List Byte × List Byte)) (t : List Byte)
    (hm : ∀ k t, ErrorsIn StreamDefect (mins k t)) : ErrorsIn StreamDefect (decodeCoded r mins t) :=
  errorsIn_bind (takeHeaders_errors r t) fun (_, t) => errorsIn_bind (hm _ t) fun (ms, t) =>
    decodeRows_errors 0 0 _ ms t

theorem decodePlane_errors (r : Nat) (kind : Kind) (t : List Byte) :
    ErrorsIn StreamDefect (decodePlane r kind t) := by
  cases kind with
  | allSame => exact errorsIn_bind (takeU8_errors t) fun _ => errorsIn_ok
  | allRaw => exact takeBytes_errors _ t
  | normal => exact decodeCoded_errors r _ t takeBytes_errors
  | normalRle => exact decodeCoded_errors r _ t decodeMins_errors

theorem decodePlaneList_errors (r : Nat) (kinds : List Kind) (t : List Byte) :
    ErrorsIn StreamDefect (decodePlaneList r kinds t) := by
  induction kinds generalizing t with
  | nil => exact errorsIn_ok
  | cons k ks ih =>
    exact errorsIn_bind (decodePlane_errors r k t) fun (_, t) => errorsIn_bind (ih t) fun _ => errorsIn_ok

theorem decodePlanes_errors (b r : Nat) (t : List Byte) : ErrorsIn StreamDefect (decodePlanes b r t) :=
  errorsIn_bind (takeBytes_errors _ t) fun (bs, t) => errorsIn_bind (unpadded_errors b bs) fun codes =>
    errorsIn_bind (allCodes_errors kindOf codes) fun kinds =>
      errorsIn_bind (decodePlaneList_errors r kinds t) fun _ => errorsIn_ok

theorem takeOffset_errors (t : List Byte) : ErrorsIn StreamDefect (takeOffset t) :=
  errorsIn_bind (takeU8_errors t) fun (_, t) =>
    errorsIn_ite errorsIn_ok (errorsIn_bind (takeU8_errors t) fun _ => errorsIn_ok)

theorem decodeElement_errors (b : Nat) (els : List (List Byte)) (isRef : Bool) (t : List Byte) :
    ErrorsIn StreamDefect (decodeElement b els isRef t) := by
  cases isRef with
  | true => exact errorsIn_bind (takeOffset_errors t) fun _ => errorsIn_ite errorsIn_invalidInput errorsIn_ok
  | false => exact takeBytes_errors b t

theorem decodeItems_errors (b : Nat) (bits : List Bool) (els : List (List Byte)) (t : List Byte) :
    ErrorsIn StreamDefect (decodeItems b bits els t) := by
  induction bits generalizing els t with
  | nil => exact errorsIn_ok
  | cons bit bits ih => exact errorsIn_bind (decodeElement_errors b els bit t) fun (_, t) => ih _ t

theorem decodeGroups_errors (b n : Nat) (els : List (List Byte)) (t : List Byte) :
    ErrorsIn StreamDefect (decodeGroups b n els t) := by
  induction n generalizing els t with
  | zero => exact errorsIn_ok
  | succ n ih =>
    exact errorsIn_bind (takeU8_errors t) fun (_, t) => errorsIn_bind (decodeItems_errors b _ els t) fun (els, t) =>
      ih els t

theorem decodeLz_errors (b : Nat) (t : List Byte) : ErrorsIn StreamDefect (decodeLz b t) :=
  errorsIn_bind (decodeGroups_errors b 32 [] t) fun _ => errorsIn_ok

theorem decodeRecord_errors (b : Nat) (f : Byte) (t : List Byte) : ErrorsIn StreamDefect (decodeRecord b f t) :=
  errorsIn_ite (takeBytes_errors _ _) <| errorsIn_ite (decodeLz_errors b _) <|
    errorsIn_ite errorsIn_invalidInput (decodePlanes_errors b _ t)

theorem decodeFull_errors (b : Nat) (t : List Byte) : ErrorsIn StreamDefect (decodeFull b t) := by
  cases t with
  | nil => exact errorsIn_srcOverflow
  | cons f rest => exact decodeRecord_errors b f _

theorem decodeFullSeen_errors (look : List Byte) (b : Nat) (t : List Byte) :
    ErrorsIn StreamDefect (decodeFullSeen look b t) := by
  cases t with
  | nil => exact errorsIn_srcOverflow
  | cons x rest => exact decodeRecord_errors b _ _

theorem decodePartial_errors (b n : Nat) (t : List Byte) : ErrorsIn StreamDefect (decodePartial b n t) :=
  errorsIn_bind (takeU8_errors t) fun (_, t) => errorsIn_ite errorsIn_invalidInput <|
    errorsIn_ite (takeBytes_errors n t) <| errorsIn_bind (decodePlanes_errors b _ t) fun (_, t) =>
      errorsIn_bind (takeBytes_errors _ t) fun _ => errorsIn_ok

theorem decodeFulls_errors (full : List Byte → Except Err (List Byte × List Byte)) (f : Nat) (t : List Byte)
    (hf : ∀ t, ErrorsIn StreamDefect (full t)) : ErrorsIn StreamDefect (decodeFulls full f t) := by
  induction f generalizing t with
  | zero => exact errorsIn_ok
  | succ f ih => exact errorsIn_bind (hf t) fun (_, t) => errorsIn_bind (ih t) fun _ => errorsIn_ok

theorem decodeTail_errors (b n : Nat) (t : List Byte) : ErrorsIn StreamDefect (decodeTail b n t) :=
  errorsIn_ite errorsIn_ok (decodePartial_errors b n t)

/-- Whatever reads the blocks, a superblock fails only with a stream's defect if they do. -/
theorem decodeWith_errors (full : List Byte → Except Err (List Byte × List Byte)) (b n : Nat) (t : List Byte)
    (hf : ∀ t, ErrorsIn StreamDefect (full t)) : ErrorsIn StreamDefect (decodeWith full b n t) :=
  errorsIn_bind (decodeFulls_errors full _ t hf) fun (_, t) => errorsIn_bind (decodeTail_errors b _ t) fun _ =>
    errorsIn_ite errorsIn_ok errorsIn_invalidInput

/-- BLK_DEC, raced or not, fails only with a stream's defect (45_block_decode R317; 70_reset R400). -/
theorem State.decodeOutput_errors (s : State) (bpp : Nat) : ErrorsIn StreamDefect (s.decodeOutput bpp) :=
  errorsIn_ite (decodeWith_errors _ bpp _ _ (decodeFull_errors bpp))
    (decodeWith_errors _ bpp _ _ (decodeFullSeen_errors _ bpp))

/-! The checks. -/

/-- An error whose code a completion may report (60_exceptions R350, R351). -/
abbrev Reported (e : Err) : Prop := e.code ∈ reportedCodes

theorem reported_of_streamDefect (e : Err) (h : StreamDefect e) : Reported e := by
  rcases h with rfl | rfl <;> decide

theorem reported_invalidParameter : Reported .invalidParameter := by decide
theorem reported_busFault : Reported .busFault := by decide
theorem reported_dstOverflow : Reported .dstOverflow := by decide
theorem reported_illegalCommand : Reported .illegalCommand := by decide

theorem failIf_errors {P : Err → Prop} (c : Bool) {e : Err} (h : P e) : ErrorsIn P (failIf c e) :=
  fun _ he => (failIf_eq_error.mp he).2 ▸ h

theorem checkBpp_errors (bpp : Nat) : ErrorsIn Reported (checkBpp bpp) := failIf_errors _ reported_invalidParameter

theorem checkLimit_errors (n : Nat) : ErrorsIn Reported (checkLimit n) := failIf_errors _ reported_invalidParameter

theorem checkCapacity_errors (n : Nat) (s : State) : ErrorsIn Reported (checkCapacity n s) :=
  failIf_errors _ reported_dstOverflow

theorem checkWindows_errors (s : State) : ErrorsIn Reported (checkWindows s) :=
  errorsIn_bind (failIf_errors _ reported_invalidParameter) fun _ =>
    errorsIn_bind (failIf_errors _ reported_invalidParameter) fun _ => failIf_errors _ reported_busFault

theorem validateTransposition_errors (bpp : Nat) (s : State) : ErrorsIn Reported (validateTransposition bpp s) :=
  errorsIn_bind (checkBpp_errors bpp) fun _ => errorsIn_bind (failIf_errors _ reported_invalidParameter) fun _ =>
    errorsIn_bind (checkWindows_errors s) fun _ => checkCapacity_errors _ s

theorem validateDelta_errors (s : State) : ErrorsIn Reported (validateDelta s) :=
  errorsIn_bind (checkWindows_errors s) fun _ => checkCapacity_errors _ s

theorem validateBlkEnc_errors (bpp : Nat) (s : State) : ErrorsIn Reported (validateBlkEnc bpp s) :=
  errorsIn_bind (checkBpp_errors bpp) fun _ => errorsIn_bind (checkLimit_errors _) fun _ => checkWindows_errors s

theorem validateBlkDec_errors (bpp : Nat) (s : State) : ErrorsIn Reported (validateBlkDec bpp s) :=
  errorsIn_bind (checkBpp_errors bpp) fun _ => errorsIn_bind (checkLimit_errors _) fun _ =>
    errorsIn_bind (checkLimit_errors _) fun _ => errorsIn_bind (checkWindows_errors s) fun _ =>
      checkCapacity_errors _ s

/-! Completion. -/

theorem State.completeError_code_reported (s : State) {e : Err} (h : Reported e) :
    (s.completeError e).status.errcode ∈ reportedCodes := h

theorem State.completeOk_code_reported (s : State) (out : List Byte) :
    (s.completeOk out).status.errcode ∈ reportedCodes := List.mem_cons_self

/-- A completion reports 0, DstOverflow or the error it is given. -/
theorem State.complete_code_reported (s : State) {r : Except Err (List Byte)} (h : ErrorsIn Reported r) :
    (s.complete r).status.errcode ∈ reportedCodes := by
  cases r with
  | error e => exact s.completeError_code_reported (h e rfl)
  | ok out =>
    rcases Nat.lt_or_ge s.latch.cap.toNat out.length with hc | hc
    · rw [s.complete_ok_of_lt out hc]; exact s.completeError_code_reported reported_dstOverflow
    · rw [s.complete_ok_of_le out hc]; exact s.completeOk_code_reported out

/-- Every command reports a code of 60_exceptions R350 that R351 does not exclude. -/
theorem exec_code_reported {i : Instr} {s t : State} (h : exec i s = .next t) : t.status.errcode ∈ reportedCodes := by
  cases i with
  | nop b => cases h; exact s.complete_code_reported errorsIn_ok
  | shuffle b | unshuffle b =>
    cases h
    exact s.complete_code_reported (errorsIn_bind (validateTransposition_errors b s) fun _ => errorsIn_ok)
  | delta b | deltaInv b =>
    cases h
    exact s.complete_code_reported (errorsIn_bind (validateDelta_errors s) fun _ => errorsIn_ok)
  | blkEnc lz b =>
    simp only [exec, execBlkEnc] at h
    split at h
    · rename_i e he
      cases h
      exact s.completeError_code_reported (validateBlkEnc_errors b s e he)
    · cases h; exact State.complete_code_reported _ errorsIn_ok
  | blkDec b =>
    cases h
    exact s.complete_code_reported (errorsIn_bind (validateBlkDec_errors b s) fun _ =>
      errorsIn_mono (s.decodeOutput_errors b) reported_of_streamDefect)

/-- So does the engine's step, an illegal word's completion among them. -/
theorem engineStep_code_reported {s t : State} (h : engineStep s = .next t) : t.status.errcode ∈ reportedCodes := by
  unfold engineStep at h
  split at h
  · exact exec_code_reported h
  · cases h; exact s.completeError_code_reported reported_illegalCommand

end Sys2Proof.Machine
end

