-- ==== Sys2Proof/Proofs/Invariant.lean ====
section
/-! PROOFS. The invariant of the machine: each operation on the state keeps it, and so does every step. -/

namespace Sys2Proof.Machine

open Sys2Proof

/-- The invariant says nothing of CTRL.IE, the arguments, the working storage, the script and what the host reads. -/
theorem State.Inv.update_unconstrained {s : State} (h : s.Inv) (ie : Bool) (args : Args) (work : Work)
    (script : List Event) (hostData : List Byte) (unseen : List UnseenByte) (draws loads : Nat) :
    { s with ie, args, work, script, hostData, unseen, draws, loads : State }.Inv :=
  ⟨h.platform, h.canonical, h.implemented, h.inFlight, h.code, h.errorResult, h.capacity, h.idle, h.racedInSource,
    h.storesInDest⟩

/-! Start, dropped command, STATUS write. -/

theorem State.startCommand_keeps_inv {s : State} (h : s.Inv) (w : Word) : (s.startCommand w).Inv where
  platform := h.platform
  canonical := h.canonical
  implemented := h.implemented
  inFlight := fun _ => ⟨rfl, rfl, rfl, rfl⟩
  code := by simp [reportedCodes]
  errorResult := fun _ => rfl
  capacity := by simp
  idle := fun _ => ⟨rfl, rfl⟩
  racedInSource := by simp
  storesInDest := by simp

theorem State.dropCommand_keeps_inv {s : State} (h : s.Inv) : s.dropCommand.Inv :=
  ⟨h.platform, h.canonical, h.implemented, h.inFlight, h.code, h.errorResult, h.capacity, h.idle, h.racedInSource,
    h.storesInDest⟩

/-- A host write of STATUS can clear DONE but never set it, and it changes neither BUSY nor ERRCODE. -/
theorem State.writeStatus_keeps_inv {s : State} (h : s.Inv) (w : Word) : (s.writeStatus w).Inv where
  platform := h.platform
  canonical := h.canonical
  implemented := h.implemented
  inFlight := fun hb => by
    obtain ⟨hdone, hrest⟩ := h.inFlight hb
    exact ⟨by simp [hdone], hrest⟩
  code := h.code
  errorResult := h.errorResult
  capacity := h.capacity
  idle := h.idle
  racedInSource := h.racedInSource
  storesInDest := h.storesInDest

/-! Reset. -/

theorem State.resetEngine_keeps_inv {s : State} (h : s.Inv) : s.resetEngine.Inv where
  platform := h.platform
  canonical := s.abortedMem_wf h.canonical
  implemented := s.abortedMem_below h.implemented
  inFlight := nofun
  code := by simp [reportedCodes]
  errorResult := fun _ => rfl
  capacity := by simp
  idle := fun _ => ⟨rfl, rfl⟩
  racedInSource := by simp
  storesInDest := by simp

/-! Completion. -/

theorem State.completeError_keeps_inv {s : State} (h : s.Inv) {e : Err} (he : Reported e) :
    (s.completeError e).Inv where
  platform := h.platform
  canonical := h.canonical
  implemented := h.implemented
  inFlight := nofun
  code := s.completeError_code_reported he
  errorResult := fun _ => rfl
  capacity := by simp
  idle := fun _ => ⟨rfl, rfl⟩
  racedInSource := by simp
  storesInDest := by simp

/-- An output that fits the capacity lies in implemented memory where the checks passed, for they ask it of the whole
destination window (20_memory R63). -/
theorem State.windowsOk.output_implemented {s : State} (h : s.windowsOk) {out : List Byte}
    (hle : out.length ≤ s.latch.cap.toNat) : out = [] ∨ s.latch.dst.toNat + out.length ≤ s.platform.memSize := by
  obtain ⟨_, _, _, _, _, _, hcap | hcap⟩ := h
  · exact .inl (List.eq_nil_of_length_eq_zero (by omega))
  · exact .inr (by omega)

theorem State.completeOk_keeps_inv {s : State} (h : s.Inv) {out : List Byte} (hle : out.length ≤ s.latch.cap.toNat)
    (hw : out = [] ∨ s.windowsOk) : (s.completeOk out).Inv where
  platform := h.platform
  canonical := Memory.wf_writeBytes _ _ h.canonical
  implemented := by
    have hout : out = [] ∨ s.latch.dst.toNat + out.length ≤ s.platform.memSize :=
      hw.elim .inl fun hw => State.windowsOk.output_implemented hw hle
    refine Memory.below_writeBytes _ _ h.implemented ?_
    rw [s.delivered_length]
    exact hout.imp_left fun hnil => by rw [hnil, s.delivered_nil]
  inFlight := nofun
  code := s.completeOk_code_reported out
  errorResult := fun hne => absurd rfl hne
  capacity := by
    rw [State.completeOk_result, BitVec.toNat_ofNat]
    exact (Nat.mod_le _ _).trans hle
  idle := fun _ => ⟨rfl, rfl⟩
  racedInSource := by simp
  storesInDest := by simp

theorem engineStep_keeps_inv {s t : State} (h : s.Inv) (hs : engineStep s = .next t) : t.Inv := by
  have hcode := engineStep_code_reported hs
  obtain ⟨w, r, heq, hwin⟩ := engineStep_inversion s
  have hu : { s with work := w }.Inv := h.update_unconstrained ..
  obtain rfl : State.complete { s with work := w } r = t := by rw [heq] at hs; injection hs
  rcases State.complete_cases { s with work := w } r with ⟨e, hc⟩ | ⟨out, hr, hle, hc⟩
  · rw [hc] at hcode ⊢; exact State.completeError_keeps_inv hu hcode
  · rw [hc]; exact State.completeOk_keeps_inv hu hle (hwin out hr)

theorem engineTurn_keeps_inv {s t : State} (h : s.Inv) (hs : engineTurn s = .next t) : t.Inv := by
  unfold engineTurn at hs
  split at hs
  · exact engineStep_keeps_inv h hs
  · cases hs; exact h

/-! Register writes. -/

theorem State.writeReg_keeps_inv {s : State} (h : s.Inv) (r : Reg) (w : Word) : (s.writeReg r w).Inv := by
  rcases s.writeReg_cases r w with
    he | ⟨_, he⟩ | ⟨_, _, he⟩ | ⟨_, _, he⟩ | ⟨_, he⟩ | ⟨_, _, he⟩ | ⟨_, _, he⟩
  all_goals rw [he]
  · exact h
  · exact h.update_unconstrained ..
  · exact h.update_unconstrained ..
  · exact State.resetEngine_keeps_inv h
  · exact State.writeStatus_keeps_inv h w
  · exact State.dropCommand_keeps_inv h
  · exact State.startCommand_keeps_inv h w

theorem State.blockStore_keeps_inv {s : State} (h : s.Inv) (off : Nat) (bs : List Byte) : (s.blockStore off bs).Inv := by
  rcases s.blockStore_cases off bs with he | ⟨_, _, he⟩
  · rw [he]; exact h
  · rw [he]; exact State.writeReg_keeps_inv h _ _

/-! Host loads and stores. -/

/-- One byte stored into implemented memory is a hazard only while a command is in flight, and then it is recorded for the
window it lies in. -/
theorem State.storeByte_keeps_inv {s : State} (h : s.Inv) {a : Nat} (b : Byte) (ha : a < s.platform.memSize) :
    (s.storeByte a b).Inv where
  platform := h.platform
  canonical := Memory.wf_writeBytes a _ h.canonical
  implemented := Memory.below_writeBytes a _ h.implemented (.inr ha)
  inFlight := h.inFlight
  code := h.code
  errorResult := h.errorResult
  capacity := h.capacity
  idle := fun hb => by
    have hidle : s.status.busy = false := hb
    simpa [hidle] using h.idle hidle
  racedInSource := by
    rw [State.storeByte_raced]
    split
    · rename_i hc
      have hin : s.inSource a = true := (Bool.and_eq_true_iff.mp hc).2
      exact List.forall_mem_cons.mpr ⟨hin, List.forall_mem_cons.mpr ⟨hin, h.racedInSource⟩⟩
    · exact h.racedInSource
  storesInDest := by
    rw [State.storeByte_hostStores]
    split
    · rename_i hc
      exact List.forall_mem_cons.mpr ⟨(Bool.and_eq_true_iff.mp hc).2, h.storesInDest⟩
    · exact h.storesInDest

theorem State.storeBytes_keeps_inv (bs : List Byte) {s : State} (h : s.Inv) (a : Nat)
    (ha : a + bs.length ≤ s.platform.memSize) : (s.storeBytes a bs).Inv := by
  induction bs generalizing s a with
  | nil => exact h
  | cons b bs ih =>
    simp only [List.length_cons] at ha
    exact ih (State.storeByte_keeps_inv h b (by omega)) (a + 1) (by rw [State.storeByte_platform]; omega)

theorem hostStore_keeps_inv {s t : State} (h : s.Inv) {a : Nat} {bs : List Byte} (hs : hostStore s a bs = .next t) :
    t.Inv := by
  rcases hostStore_inversion s a bs with ⟨_, he⟩ | ⟨hm, he⟩ | he <;> rw [he] at hs <;> cases hs
  · exact State.blockStore_keeps_inv h _ bs
  · exact State.storeBytes_keeps_inv bs h a (by simpa [inMemory] using hm)

theorem hostLoad_keeps_inv {s t : State} (h : s.Inv) {coming : List Byte} {a w : Nat}
    (hs : hostLoad s coming a w = .next t) : t.Inv := by
  rcases hostLoad_inversion s coming a w with ⟨_, he⟩ | ⟨_, he⟩ | he <;> rw [he] at hs <;> cases hs
  · exact h.update_unconstrained ..
  · exact h.update_unconstrained ..

/-! Steps. -/

/-- Settles O43, by the event that the step consumes. -/
theorem stepKeepsInvariant : Obligations.StepKeepsInvariant := by
  intro s t h hs
  have hrest (rest : List Event) : { s with script := rest }.Inv := h.update_unconstrained ..
  rcases step_inversion s with ⟨_, he⟩ | ⟨rest, _, he⟩ | ⟨a, w, rest, _, he⟩ | ⟨a, bs, rest, _, he⟩ | ⟨rest, _, he⟩
  all_goals rw [he] at hs
  · exact engineTurn_keeps_inv h hs
  · exact engineTurn_keeps_inv (hrest rest) hs
  · exact hostLoad_keeps_inv (hrest rest) hs
  · exact hostStore_keeps_inv (hrest rest) hs
  · cases hs; exact State.resetEngine_keeps_inv (hrest rest)

end Sys2Proof.Machine
end

