-- ==== Sys2Proof/Proofs/Events.lean ====
section
/-! PROOFS. What a step does, said once for each event: the equations of `step`, and the steps of an access to the register
block (10_state R20, 20_memory R75). -/

namespace Sys2Proof.Machine

open Sys2Proof

/-! The event at the head of the script. -/

theorem step_of_nil {s : State} (h : s.script = []) : step s = engineTurn s := by
  unfold step; rw [h]

theorem step_of_engine {s : State} {rest : List Event} (h : s.script = .engine :: rest) :
    step s = engineTurn { s with script := rest } := by
  unfold step; rw [h]

theorem step_of_load {s : State} {a w : Nat} {rest : List Event} (h : s.script = .load a w :: rest) :
    step s = hostLoad { s with script := rest } s.comingOutput a w := by
  unfold step; rw [h]

theorem step_of_store {s : State} {a : Nat} {bs : List Byte} {rest : List Event} (h : s.script = .store a bs :: rest) :
    step s = hostStore { s with script := rest } a bs := by
  unfold step; rw [h]

theorem step_of_powerOn {s : State} {rest : List Event} (h : s.script = .powerOn :: rest) :
    step s = .next { s with script := rest }.resetEngine := by
  unfold step; rw [h]

/-! The offsets of the registers. -/

/-- The offset of a register (10_state R20); for `reserved` the first reserved one. -/
def Reg.offset : Reg → Nat
  | .id => 0x00
  | .ctrl => 0x04
  | .status => 0x08
  | .cmd => 0x0C
  | .srcLo => 0x10
  | .srcHi => 0x14
  | .dstLo => 0x18
  | .dstHi => 0x1C
  | .lenLo => 0x20
  | .lenHi => 0x24
  | .olenLo => 0x28
  | .olenHi => 0x2C
  | .capLo => 0x30
  | .capHi => 0x34
  | .resultLo => 0x38
  | .resultHi => 0x3C
  | .caps => 0x40
  | .reserved => 0x44

@[simp] theorem regAt_offset (r : Reg) : regAt r.offset = r := by cases r <;> rfl

/-- Each register but `reserved` lies at one offset. -/
theorem regAt_eq_iff {off : Nat} {r : Reg} (hr : r ≠ .reserved) : regAt off = r ↔ off = r.offset := by
  refine ⟨fun h => ?_, fun h => by rw [h, regAt_offset]⟩
  subst h
  unfold regAt at hr ⊢
  split at hr
  case h_18 => exact absurd rfl hr
  all_goals rfl

/-- Offsets from 0x44 on are reserved (10_state R32). -/
theorem regAt_reserved {off : Nat} (h : 0x44 ≤ off) : regAt off = .reserved := by
  unfold regAt
  split
  case h_18 => rfl
  all_goals omega

/-! Accesses to the register block. -/

theorem inBlock_offset (p : Platform) {off : Nat} (h : off < 256) : inBlock p (p.mmioBase + off) = true := by
  simp [inBlock, h]

/-- An address of the block where register `r` is, is the address of `r`. -/
theorem eq_of_regAt {p : Platform} {a : Nat} {r : Reg} (hblock : inBlock p a = true) (hr : r ≠ .reserved)
    (h : regAt (a - p.mmioBase) = r) : a = p.mmioBase + r.offset := by
  simp only [inBlock, Bool.and_eq_true, decide_eq_true_eq] at hblock
  have hoff := (regAt_eq_iff hr).mp h
  omega

theorem wordAccess_iff {off width : Nat} : wordAccess off width = true ↔ width = 4 ∧ off % 4 = 0 := by
  simp [wordAccess]

/-- The access that observes a completion is a 32-bit read of STATUS at offset 0x08 with BUSY = 0 (20_memory R71, R73). -/
theorem State.observes_offset_iff (s : State) {off : Nat} (width : Nat) (h : off < 256) :
    s.observes (s.platform.mmioBase + off) width = true ↔ width = 4 ∧ off = 0x08 ∧ s.status.busy = false := by
  have hstatus : regAt off = .status ↔ off = 0x08 := regAt_eq_iff nofun
  simp only [State.observes, regAccess, inBlock_offset _ h, Nat.add_sub_cancel_left, Bool.true_and, Bool.and_eq_true,
    Bool.not_eq_true', beq_iff_eq, wordAccess_iff, Option.ite_none_right_eq_some, Option.some.injEq, hstatus]
  exact ⟨fun ⟨⟨⟨hw, _⟩, ho⟩, hb⟩ => ⟨hw, ho, hb⟩, fun ⟨hw, ho, hb⟩ => ⟨⟨⟨hw, by omega⟩, ho⟩, hb⟩⟩

theorem step_of_blockLoad {s : State} {off width : Nat} {rest : List Event} (hoff : off < 256)
    (h : s.script = .load (s.platform.mmioBase + off) width :: rest) :
    step s = .next { s with
      script := rest
      hostData := s.blockLoad off width
      unseen := if s.observes (s.platform.mmioBase + off) width then [] else s.unseen } := by
  rw [step_of_load h, hostLoad, if_pos (inBlock_offset s.platform hoff), Nat.add_sub_cancel_left]
  rfl

theorem step_of_blockStore {s : State} {off : Nat} {bs : List Byte} {rest : List Event} (hoff : off < 256)
    (h : s.script = .store (s.platform.mmioBase + off) bs :: rest) :
    step s = .next ({ s with script := rest }.blockStore off bs) := by
  rw [step_of_store h, hostStore, if_pos (inBlock_offset s.platform hoff), Nat.add_sub_cancel_left]

/-- The four little-endian bytes of a word, stored at a multiple of 4, write the word to the register there. -/
theorem State.blockStore_word (s : State) {off : Nat} (w : Word) (h : off % 4 = 0) :
    s.blockStore off (leBytes 4 w.toNat) = s.writeReg (regAt off) w := by
  have hw : BitVec.ofNat 32 (leNat (leBytes 4 w.toNat)) = w := by
    rw [leNat_leBytes, Nat.mod_eq_of_lt (show w.toNat < 256 ^ 4 from w.isLt), BitVec.ofNat_toNat, BitVec.setWidth_eq]
  rw [State.blockStore, if_pos (wordAccess_iff.mpr ⟨leBytes_length 4 _, h⟩), hw]

theorem step_of_nextWrites {s : State} {off : Nat} {w : Word} {rest : List Event} (hoff : off < 256)
    (halign : off % 4 = 0) (h : s.nextWrites off w rest) :
    step s = .next ({ s with script := rest }.writeReg (regAt off) w) := by
  rw [step_of_blockStore hoff h, State.blockStore_word _ w halign]

/-! A store to CTRL. -/

theorem State.writeCtrl_of_srst (s : State) {w : Word} (h : w.getLsbD 1 = true) : s.writeCtrl w = s.resetEngine := if_pos h

theorem State.writeCtrl_of_noSrst (s : State) {w : Word} (h : w.getLsbD 1 = false) :
    s.writeCtrl w = { s with ie := w.getLsbD 0 } :=
  if_neg (Bool.eq_false_iff.mp h)

/-- Both resets are one operation on the state (70_reset R390, R391). -/
theorem step_of_nextResets {s : State} {rest : List Event} (h : s.nextResets rest) :
    step s = .next { s with script := rest }.resetEngine := by
  rcases h with h | ⟨w, hsrst, h⟩
  · exact step_of_powerOn h
  · rw [step_of_nextWrites (by omega) (by omega) h]
    exact congrArg _ (State.writeCtrl_of_srst _ hsrst)

end Sys2Proof.Machine
end

