-- ==== Sys2Proof/Proofs/Registers.lean ====
section
/-! PROOFS. The register block: STATUS and CTRL bit by bit, the halves of the 64-bit values, read-only registers, access
widths, and the values after a reset (10_state R20 to R40, 20_memory R75, 70_reset R390, R391). -/

namespace Sys2Proof.Machine

open Sys2Proof

/-! Bits and fields of a register word, as arithmetic on its value. -/

theorem getLsbD_eq_of_mod {n : Nat} {w : BitVec n} {k : Nat} {b : Bool} (h : w.toNat / 2 ^ k % 2 = b.toNat) :
    w.getLsbD k = b := by
  rw [BitVec.getLsbD, Nat.testBit_eq_decide_div_mod_eq, h]
  cases b <;> rfl

theorem extractLsb'_eq_of_mod {n k len : Nat} {w : BitVec n} {v : BitVec len} (h : w.toNat / 2 ^ k % 2 ^ len = v.toNat) :
    w.extractLsb' k len = v :=
  BitVec.eq_of_toNat_eq (by rw [BitVec.extractLsb'_toNat, Nat.shiftRight_eq_div_pow, h])

/-! STATUS. -/

theorem Status.word_toNat (t : Status) :
    t.word.toNat = t.busy.toNat + 2 * t.done.toNat + 4 * t.ovr.toNat + 256 * t.errcode.toNat := by
  have := t.busy.toNat_lt
  have := t.done.toNat_lt
  have := t.ovr.toNat_lt
  have := t.errcode.isLt
  rw [Status.word, BitVec.toNat_ofNat, Nat.mod_eq_of_lt (by omega)]

/-- How a host reads STATUS (10_state R23). -/
theorem Status.word_fields (t : Status) :
    t.word.getLsbD 0 = t.busy ∧ t.word.getLsbD 1 = t.done ∧ t.word.getLsbD 2 = t.ovr ∧
    t.word.extractLsb' 8 8 = t.errcode ∧ t.word.extractLsb' 3 5 = 0 ∧ t.word.extractLsb' 16 16 = 0 := by
  have hb := t.busy.toNat_lt
  have hd := t.done.toNat_lt
  have ho := t.ovr.toNat_lt
  have he := t.errcode.isLt
  have hw := t.word_toNat
  refine ⟨getLsbD_eq_of_mod ?_, getLsbD_eq_of_mod ?_, getLsbD_eq_of_mod ?_, extractLsb'_eq_of_mod ?_,
    extractLsb'_eq_of_mod ?_, extractLsb'_eq_of_mod ?_⟩
  all_goals
    simp only [hw, BitVec.ofNat_eq_ofNat, BitVec.toNat_ofNat]
    omega

/-- Settles O26: the store is one register write, and STATUS reads its fields. -/
theorem statusStoreClearsByOne : Obligations.StatusStoreClearsByOne := by
  refine ⟨fun s w rest h => ?_, fun s => s.status.word_fields⟩
  have hstatus : s.status.written w = { s.status with
      done := if w.getLsbD 1 then false else s.status.done
      ovr := if w.getLsbD 2 then false else s.status.ovr } := by
    unfold Status.written
    cases w.getLsbD 1 <;> cases w.getLsbD 2 <;> simp
  rw [step_of_nextWrites (by omega) (by omega) h, ← hstatus]
  rfl

/-! CTRL. -/

theorem ctrlWord_toNat (ie : Bool) : (ctrlWord ie).toNat = ie.toNat := by
  have := ie.toNat_lt
  rw [ctrlWord, BitVec.toNat_ofNat, Nat.mod_eq_of_lt (by omega)]

/-- Settles O27: the store is one register write, and CTRL reads IE alone. -/
theorem ctrlStoreSetsInterruptEnable : Obligations.CtrlStoreSetsInterruptEnable := by
  refine ⟨fun s w rest h hsrst => ⟨_, ?_, rfl, rfl⟩, fun s => ?_⟩
  · rw [step_of_nextWrites (by omega) (by omega) h]
    exact congrArg _ (State.writeCtrl_of_noSrst _ hsrst)
  · have hie := s.ie.toNat_lt
    have hw : (s.readReg .ctrl).toNat = s.ie.toNat := ctrlWord_toNat s.ie
    refine ⟨getLsbD_eq_of_mod ?_, extractLsb'_eq_of_mod ?_⟩
    all_goals
      simp only [hw, BitVec.ofNat_eq_ofNat, BitVec.toNat_ofNat]
      omega

/-! The halves of a 64-bit value. -/

/-- The low or the high half of a 64-bit value. -/
def halfOf (high : Bool) (v : DWord) : Word := if high then highHalf v else lowHalf v

/-- A 64-bit value with its low or its high half replaced. -/
def withHalf (high : Bool) (v : DWord) (w : Word) : DWord := if high then withHigh v w else withLow v w

theorem highHalf_lowHalf_toNat (v : DWord) : (highHalf v).toNat * 2 ^ 32 + (lowHalf v).toNat = v.toNat := by
  have := v.isLt
  simp only [highHalf, lowHalf, BitVec.extractLsb'_toNat, Nat.shiftRight_eq_div_pow]
  omega

theorem halfOf_withHalf_same (high : Bool) (v : DWord) (w : Word) : halfOf high (withHalf high v w) = w := by
  cases high
  · exact BitVec.extractLsb'_append_eq_right
  · exact BitVec.extractLsb'_append_eq_left

theorem halfOf_withHalf_other (high : Bool) (v : DWord) (w : Word) :
    halfOf (!high) (withHalf high v w) = halfOf (!high) v := by
  cases high
  · exact BitVec.extractLsb'_append_eq_left
  · exact BitVec.extractLsb'_append_eq_right

/-- Settles O29: the two halves make up the value, for each of the six. -/
theorem halvesAssembleValues : Obligations.HalvesAssembleValues := fun s =>
  ⟨highHalf_lowHalf_toNat s.args.src, highHalf_lowHalf_toNat s.args.dst, highHalf_lowHalf_toNat s.args.len,
    highHalf_lowHalf_toNat s.args.olen, highHalf_lowHalf_toNat s.args.cap, highHalf_lowHalf_toNat s.result⟩

/-! The ten argument halves: five values, each with a low and a high register (10_state R25 to R29). -/

/-- The five argument values. -/
inductive ArgName where
  | src | dst | len | olen | cap

/-- The argument value of a name. -/
def Args.get (as : Args) : ArgName → DWord
  | .src => as.src
  | .dst => as.dst
  | .len => as.len
  | .olen => as.olen
  | .cap => as.cap

/-- The arguments with one value replaced. -/
def Args.set (as : Args) (n : ArgName) (v : DWord) : Args :=
  match n with
  | .src => { as with src := v }
  | .dst => { as with dst := v }
  | .len => { as with len := v }
  | .olen => { as with olen := v }
  | .cap => { as with cap := v }

/-- The register of one half of an argument value. -/
def argHalf (high : Bool) : ArgName → Reg
  | .src => if high then .srcHi else .srcLo
  | .dst => if high then .dstHi else .dstLo
  | .len => if high then .lenHi else .lenLo
  | .olen => if high then .olenHi else .olenLo
  | .cap => if high then .capHi else .capLo

theorem Args.get_set_same (as : Args) (n : ArgName) (v : DWord) : (as.set n v).get n = v := by cases n <;> rfl

theorem Args.get_set_of_ne (as : Args) {n m : ArgName} (v : DWord) (h : m ≠ n) : (as.set n v).get m = as.get m := by
  cases n <;> cases m <;> first | rfl | contradiction

theorem State.readReg_argHalf (s : State) (high : Bool) (n : ArgName) :
    s.readReg (argHalf high n) = halfOf high (s.args.get n) := by
  cases n <;> cases high <;> rfl

theorem State.writeReg_argHalf (s : State) (high : Bool) (n : ArgName) (w : Word) :
    s.writeReg (argHalf high n) w = { s with args := s.args.set n (withHalf high (s.args.get n) w) } := by
  cases n <;> cases high <;> rfl

/-- A register is an argument half, or what it reads does not depend on the arguments. -/
theorem Reg.argHalf_or (r : Reg) :
    (∃ high n, r = argHalf high n) ∨
    r ∉ [Reg.srcLo, .srcHi, .dstLo, .dstHi, .lenLo, .lenHi, .olenLo, .olenHi, .capLo, .capHi] ∧
      ∀ (s : State) (as : Args), { s with args := as }.readReg r = s.readReg r := by
  cases r
  case srcLo => exact .inl ⟨false, .src, rfl⟩
  case srcHi => exact .inl ⟨true, .src, rfl⟩
  case dstLo => exact .inl ⟨false, .dst, rfl⟩
  case dstHi => exact .inl ⟨true, .dst, rfl⟩
  case lenLo => exact .inl ⟨false, .len, rfl⟩
  case lenHi => exact .inl ⟨true, .len, rfl⟩
  case olenLo => exact .inl ⟨false, .olen, rfl⟩
  case olenHi => exact .inl ⟨true, .olen, rfl⟩
  case capLo => exact .inl ⟨false, .cap, rfl⟩
  case capHi => exact .inl ⟨true, .cap, rfl⟩
  all_goals exact .inr ⟨by decide, fun _ _ => rfl⟩

theorem State.readReg_writeReg_argHalf_same (s : State) (high : Bool) (n : ArgName) (w : Word) :
    (s.writeReg (argHalf high n) w).readReg (argHalf high n) = w := by
  rw [State.writeReg_argHalf, State.readReg_argHalf, Args.get_set_same, halfOf_withHalf_same]

/-- Another register is the other half of the value, a half of another value, or no argument half. -/
theorem State.readReg_writeReg_argHalf_of_ne (s : State) {high : Bool} {n : ArgName} (w : Word) {r : Reg}
    (h : r ≠ argHalf high n) : (s.writeReg (argHalf high n) w).readReg r = s.readReg r := by
  rw [State.writeReg_argHalf]
  rcases r.argHalf_or with ⟨high', m, rfl⟩ | ⟨_, hframe⟩
  · rw [State.readReg_argHalf, State.readReg_argHalf]
    by_cases hm : m = n
    · subst hm
      obtain rfl : high' = !high := Bool.eq_not.mpr fun hh => h (by rw [hh])
      rw [Args.get_set_same, halfOf_withHalf_other]
    · rw [Args.get_set_of_ne _ _ hm]
  · exact hframe s _

/-- Settles O28: the register is one half of one argument value. -/
theorem argumentHalvesAreIndependent : Obligations.ArgumentHalvesAreIndependent := by
  intro s r w hr
  rcases r.argHalf_or with ⟨high, n, rfl⟩ | ⟨hno, _⟩
  · refine ⟨s.readReg_writeReg_argHalf_same high n w, fun r' h => s.readReg_writeReg_argHalf_of_ne w h, ?_⟩
    rw [State.writeReg_argHalf]
  · exact absurd hr hno

/-! Access widths and offsets. -/

/-- Settles O30: an access is one of the register block by its first byte, and reaches a register if it is aligned and 32
bits wide. -/
theorem registerAccessWidths : Obligations.RegisterAccessWidths := by
  refine ⟨fun s off width rest hoff h => ?_, fun s off bytes rest hoff h => ?_, rfl⟩
  · have hdata : s.blockLoad off width = if width = 4 ∧ off % 4 = 0 then leBytes 4 (s.readReg (regAt off)).toNat
        else List.replicate width 0 := if_congr wordAccess_iff rfl rfl
    rw [step_of_blockLoad hoff h, hdata, if_congr (s.observes_offset_iff width hoff) rfl rfl]
  · rw [step_of_blockStore hoff h]
    exact congrArg _ (if_congr wordAccess_iff rfl rfl)

/-! Read-only and reserved registers. -/

theorem capsWord_toNat {p : Platform} (h : p.valid = true) : (capsWord p).toNat = p.addrW + 0x400 := by
  have haddr : p.addrW ≤ 64 := by
    simp only [Platform.valid, Bool.and_eq_true, decide_eq_true_eq] at h
    obtain ⟨⟨⟨⟨⟨_, haddr⟩, _⟩, _⟩, _⟩, _⟩ := h
    exact haddr
  rw [capsWord, Config.lzThrottleN0, BitVec.toNat_ofNat]
  omega

/-- Settles O31, by the register for the writes. -/
theorem readOnlyRegistersIgnoreWrites : Obligations.ReadOnlyRegistersIgnoreWrites := by
  refine ⟨fun s r w hr => ?_, fun s => ⟨rfl, rfl⟩, fun s h => capsWord_toNat h, fun off h => regAt_reserved h⟩
  cases r
  case id | resultLo | resultHi | caps | reserved => rfl
  all_goals simp at hr

/-! Reset. -/

/-- Every register but CAPS, which reads the platform, reads after a reset as it does after power-on (10_state R40). -/
theorem State.readReg_resetEngine (s : State) {r : Reg} (h : r ≠ .caps) :
    s.resetEngine.readReg r = State.reset.readReg r := by
  cases r
  case caps => exact absurd rfl h
  all_goals rfl

/-- Settles O32: both resets are `State.resetEngine`. -/
theorem resetRestoresRegisters : Obligations.ResetRestoresRegisters := fun _ _ h =>
  ⟨_, step_of_nextResets h, fun _ hr => State.readReg_resetEngine _ hr, rfl, rfl, rfl, rfl, rfl,
    fun hidle => State.abortedMem_of_idle _ hidle⟩

/-- Settles O44: memory is empty, nothing is in flight, and no hazard is recorded. -/
theorem resetHasInvariant : Obligations.ResetHasInvariant where
  platform := by decide
  canonical := rfl
  implemented := rfl
  inFlight := nofun
  code := List.mem_cons_self
  errorResult := fun _ => rfl
  capacity := Nat.le_refl 0
  idle := fun _ => ⟨rfl, rfl⟩
  racedInSource := nofun
  storesInDest := nofun

end Sys2Proof.Machine
end

