-- ==== Sys2Proof/Proofs/Busy.lean ====
section
/-! PROOFS. The phase: which events change BUSY, and that no other event touches the command in flight (10_state R35, R37,
40_control R120). -/

namespace Sys2Proof.Machine

open Sys2Proof

/-- BUSY, CMD and the latched copies are the same in both states. -/
def sameCommand (s t : State) : Prop :=
  t.status.busy = s.status.busy ∧ t.latchCmd = s.latchCmd ∧ t.latch = s.latch ∧ t.cmd = s.cmd

theorem sameCommand_refl (s : State) : sameCommand s s := ⟨rfl, rfl, rfl, rfl⟩

theorem engineStep_idle {s t : State} (h : engineStep s = .next t) : t.status.busy = false := by
  obtain ⟨w, r, he, _⟩ := engineStep_inversion s
  obtain rfl : State.complete { s with work := w } r = t := by rw [he] at h; injection h
  rcases State.complete_cases { s with work := w } r with ⟨e, hc⟩ | ⟨out, _, _, hc⟩ <;> rw [hc] <;> rfl

/-- After the engine's turn no command is in flight. -/
theorem engineTurn_idle {s t : State} (h : engineTurn s = .next t) : t.status.busy = false := by
  unfold engineTurn at h
  split at h
  · exact engineStep_idle h
  · rename_i hb
    cases h
    exact Bool.eq_false_iff.mpr hb

/-- A register write keeps the phase and the command, resets the engine, or starts a command. -/
theorem State.writeReg_phase (s : State) (r : Reg) (w : Word) :
    sameCommand s (s.writeReg r w) ∨
    (r = .ctrl ∧ w.getLsbD 1 = true ∧ (s.writeReg r w).status.busy = false) ∨
    (r = .cmd ∧ s.status.busy = false ∧ (s.writeReg r w).status.busy = true) := by
  rcases s.writeReg_cases r w with
    he | ⟨_, he⟩ | ⟨_, _, he⟩ | ⟨hr, hsrst, he⟩ | ⟨_, he⟩ | ⟨_, _, he⟩ | ⟨hr, hidle, he⟩
  case inr.inr.inr.inl => exact .inr (.inl ⟨hr, hsrst, by rw [he]; rfl⟩)
  case inr.inr.inr.inr.inr.inr => exact .inr (.inr ⟨hr, hidle, by rw [he]; rfl⟩)
  all_goals exact .inl (by rw [he]; exact ⟨rfl, rfl, rfl, rfl⟩)

/-- A store keeps the phase and the command, but one to CTRL with SRST set and one to CMD of an idle engine. -/
theorem hostStore_phase {s t : State} {a : Nat} {bs : List Byte} (h : hostStore s a bs = .next t) :
    sameCommand s t ∨
    (a = s.platform.mmioBase + 0x04 ∧ (BitVec.ofNat 32 (leNat bs)).getLsbD 1 = true ∧ t.status.busy = false) ∨
    (a = s.platform.mmioBase + 0x0C ∧ s.status.busy = false ∧ t.status.busy = true) := by
  rcases hostStore_inversion s a bs with ⟨hblock, he⟩ | ⟨_, he⟩ | he <;> rw [he] at h <;> cases h
  · rcases s.blockStore_cases (a - s.platform.mmioBase) bs with hb | ⟨_, _, hb⟩ <;> rw [hb]
    · exact .inl (sameCommand_refl s)
    · rcases s.writeReg_phase (regAt (a - s.platform.mmioBase)) (BitVec.ofNat 32 (leNat bs)) with
        hsame | ⟨hr, hreset⟩ | ⟨hr, hstart⟩
      · exact .inl hsame
      · exact .inr (.inl ⟨eq_of_regAt hblock (r := .ctrl) nofun hr, hreset⟩)
      · exact .inr (.inr ⟨eq_of_regAt hblock (r := .cmd) nofun hr, hstart⟩)
  · obtain ⟨_, _, _, _, _, hf⟩ := State.storeBytes_frame bs s a
    rw [hf]
    exact .inl ⟨rfl, rfl, rfl, rfl⟩

theorem hostLoad_phase {s t : State} {coming : List Byte} {a w : Nat} (h : hostLoad s coming a w = .next t) :
    sameCommand s t := by
  rcases hostLoad_inversion s coming a w with ⟨_, he⟩ | ⟨_, he⟩ | he <;> rw [he] at h <;> cases h
  all_goals exact ⟨rfl, rfl, rfl, rfl⟩

/-- What a step can do to the phase: the engine's turn and a reset leave the engine idle, a store to CMD starts a command,
and every other step keeps BUSY, CMD and the latched copies. -/
theorem step_phase {s t : State} (h : step s = .next t) :
    sameCommand s t ∨
    (t.status.busy = false ∧ (s.engineNext ∨ ∃ rest, s.script = .powerOn :: rest ∨
      ∃ bytes, s.script = .store (s.platform.mmioBase + 0x04) bytes :: rest ∧
        (BitVec.ofNat 32 (leNat bytes)).getLsbD 1 = true)) ∨
    (s.status.busy = false ∧ t.status.busy = true ∧
      ∃ bytes rest, s.script = .store (s.platform.mmioBase + 0x0C) bytes :: rest) := by
  rcases step_inversion s with
    ⟨hs, he⟩ | ⟨rest, hs, he⟩ | ⟨a, w, rest, _, he⟩ | ⟨a, bs, rest, hs, he⟩ | ⟨rest, hs, he⟩
  all_goals rw [he] at h
  · exact .inr (.inl ⟨engineTurn_idle h, .inl (.inl hs)⟩)
  · exact .inr (.inl ⟨engineTurn_idle h, .inl (.inr (by rw [hs]; rfl))⟩)
  · exact .inl (hostLoad_phase (s := { s with script := rest }) h)
  · rcases hostStore_phase h with hsame | ⟨rfl, hsrst, hidle⟩ | ⟨rfl, hidle, hbusy⟩
    · exact .inl hsame
    · exact .inr (.inl ⟨hidle, .inr ⟨rest, .inr ⟨bs, hs, hsrst⟩⟩⟩)
    · exact .inr (.inr ⟨hidle, hbusy, bs, rest, hs⟩)
  · cases h
    exact .inr (.inl ⟨rfl, .inr ⟨rest, .inl hs⟩⟩)

/-- Settles O36: a step that keeps BUSY at 1 is none of those that change the phase. -/
theorem latchedCopiesFixedWhileBusy : Obligations.LatchedCopiesFixedWhileBusy := by
  intro s t h hs ht
  rcases step_phase h with ⟨_, hsame⟩ | ⟨hidle, _⟩ | ⟨hidle, _⟩
  · exact hsame
  · rw [ht] at hidle; cases hidle
  · rw [hs] at hidle; cases hidle

/-- Settles O37, by what the step does to the phase. -/
theorem busyChangesOnlyAtItsEvents : Obligations.BusyChangesOnlyAtItsEvents := by
  intro s t h
  rcases step_phase h with ⟨hbusy, _⟩ | ⟨hidle, hev⟩ | ⟨hidle, hbusy, hev⟩
  · rw [hbusy]
    exact ⟨fun h1 h0 => absurd (h1.symm.trans h0) nofun, fun h0 h1 => absurd (h1.symm.trans h0) nofun⟩
  · exact ⟨fun _ _ => hev, fun _ h1 => absurd (h1.symm.trans hidle) nofun⟩
  · exact ⟨fun h1 _ => absurd (h1.symm.trans hidle) nofun, fun _ _ => hev⟩

end Sys2Proof.Machine
end

