-- ==== Sys2Proof/Proofs/WorkingStorage.lean ====
section
/-! PROOFS. No step depends on the working storage (10_state R38, R40): from two states that differ only in it, every
operation of the model gives two that differ only in it. -/

namespace Sys2Proof.Machine

open Sys2Proof

/-- Two outcomes that differ at most in the working storage of the next state. -/
inductive SameButWork : Host.Outcome State Fault Refusal → Host.Outcome State Fault Refusal → Prop
  | next (s : State) (w : Work) : SameButWork (.next s) (.next { s with work := w })
  | fault (f : Fault) : SameButWork (.fault f) (.fault f)
  | refused (r : Refusal) : SameButWork (.refused r) (.refused r)

theorem sameButWork_next {s t : State} (h : ∃ w, t = { s with work := w }) : SameButWork (.next s) (.next t) := by
  obtain ⟨w, rfl⟩ := h
  exact .next s w

/-! The engine's turn. The checks and the outputs of the commands read no working storage. -/

/-- A completion stages its output in the working storage. -/
theorem State.complete_work (s : State) (w : Work) (r : Except Err (List Byte)) :
    ∃ w', { s with work := w }.complete r = { s.complete r with work := w' } := by
  cases r with
  | error e => exact ⟨w, rfl⟩
  | ok out =>
    simp only [State.complete]
    split
    · exact ⟨w, rfl⟩
    · exact ⟨{ w with staging := out }, rfl⟩

theorem exec_sameButWork (i : Instr) (s : State) (w : Work) : SameButWork (exec i s) (exec i { s with work := w }) := by
  cases i with
  | nop b | shuffle b | unshuffle b | delta b | deltaInv b | blkDec b => exact sameButWork_next (s.complete_work w _)
  | blkEnc lz b =>
    have hcomplete (v v' : Work) (r : Except Err (List Byte)) :
        SameButWork (.next ({ s with work := v }.complete r)) (.next ({ s with work := v' }.complete r)) :=
      sameButWork_next (State.complete_work { s with work := v } v' r)
    have hv : validateBlkEnc b { s with work := w } = validateBlkEnc b s := rfl
    simp only [exec, execBlkEnc, hv]
    cases validateBlkEnc b s with
    | error e => exact sameButWork_next (s.complete_work w _)
    | ok u => exact hcomplete _ _ _

theorem engineStep_sameButWork (s : State) (w : Work) : SameButWork (engineStep s) (engineStep { s with work := w }) := by
  unfold engineStep
  cases decode s.latchCmd with
  | ok i => exact exec_sameButWork i s w
  | error e => exact sameButWork_next (s.complete_work w _)

theorem engineTurn_sameButWork (s : State) (w : Work) : SameButWork (engineTurn s) (engineTurn { s with work := w }) := by
  unfold engineTurn
  split
  · exact engineStep_sameButWork s w
  · exact .next s w

/-! Stores. -/

/-- A reset gives the working storage its reset value; every other register write keeps it. -/
theorem State.writeReg_work (s : State) (w : Work) (r : Reg) (x : Word) :
    ∃ w', { s with work := w }.writeReg r x = { s.writeReg r x with work := w' } := by
  cases r
  case ctrl =>
    simp only [State.writeReg, State.writeCtrl]
    split
    · exact ⟨Work.initial, rfl⟩
    · exact ⟨w, rfl⟩
  case cmd =>
    simp only [State.writeReg, State.writeCmd]
    split
    · exact ⟨w, rfl⟩
    · exact ⟨w, rfl⟩
  all_goals exact ⟨w, rfl⟩

theorem State.blockStore_work (s : State) (w : Work) (off : Nat) (bs : List Byte) :
    ∃ w', { s with work := w }.blockStore off bs = { s.blockStore off bs with work := w' } := by
  unfold State.blockStore
  split
  · exact s.writeReg_work w _ _
  · exact ⟨w, rfl⟩

theorem State.storeBytes_work (bs : List Byte) (s : State) (w : Work) (a : Nat) :
    { s with work := w }.storeBytes a bs = { s.storeBytes a bs with work := w } := by
  induction bs generalizing s a with
  | nil => rfl
  | cons b bs ih => exact ih (s.storeByte a b) (a + 1)

theorem hostStore_sameButWork (s : State) (w : Work) (a : Nat) (bs : List Byte) :
    SameButWork (hostStore s a bs) (hostStore { s with work := w } a bs) := by
  unfold hostStore
  split
  · exact sameButWork_next (s.blockStore_work w _ bs)
  · split
    · exact sameButWork_next ⟨w, s.storeBytes_work bs w a⟩
    · exact .fault _

/-! Loads. What a load sees of a command in flight is the output to come, which running the script finds. -/

theorem hostLoad_sameButWork (s : State) (w : Work) (coming : List Byte) (a width : Nat) :
    SameButWork (hostLoad s coming a width) (hostLoad { s with work := w } coming a width) := by
  unfold hostLoad
  split
  · exact sameButWork_next ⟨w, rfl⟩
  · split
    · exact sameButWork_next ⟨w, rfl⟩
    · exact .fault _

theorem State.atTurn_work (es : List Event) (s : State) (w : Work) :
    ∃ w', State.atTurn es { s with work := w } = (State.atTurn es s).map (fun t => { t with work := w' }) := by
  induction es generalizing s w with
  | nil => exact ⟨w, rfl⟩
  | cons e es ih =>
    cases e with
    | engine => exact ⟨w, rfl⟩
    | powerOn => exact ⟨w, rfl⟩
    | load a width =>
      simp only [State.atTurn]
      split
      · exact ih s w
      · exact ⟨w, rfl⟩
    | store a bs =>
      have h := hostStore_sameButWork s w a bs
      simp only [State.atTurn]
      generalize hostStore s a bs = o at h
      generalize hostStore { s with work := w } a bs = o' at h
      cases h with
      | next t w' =>
        dsimp only
        split
        · exact ih t w'
        · exact ⟨w, rfl⟩
      | fault f => exact ⟨w, rfl⟩
      | refused r => exact ⟨w, rfl⟩

/-- The state in which the command in flight gives its output to come. -/
def State.turnState (s : State) : State :=
  { ((State.atTurn s.script s).getD { s with script := [] }) with hostStores := [] }

theorem State.turnState_work (s : State) (w : Work) :
    ∃ w', { s with work := w }.turnState = { s.turnState with work := w' } := by
  obtain ⟨w', h⟩ := State.atTurn_work s.script s w
  unfold State.turnState
  rw [h]
  cases State.atTurn s.script s with
  | none => exact ⟨w, rfl⟩
  | some t => exact ⟨w', rfl⟩

/-- The bytes that a command whose step ends in an outcome wrote at `dst`. -/
def outputAt (dst : Nat) : Host.Outcome State Fault Refusal → List Byte
  | .next t => if t.status.errcode = 0 then t.mem.readBytes dst t.result.toNat else []
  | .fault _ => []
  | .refused _ => []

theorem State.comingOutput_eq (s : State) : s.comingOutput = outputAt s.latch.dst.toNat (engineStep s.turnState) := rfl

theorem SameButWork.outputAt_eq {o o' : Host.Outcome State Fault Refusal} (h : SameButWork o o') (dst : Nat) :
    outputAt dst o' = outputAt dst o := by
  cases h <;> rfl

theorem State.comingOutput_work (s : State) (w : Work) : { s with work := w }.comingOutput = s.comingOutput := by
  obtain ⟨w', hturn⟩ := s.turnState_work w
  rw [State.comingOutput_eq, State.comingOutput_eq, hturn]
  exact (engineStep_sameButWork s.turnState w').outputAt_eq _

/-! Steps. -/

theorem step_sameButWork (s : State) (w : Work) : SameButWork (step s) (step { s with work := w }) := by
  rcases step_inversion s with
    ⟨hs, he⟩ | ⟨rest, hs, he⟩ | ⟨a, width, rest, hs, he⟩ | ⟨a, bs, rest, hs, he⟩ | ⟨rest, hs, he⟩
  all_goals rw [he]
  · rw [step_of_nil (s := { s with work := w }) hs]
    exact engineTurn_sameButWork s w
  · rw [step_of_engine (s := { s with work := w }) hs]
    exact engineTurn_sameButWork { s with script := rest } w
  · rw [step_of_load (s := { s with work := w }) hs, s.comingOutput_work w]
    exact hostLoad_sameButWork { s with script := rest } w s.comingOutput a width
  · rw [step_of_store (s := { s with work := w }) hs]
    exact hostStore_sameButWork { s with script := rest } w a bs
  · rw [step_of_powerOn (s := { s with work := w }) hs]
    exact sameButWork_next ⟨Work.initial, rfl⟩

/-- Settles O23: the two steps have outcomes of one kind, and their next states differ at most in the working storage. -/
theorem workingStorageUnobserved : Obligations.WorkingStorageUnobserved := by
  intro s t w hs
  have h := step_sameButWork s w
  rw [hs] at h
  generalize step { s with work := w } = o at h ⊢
  cases h with
  | next _ w' => exact ⟨w', rfl⟩

end Sys2Proof.Machine
end

