-- ==== Sys2Proof/Proofs/SystemMemory.lean ====
section
/-! PROOFS. System memory: what a command that succeeds writes there (20_memory R66, 40_control R128), and what a host's
loads and stores do there (20_memory R60, R65, R73; 70_reset R400, R401). -/

namespace Sys2Proof.Machine

open Sys2Proof

/-! A command that succeeds. -/

theorem Err.code_ne_zero (e : Err) : e.code ≠ 0 := by cases e <;> decide

/-- A step of the engine that reports success wrote an output that fits the capacity; only NOP, whose output is empty,
gives one without the checks of the windows. -/
theorem engineStep_success {s t : State} (h : engineStep s = .next t) (hok : t.status.errcode = 0) :
    ∃ (w : Work) (out : List Byte), t = { s with work := w }.completeOk out ∧ out.length ≤ s.latch.cap.toNat ∧
      (out = [] ∨ s.windowsOk) := by
  obtain ⟨w, r, heq, hwin⟩ := engineStep_inversion s
  obtain rfl : State.complete { s with work := w } r = t := by rw [heq] at h; injection h
  rcases State.complete_cases { s with work := w } r with ⟨e, hc⟩ | ⟨out, hr, hle, hc⟩
  · rw [hc] at hok; exact absurd hok e.code_ne_zero
  · exact ⟨w, out, hc, hle, hwin out hr⟩

theorem State.completeOk_result_toNat (s : State) {out : List Byte} (h : out.length ≤ s.latch.cap.toNat) :
    (s.completeOk out).result.toNat = out.length := by
  rw [State.completeOk_result, BitVec.toNat_ofNat, Nat.mod_eq_of_lt (h.trans_lt s.latch.cap.isLt)]

theorem State.completeOk_memoryFrame (s : State) (out : List Byte) :
    memoryFrame s (s.completeOk out) s.latch.dst.toNat out.length := fun a ha => by
  rw [State.completeOk_mem, Memory.read_writeBytes_outside _ _ _ _ (by rwa [s.delivered_length])]

/-- Where the checks passed, an output that fits the capacity lies outside the source window, for the windows do not
overlap (20_memory R64). -/
theorem State.windowsOk.source_outside_output {s : State} (h : s.windowsOk) {n a : Nat} (hn : n ≤ s.latch.cap.toNat)
    (ha : s.inSource a = true) : a < s.latch.dst.toNat ∨ s.latch.dst.toNat + n ≤ a := by
  obtain ⟨_, _, _, _, hdisjoint, _, _⟩ := h
  simp only [State.inSource, Bool.and_eq_true, decide_eq_true_eq] at ha
  omega

/-- Settles O21: all that a success writes is its output, at `L.DST`. -/
theorem successWritesOnlyResult : Obligations.SuccessWritesOnlyResult := by
  intro s t h hok
  obtain ⟨w, out, rfl, hle, hwin⟩ := engineStep_success h hok
  have hframe : memoryFrame s (State.completeOk { s with work := w } out) s.latch.dst.toNat out.length :=
    State.completeOk_memoryFrame { s with work := w } out
  rw [State.completeOk_result_toNat { s with work := w } hle]
  refine ⟨hle, hframe, fun a ha => hframe a ?_⟩
  rcases hwin with rfl | hwin
  · exact Nat.lt_or_ge a s.latch.dst.toNat
  · exact hwin.source_outside_output hle ha

/-! Host accesses outside the register block: each reaches implemented memory or faults (20_memory R60). -/

theorem hostStore_inMemory {s : State} {a : Nat} {bs : List Byte} (hblock : inBlock s.platform a = false)
    (hmem : a + bs.length ≤ s.platform.memSize) : hostStore s a bs = .next (s.storeBytes a bs) := by
  simp [hostStore, hblock, inMemory, hmem]

theorem hostStore_beyond {s : State} {a : Nat} {bs : List Byte} (hblock : inBlock s.platform a = false)
    (hmem : s.platform.memSize < a + bs.length) : hostStore s a bs = .fault (.noMemory a) := by
  simp [hostStore, hblock, inMemory, hmem]

theorem hostLoad_inMemory {s : State} (coming : List Byte) {a w : Nat} (hblock : inBlock s.platform a = false)
    (hmem : a + w ≤ s.platform.memSize) :
    hostLoad s coming a w = .next { s with
      hostData := (List.range w).map (fun k => s.loadByte coming (a + k))
      loads := s.loads + 1 } := by
  simp [hostLoad, hblock, inMemory, hmem]

theorem hostLoad_beyond {s : State} (coming : List Byte) {a w : Nat} (hblock : inBlock s.platform a = false)
    (hmem : s.platform.memSize < a + w) : hostLoad s coming a w = .fault (.noMemory a) := by
  simp [hostLoad, hblock, inMemory, hmem]

/-! Stores. -/

/-- A byte that no unobserved completion holds open is the byte stored. -/
theorem State.storeBytes_read_of_closed (s : State) (bs : List Byte) (a : Nat) {k : Nat} (hk : k < bs.length)
    (hclosed : s.unseenAt (a + k) = none) : (s.storeBytes a bs).mem.read (a + k) = bs.getD k 0 := by
  rcases s.storeBytes_read_inside bs a k hk with hread | ⟨u, hopen, _⟩
  · exact hread
  · rw [hclosed] at hopen; cases hopen

/-- Where every completion is observed, the stored bytes read back. -/
theorem State.readBytes_storeBytes (s : State) (bs : List Byte) (a : Nat) (h : s.unseen = []) :
    (s.storeBytes a bs).mem.readBytes a bs.length = bs := by
  have hread (x : Nat) := State.storeBytes_mem_read bs s a x h
  calc (s.storeBytes a bs).mem.readBytes a bs.length
      = (s.mem.writeBytes a bs).readBytes a bs.length := by simp only [Memory.readBytes_eq, hread]
    _ = bs := s.mem.readBytes_writeBytes a bs

/-! Loads. -/

/-- A load returns the byte in memory where no command in flight may write it and no record holds it open: what the
command will write lies in its destination window. -/
theorem State.loadByte_comingOutput_of_closed (s : State) (rest : List Event) {a : Nat}
    (hopen : ∀ r ∈ s.unseen, r.addr ≠ a) (hdest : s.status.busy = true → s.inDest a = false) :
    { s with script := rest }.loadByte s.comingOutput a = s.mem.read a := by
  refine State.loadByte_of_closed { s with script := rest } s.comingOutput a (fun hbusy hin => ?_) hopen
  have hlen := s.comingOutput_length_le hbusy
  have hout := hdest hbusy
  simp only [State.inDest, Bool.and_eq_false_iff, decide_eq_false_iff_not] at hout
  dsimp only at hin
  omega

/-- Settles O38: what each access does is what `storeBytes` and `loadByte` do, after the event is consumed. -/
theorem hostReachesMemory : Obligations.HostReachesMemory := by
  refine ⟨?store, ?load, ?loadFault, ?storeFault⟩
  case store =>
    intro s a bs rest hs hblock hmem
    obtain ⟨m, r, h, u, n, hframe⟩ := State.storeBytes_frame bs { s with script := rest } a
    refine ⟨_, (step_of_store hs).trans (hostStore_inMemory hblock hmem), by rw [hframe],
      ?outside, ?inside, ?records, ?observed⟩
    case outside => exact fun x hx => State.storeBytes_read_outside bs { s with script := rest } a x hx
    case inside =>
      exact fun k hk => ⟨State.storeBytes_read_of_closed { s with script := rest } bs a hk, fun hbusy hin =>
        State.storeBytes_raced bs { s with script := rest } a k hbusy hk hin⟩
    case records => exact State.storeBytes_records bs { s with script := rest } a
    case observed =>
      intro hunseen
      obtain ⟨hu, hd⟩ := State.storeBytes_unseen_nil bs { s with script := rest } a hunseen
      exact ⟨hu, hd, State.readBytes_storeBytes { s with script := rest } bs a hunseen⟩
  case load =>
    intro s a w rest hs hblock hmem
    refine ⟨_, (step_of_load hs).trans (hostLoad_inMemory _ hblock hmem), rfl, by simp, ?closed, ?quiet⟩
    case closed =>
      intro k hk hopen hdest
      simpa [List.getD, hk] using s.loadByte_comingOutput_of_closed rest hopen hdest
    case quiet =>
      intro hidle hunseen
      rw [Memory.readBytes_eq]
      exact List.map_congr_left fun k _ => State.loadByte_of_quiet { s with script := rest } _ (a + k) hidle hunseen
  case loadFault =>
    exact fun s a w rest hs hblock hmem => (step_of_load hs).trans (hostLoad_beyond _ hblock hmem)
  case storeFault =>
    exact fun s a bs rest hs hblock hmem => (step_of_store hs).trans (hostStore_beyond hblock hmem)

end Sys2Proof.Machine
end

