-- ==== Sys2Proof/Proofs/Encoding.lean ====
section
/-! PROOFS. Command words (30_encoding): every word has a reserved field or the fields of one command; the decoder
refuses it in the first case and answers that command in the second, so decoding and encoding are inverse. -/

namespace Sys2Proof.Machine

open Sys2Proof

/-! The fields of a word. -/

theorem wordField_eq_extractLsb' (w : Word) (hi lo : Nat) :
    wordField w hi lo = (w.extractLsb' lo (hi + 1 - lo)).toNat := by
  rw [wordField, BitVec.extractLsb'_toNat, Nat.shiftRight_eq_div_pow]

theorem wordField_bit (w : Word) (k : Nat) : wordField w k k = (w.getLsbD k).toNat := by
  rw [wordField, Nat.add_sub_cancel_left, pow_one, BitVec.getLsbD, Nat.toNat_testBit]

/-- A word is the sum of its five fields, each at its place (30_encoding R90). -/
theorem toNat_eq_sum_fields (w : Word) :
    w.toNat = wordField w 31 16 * 2 ^ 16 + wordField w 15 9 * 2 ^ 9 + wordField w 8 8 * 2 ^ 8 +
      wordField w 7 4 * 2 ^ 4 + wordField w 3 0 := by
  have := w.isLt
  simp only [wordField]
  omega

/-- The five fields of the word are those of the command (30_encoding R90). -/
structure FieldsOf (w : Word) (i : Instr) : Prop where
  op : wordField w 3 0 = i.op
  rsv0 : wordField w 7 4 = 0
  lzEn : wordField w 8 8 = i.lzBit
  rsv1 : wordField w 15 9 = 0
  bpp : wordField w 31 16 = i.bpp

theorem FieldsOf.wf {w : Word} {i : Instr} (h : FieldsOf w i) : i.wf = true := by
  have hlt : i.bpp < 2 ^ 16 := h.bpp ▸ Nat.mod_lt _ (by decide)
  exact decide_eq_true hlt

theorem FieldsOf.encode_eq {w : Word} {i : Instr} (h : FieldsOf w i) : encode i = w := by
  have hsum : w.toNat = i.bpp * 2 ^ 16 + i.lzBit * 2 ^ 8 + i.op := by
    simpa [h.op, h.rsv0, h.lzEn, h.rsv1, h.bpp] using toNat_eq_sum_fields w
  rw [encode, ← hsum, BitVec.ofNat_toNat, BitVec.setWidth_eq]

theorem encode_fieldsOf {i : Instr} (h : i.wf = true) : FieldsOf (encode i) i := by
  have hfields : Laws.EncodedFields.Statement i := by
    cases i with
    | nop b => exact Laws.EncodedFields.nop b
    | shuffle b => exact Laws.EncodedFields.shuffle b
    | unshuffle b => exact Laws.EncodedFields.unshuffle b
    | delta b => exact Laws.EncodedFields.delta b
    | deltaInv b => exact Laws.EncodedFields.deltaInv b
    | blkEnc lz b => exact Laws.EncodedFields.blkEnc lz b
    | blkDec b => exact Laws.EncodedFields.blkDec b
  obtain ⟨hop, hrsv0, hlz, hrsv1, hbpp⟩ := hfields h
  exact ⟨hop, hrsv0, hlz, hrsv1, hbpp⟩

/-! Reserved words. -/

/-- A field of the word has a reserved value (30_encoding R93 to R95). -/
def ReservedWord (w : Word) : Prop :=
  7 ≤ wordField w 3 0 ∨ wordField w 7 4 ≠ 0 ∨ wordField w 15 9 ≠ 0 ∨ (wordField w 8 8 = 1 ∧ wordField w 3 0 ≠ 5)

/-- The bits that 30_encoding R93 to R95 name are the fields. -/
theorem reservedWord_iff_bits (w : Word) :
    ReservedWord w ↔ 7 ≤ (w.extractLsb' 0 4).toNat ∨ w.extractLsb' 4 4 ≠ 0 ∨ w.extractLsb' 9 7 ≠ 0 ∨
      (w.getLsbD 8 = true ∧ w.extractLsb' 0 4 ≠ 5) := by
  simp [ReservedWord, wordField_bit, wordField_eq_extractLsb', ← BitVec.toNat_inj]

theorem reservedWord_or_fieldsOf (w : Word) : ReservedWord w ∨ ∃ i, FieldsOf w i := by
  by_cases hr : ReservedWord w
  · exact .inl hr
  right
  obtain ⟨hop, hrsv0, hrsv1, hlz⟩ : wordField w 3 0 < 7 ∧ wordField w 7 4 = 0 ∧ wordField w 15 9 = 0 ∧
      (wordField w 8 8 = 1 → wordField w 3 0 = 5) := by simpa [ReservedWord] using hr
  have hbit : wordField w 8 8 = (w.getLsbD 8).toNat := wordField_bit w 8
  have hlz0 (h : wordField w 3 0 ≠ 5) : wordField w 8 8 = 0 := by
    have := (w.getLsbD 8).toNat_le
    omega
  match hk : wordField w 3 0, hop with
  | 0, _ => exact ⟨.nop _, hk, hrsv0, hlz0 (by omega), hrsv1, rfl⟩
  | 1, _ => exact ⟨.shuffle _, hk, hrsv0, hlz0 (by omega), hrsv1, rfl⟩
  | 2, _ => exact ⟨.unshuffle _, hk, hrsv0, hlz0 (by omega), hrsv1, rfl⟩
  | 3, _ => exact ⟨.delta _, hk, hrsv0, hlz0 (by omega), hrsv1, rfl⟩
  | 4, _ => exact ⟨.deltaInv _, hk, hrsv0, hlz0 (by omega), hrsv1, rfl⟩
  | 5, _ => exact ⟨.blkEnc (w.getLsbD 8) _, hk, hrsv0, hbit, hrsv1, rfl⟩
  | 6, _ => exact ⟨.blkDec _, hk, hrsv0, hlz0 (by omega), hrsv1, rfl⟩

/-! The decoder. -/

theorem decode_of_fieldsOf {w : Word} {i : Instr} (h : FieldsOf w i) : decode w = .ok i := by
  obtain ⟨hop, hrsv0, hlz, hrsv1, hbpp⟩ := h
  simp only [decode, hop, hrsv0, hlz, hrsv1, hbpp]
  cases i with
  | blkEnc lz b => cases lz <;> rfl
  | nop b | shuffle b | unshuffle b | delta b | deltaInv b | blkDec b => rfl

theorem decode_of_reservedWord {w : Word} (h : ReservedWord w) : ∃ e, decode w = .error e := by
  simp only [decode]
  split
  · exact ⟨.reservedBits, rfl⟩
  · split
    · exact ⟨.lzNotAllowed, rfl⟩
    · rename_i hrsv hlz
      have hop : 7 ≤ wordField w 3 0 := by
        unfold ReservedWord at h
        tauto
      split
      case h_8 => exact ⟨.reservedOpcode, rfl⟩
      all_goals omega

theorem decode_eq_ok_iff {w : Word} {i : Instr} : decode w = .ok i ↔ FieldsOf w i := by
  refine ⟨fun h => ?_, decode_of_fieldsOf⟩
  rcases reservedWord_or_fieldsOf w with hr | ⟨j, hj⟩
  · obtain ⟨e, he⟩ := decode_of_reservedWord hr
    rw [he] at h; cases h
  · rw [decode_of_fieldsOf hj] at h; cases h
    exact hj

theorem decode_eq_error_iff {w : Word} : (∃ e, decode w = .error e) ↔ ReservedWord w := by
  refine ⟨fun ⟨e, he⟩ => ?_, decode_of_reservedWord⟩
  rcases reservedWord_or_fieldsOf w with hr | ⟨j, hj⟩
  · exact hr
  · rw [decode_of_fieldsOf hj] at he; cases he

/-- Only NOP has the fields of a word whose low half is 0. -/
theorem decode_eq_nop_iff {w : Word} {bpp : Nat} :
    decode w = .ok (.nop bpp) ↔ wordField w 15 0 = 0 ∧ bpp = wordField w 31 16 := by
  have hlow : wordField w 15 0 = wordField w 15 9 * 2 ^ 9 + wordField w 8 8 * 2 ^ 8 + wordField w 7 4 * 2 ^ 4 +
      wordField w 3 0 := by
    simp only [wordField]
    omega
  rw [decode_eq_ok_iff, hlow]
  constructor
  · rintro ⟨hop, hrsv0, hlz, hrsv1, hbpp⟩
    simp [hop, hrsv0, hlz, hrsv1, hbpp, Instr.op, Instr.lzBit, Instr.bpp]
  · rintro ⟨hzero, rfl⟩
    exact ⟨show wordField w 3 0 = 0 by omega, by omega, show wordField w 8 8 = 0 by omega, by omega, rfl⟩

/-- Settles O1: the word of a well-formed command has the command's fields. -/
theorem decodeInvertsEncode : Obligations.DecodeInvertsEncode :=
  fun _ hwf => decode_of_fieldsOf (encode_fieldsOf hwf)

/-- Settles O2: a word is the sum of its fields, which are the decoded command's. -/
theorem encodeInvertsDecode : Obligations.EncodeInvertsDecode := fun _ _ h =>
  have hfields := decode_eq_ok_iff.mp h
  ⟨hfields.wf, hfields.encode_eq⟩

/-- Settles O4: the decoder runs on each of the words of R102, and O2 gives the way back. -/
theorem commonWordsDecode : Obligations.CommonWordsDecode := by
  intro p hp
  have hdecode : decode p.1 = .ok p.2 := by
    revert p
    decide
  exact ⟨hdecode, (encodeInvertsDecode p.1 p.2 hdecode).2⟩

/-! The turn of an engine that runs an illegal word. -/

theorem step_of_engineNext {s : State} (h : s.engineNext) : step s = engineTurn { s with script := s.script.tail } := by
  obtain hnil | hhead := h
  · rw [step_of_nil hnil, hnil, List.tail_nil, ← hnil]
  · exact step_of_engine (List.eq_cons_of_mem_head? hhead)

theorem step_of_busy_engineNext {s : State} (hbusy : s.status.busy = true) (h : s.engineNext) :
    step s = engineStep { s with script := s.script.tail } :=
  (step_of_engineNext h).trans (if_pos hbusy)

theorem engineStep_of_illegal {s : State} (h : ∃ e, decode s.latchCmd = .error e) :
    engineStep s = .next (s.completeError .illegalCommand) := by
  obtain ⟨e, he⟩ := h
  rw [engineStep, he]
  rfl

theorem State.completeError_endedInError (s : State) (e : Err) : endedInError s (s.completeError e) e := by
  simp [endedInError, completionFrame]

/-- Settles O3, from the fields of the word and the completion of an illegal one. -/
theorem reservedWordsAreIllegal : Obligations.ReservedWordsAreIllegal := by
  refine ⟨?illegal, ?nop, ?turn⟩
  case illegal => exact fun w => (reservedWord_iff_bits w).symm.trans decode_eq_error_iff.symm
  case nop =>
    intro w bpp
    rw [decode_eq_nop_iff, wordField_eq_extractLsb', wordField_eq_extractLsb', ← BitVec.toNat_inj]
    rfl
  case turn =>
    intro s hbusy hnext hillegal
    exact ⟨_, (step_of_busy_engineNext hbusy hnext).trans
      (engineStep_of_illegal (s := { s with script := s.script.tail }) hillegal),
      State.completeError_endedInError _ .illegalCommand⟩

end Sys2Proof.Machine
end

