-- ==== Sys2Proof/Proofs/Control.lean ====
section
/-! PROOFS. The start and the completion of a command (40_control R120 to R127, R130): what a store to CMD does, what the
engine's turn runs, and what every completion leaves unchanged. -/

namespace Sys2Proof.Machine

open Sys2Proof

/-! A store to CMD. -/

theorem step_of_cmdStore_idle {s : State} {w : Word} {rest : List Event} (hidle : s.status.busy = false)
    (h : s.nextWrites 0x0C w rest) : step s = .next ({ s with script := rest }.startCommand w) := by
  rw [step_of_nextWrites (by omega) (by omega) h]
  exact congrArg _ (State.writeCmd_of_idle _ w hidle)

theorem step_of_cmdStore_busy {s : State} {w : Word} {rest : List Event} (hbusy : s.status.busy = true)
    (h : s.nextWrites 0x0C w rest) : step s = .next { s with script := rest }.dropCommand := by
  rw [step_of_nextWrites (by omega) (by omega) h]
  exact congrArg _ (State.writeCmd_of_busy _ w hbusy)

/-- Settles O24: the store is the start of the command. -/
theorem startLatchesArguments : Obligations.StartLatchesArguments := fun _ _ _ hidle h =>
  ⟨_, step_of_cmdStore_idle hidle h, rfl, rfl, rfl, rfl, rfl, rfl, rfl, rfl, rfl, rfl⟩

/-- Settles O25: the store is dropped. -/
theorem droppedCommandSetsOverrun : Obligations.DroppedCommandSetsOverrun := fun _ _ _ hbusy h =>
  step_of_cmdStore_busy hbusy h

/-! The engine's turn. -/

theorem engineStep_of_decode {s : State} {i : Instr} (h : decode s.latchCmd = .ok i) : engineStep s = exec i s := by
  rw [engineStep, h]

/-- Settles O5: the turn of a busy engine is its one step, and an idle engine has none. -/
theorem stepRunsDecodedCommand : Obligations.StepRunsDecodedCommand := by
  refine ⟨fun s i hbusy hnext hdecode _ => ?_, fun s hidle hnext => ?_⟩
  · rw [step_of_busy_engineNext hbusy hnext]
    exact engineStep_of_decode (s := { s with script := s.script.tail }) hdecode
  · rw [step_of_engineNext hnext]
    exact if_neg (Bool.eq_false_iff.mp hidle)

/-- Settles O6: the start leaves the word latched and the engine's turn next. -/
theorem writtenCommandRuns : Obligations.WrittenCommandRuns := by
  intro s w i rest hidle h hdecode
  refine ⟨_, step_of_cmdStore_idle hidle h, rfl, rfl, ?_⟩
  rw [step_of_busy_engineNext rfl (.inr rfl)]
  exact engineStep_of_decode hdecode

/-! Completion. -/

theorem State.completeError_completionFrame (s : State) (e : Err) : completionFrame s (s.completeError e) := by
  obtain ⟨_, _, _, hframe⟩ := s.completeError_endedInError e
  exact hframe

theorem State.completeOk_completionFrame (s : State) (out : List Byte) : completionFrame s (s.completeOk out) := by
  simp [completionFrame]

theorem State.complete_completionFrame (s : State) (r : Except Err (List Byte)) :
    completionFrame s (s.complete r) := by
  rcases s.complete_cases r with ⟨e, hc⟩ | ⟨out, _, _, hc⟩ <;> rw [hc]
  · exact s.completeError_completionFrame e
  · exact s.completeOk_completionFrame out

/-- A completion with an output that fits the capacity is a success (40_control R125, R128). -/
theorem State.completeOk_succeededWith (s : State) {out : List Byte} (h : out.length ≤ s.latch.cap.toNat) :
    succeededWith s (s.completeOk out) out.length :=
  ⟨rfl, s.completeOk_result_toNat h, s.completeOk_memoryFrame out, s.completeOk_completionFrame out⟩

/-- Settles O7: NOP completes with the empty output, which fits every capacity. -/
theorem nopSucceeds : Obligations.NopSucceeds := fun _ s =>
  ⟨s.completeOk [], congrArg Host.Outcome.next (s.complete_ok_of_le [] (Nat.zero_le _)),
    s.completeOk_succeededWith (Nat.zero_le _)⟩

/-- Settles O19: the engine's step is a completion, whatever the latched word is. -/
theorem engineStepCompletes : Obligations.EngineStepCompletes := by
  refine ⟨fun s => ?_, rfl, rfl, rfl, rfl, rfl, rfl, rfl, rfl, rfl, rfl, rfl⟩
  obtain ⟨w, r, heq, _⟩ := engineStep_inversion s
  exact ⟨_, heq, State.complete_completionFrame { s with work := w } r, engineStep_code_reported heq⟩

/-- Settles O20: a completion whose code is not 0 is one with an error. -/
theorem errorWritesNothing : Obligations.ErrorWritesNothing := by
  intro s t h hne
  obtain ⟨w, r, heq, _⟩ := engineStep_inversion s
  obtain rfl : State.complete { s with work := w } r = t := by rw [heq] at h; injection h
  rcases State.complete_cases { s with work := w } r with ⟨e, hc⟩ | ⟨out, _, _, hc⟩ <;> rw [hc] at hne ⊢
  · exact ⟨rfl, rfl⟩
  · exact absurd rfl hne

end Sys2Proof.Machine
end

