-- ==== Sys2Proof/Proofs/Validation.lean ====
section
/-! PROOFS. Every command validates, performs and completes (40_control R123 to R125). Its checks are the one list of R123,
so the first that fails is its error; and what it performs, without a race, depends on the command, OLEN and the source
bytes alone. -/

namespace Sys2Proof.Machine

open Sys2Proof

/-! Validate, perform, complete. -/

/-- `Validate()` of a command, by the checks that its meaning makes (40_control R123). -/
def validate (i : Instr) (s : State) : Except Err Unit :=
  match i with
  | .nop _ => .ok ()
  | .shuffle bpp | .unshuffle bpp => validateTransposition bpp s
  | .delta _ | .deltaInv _ => validateDelta s
  | .blkEnc _ bpp => validateBlkEnc bpp s
  | .blkDec bpp => validateBlkDec bpp s

/-- `Perform()` of a command (40_control R124). -/
def perform (i : Instr) (s : State) : Except Err (List Byte) :=
  match i with
  | .nop _ => .ok []
  | .shuffle bpp => .ok (s.kernelOutput (shuffle bpp))
  | .unshuffle bpp => .ok (s.kernelOutput (unshuffle bpp))
  | .delta _ => .ok (s.kernelOutput delta)
  | .deltaInv _ => .ok (s.kernelOutput deltaInv)
  | .blkEnc lzEn bpp => .ok (s.encodeOutput lzEn bpp)
  | .blkDec bpp => s.decodeOutput bpp

/-- What a command does, said once: it completes with the outcome of its checks and of what it performs; before that, only the
working storage may change. -/
theorem exec_eq_complete (i : Instr) (s : State) :
    ∃ w : Work, exec i s = .next ({ s with work := w }.complete (do validate i s; perform i s)) := by
  cases i with
  | nop b | shuffle b | unshuffle b | delta b | deltaInv b | blkDec b => exact ⟨s.work, rfl⟩
  | blkEnc lz b =>
    simp only [exec, execBlkEnc, validate]
    cases validateBlkEnc b s with
    | error e => exact ⟨s.work, rfl⟩
    | ok u => exact ⟨_, rfl⟩

/-! The checks are the list of 40_control R123. -/

/-- The outcome of checks of which `o` is the first failure. -/
def firstFailure (o : Option Err) : Except Err Unit := o.elim (.ok ()) .error

theorem firstFailure_none : firstFailure none = .ok () := rfl

/-- An entry of a list of checks is one check before the others. -/
theorem firstFailure_ite (c : Prop) [Decidable c] (e : Err) (o : Option Err) :
    firstFailure (if c then some e else o) = (do failIf c e; firstFailure o) := by
  by_cases hc : c <;> simp [failIf, hc, bind, Except.bind, firstFailure]

/-- Two checks with one error are one check. -/
theorem failIf_or (c d : Bool) (e : Err) : failIf (c || d) e = (do failIf c e; failIf d e) := by
  cases c <;> rfl

theorem failIf_bind_ok (c : Bool) (e : Err) : (do failIf c e; .ok ()) = failIf c e := by
  cases c <;> rfl

theorem checkBpp_eq (bpp : Nat) : checkBpp bpp = failIf (decide (bpp = 0)) .invalidParameter := by
  cases bpp <;> rfl

theorem checkWhole_eq (bpp : Nat) (s : State) :
    checkWhole bpp s = failIf (decide (s.latch.len.toNat % bpp ≠ 0)) .invalidParameter := by
  rw [checkWhole, decide_not]; rfl

theorem checkLimit_eq (n : Nat) : checkLimit n = failIf (decide (2 ^ 24 ≤ n)) .invalidParameter := rfl

/-- The checks of a command are R123's list: the entries that name the command are its checks, in the list's order, and no
other entry can fail it. -/
theorem validate_eq_firstFailure (i : Instr) (s : State) : validate i s = firstFailure (validateByR123 i s) := by
  cases i with
  | nop b => rfl
  | shuffle b | unshuffle b | delta b | deltaInv b | blkEnc lz b | blkDec b =>
    simp only [validate, validateTransposition, validateDelta, validateBlkEnc, validateBlkDec, checkWindows, checkBpp_eq,
      checkWhole_eq, checkLimit_eq, checkWrap, checkOverlap, checkBus, checkCapacity, validateByR123, Instr.op, Instr.bpp,
      Nat.reduceEqDiff, OfNat.ofNat_ne_zero, one_ne_zero, if_false, or_true, or_false, true_and, false_and,
      firstFailure_ite, firstFailure_none, bind_assoc, failIf_or, failIf_bind_ok, Bool.decide_or, Bool.decide_and,
      Bool.or_assoc, Bool.and_assoc]

theorem validate_ok_iff {i : Instr} {s : State} : validate i s = .ok () ↔ validateByR123 i s = none := by
  rw [validate_eq_firstFailure]
  cases validateByR123 i s <;> simp [firstFailure]

theorem exec_of_failure {i : Instr} {s : State} {e : Err} (h : validateByR123 i s = some e) :
    ∃ w : Work, exec i s = .next ({ s with work := w }.completeError e) := by
  obtain ⟨w, heq⟩ := exec_eq_complete i s
  rw [validate_eq_firstFailure, h] at heq
  exact ⟨w, heq⟩

theorem exec_of_valid {i : Instr} {s : State} (h : validateByR123 i s = none) :
    ∃ w : Work, exec i s = .next ({ s with work := w }.complete (perform i s)) := by
  obtain ⟨w, heq⟩ := exec_eq_complete i s
  rw [validate_ok_iff.mpr h] at heq
  exact ⟨w, heq⟩

/-! The commands that cannot fail after the checks. -/

/-- NOP and the byte kernels perform without an error, and their output fits the capacity that the checks asked for. -/
theorem perform_fits {i : Instr} {s : State} (h : validateByR123 i s = none) (hop : i.op ≤ 4) :
    ∃ out, perform i s = .ok out ∧ out.length ≤ s.latch.cap.toNat := by
  have hv := validate_ok_iff.mpr h
  cases i with
  | nop b => exact ⟨[], rfl, Nat.zero_le _⟩
  | shuffle b =>
    obtain ⟨_, hwhole, _, hcap⟩ := validateTransposition_ok.mp hv
    exact ⟨_, rfl, (s.kernelOutput_length _ fun x hx => shuffle_length b x (hx ▸ hwhole)).trans_le hcap⟩
  | unshuffle b =>
    obtain ⟨_, hwhole, _, hcap⟩ := validateTransposition_ok.mp hv
    exact ⟨_, rfl, (s.kernelOutput_length _ fun x hx => unshuffle_length b x (hx ▸ hwhole)).trans_le hcap⟩
  | delta b =>
    obtain ⟨_, hcap⟩ := validateDelta_ok.mp hv
    exact ⟨_, rfl, (s.kernelOutput_length _ fun x _ => delta_length x).trans_le hcap⟩
  | deltaInv b =>
    obtain ⟨_, hcap⟩ := validateDelta_ok.mp hv
    exact ⟨_, rfl, (s.kernelOutput_length _ fun x _ => deltaInv_length x).trans_le hcap⟩
  | blkEnc lz b | blkDec b => simp [Instr.op] at hop

/-- Settles O18: the checks are R123's list, and what the kernels perform fits where the list lets them pass. -/
theorem firstFailingCheckDecides : Obligations.FirstFailingCheckDecides := by
  refine ⟨fun s h => ?illegal, fun i s e h => ?failure, fun i s h hop => ?pass⟩
  case illegal => exact ⟨_, engineStep_of_illegal h, s.completeError_endedInError .illegalCommand⟩
  case failure =>
    obtain ⟨w, heq⟩ := exec_of_failure h
    exact ⟨_, heq, State.completeError_endedInError { s with work := w } e⟩
  case pass =>
    obtain ⟨w, heq⟩ := exec_of_valid h
    obtain ⟨out, hout, hle⟩ := perform_fits h hop
    rw [hout, State.complete_ok_of_le { s with work := w } out hle] at heq
    exact ⟨_, heq, rfl⟩

/-! What a command performs without a race. -/

/-- What a command performs on the source bytes `x` with OLEN `n`, where no race changes them (40_control R124). -/
def performOn (i : Instr) (n : Nat) (x : List Byte) : Except Err (List Byte) :=
  match i with
  | .nop _ => .ok []
  | .shuffle bpp => .ok (shuffle bpp x)
  | .unshuffle bpp => .ok (unshuffle bpp x)
  | .delta _ => .ok (delta x)
  | .deltaInv _ => .ok (deltaInv x)
  | .blkEnc lzEn bpp => .ok (encodeSuperblock lzEn bpp x)
  | .blkDec bpp => decodeSuperblock bpp n x

/-- On a settled source window a command performs on its bytes. -/
theorem perform_of_settled {i : Instr} {s : State} (hs : s.settled) (h : validateByR123 i s = none) :
    perform i s = performOn i s.latch.olen.toNat s.source := by
  have hv := validate_ok_iff.mpr h
  have hkernel {f : List Byte → List Byte} (hf : (f s.source).length = s.source.length) :
      s.kernelOutput f = f s.source := s.kernelOutput_of_settled f hs (hf.trans s.source_length)
  cases i with
  | nop b => rfl
  | shuffle b =>
    obtain ⟨_, hwhole, _, _⟩ := validateTransposition_ok.mp hv
    exact congrArg _ (hkernel (shuffle_length b _ (by rwa [s.source_length])))
  | unshuffle b =>
    obtain ⟨_, hwhole, _, _⟩ := validateTransposition_ok.mp hv
    exact congrArg _ (hkernel (unshuffle_length b _ (by rwa [s.source_length])))
  | delta b => exact congrArg _ (hkernel (delta_length _))
  | deltaInv b => exact congrArg _ (hkernel (deltaInv_length _))
  | blkEnc lz b => exact congrArg _ (s.encodeOutput_of_settled lz b hs)
  | blkDec b => exact s.decodeOutput_of_settled b hs

/-- Where no host store raced the destination window, a host finds the output there (40_control R125). -/
theorem State.readBytes_completeOk (s : State) {out : List Byte} (hstores : s.hostStores = [])
    (hle : out.length ≤ s.latch.cap.toNat) :
    (s.completeOk out).mem.readBytes s.latch.dst.toNat (s.completeOk out).result.toNat = out := by
  rw [s.completeOk_result_toNat hle, State.completeOk_mem, s.delivered_of_noStores out hstores, Memory.readBytes_writeBytes]

/-- Two states with one capacity and no raced destination complete alike: with the same code, RESULT and output. -/
theorem State.complete_agree {s₁ s₂ : State} (r : Except Err (List Byte)) (hcap : s₁.latch.cap = s₂.latch.cap)
    (h₁ : s₁.hostStores = []) (h₂ : s₂.hostStores = []) :
    (s₁.complete r).status.errcode = (s₂.complete r).status.errcode ∧
    (s₁.complete r).result = (s₂.complete r).result ∧
    ((s₁.complete r).status.errcode = 0 →
      (s₁.complete r).mem.readBytes s₁.latch.dst.toNat (s₁.complete r).result.toNat =
        (s₂.complete r).mem.readBytes s₂.latch.dst.toNat (s₂.complete r).result.toNat) := by
  cases r with
  | error e => exact ⟨rfl, rfl, fun h => absurd h e.code_ne_zero⟩
  | ok out =>
    rcases Nat.lt_or_ge s₁.latch.cap.toNat out.length with hlt | hle
    · rw [s₁.complete_ok_of_lt out hlt, s₂.complete_ok_of_lt out (hcap ▸ hlt)]
      exact ⟨rfl, rfl, fun h => absurd h (Err.code_ne_zero .dstOverflow)⟩
    · have hle' : out.length ≤ s₂.latch.cap.toNat := hcap ▸ hle
      rw [s₁.complete_ok_of_le out hle, s₂.complete_ok_of_le out hle']
      exact ⟨rfl, rfl, fun _ => (s₁.readBytes_completeOk h₁ hle).trans (s₂.readBytes_completeOk h₂ hle').symm⟩

/-- Settles O22: both commands perform on the same bytes and complete alike. -/
theorem outputDependsOnOperandsOnly : Obligations.OutputDependsOnOperandsOnly := by
  intro i s₁ s₂ t₁ t₂ ⟨hs₁, hstores₁⟩ ⟨hs₂, hstores₂⟩ hsource holen hcap hv₁ hv₂ hexec₁ hexec₂
  obtain ⟨w₁, heq₁⟩ := exec_of_valid hv₁
  obtain ⟨w₂, heq₂⟩ := exec_of_valid hv₂
  have hperform : perform i s₂ = perform i s₁ := by
    rw [perform_of_settled hs₁ hv₁, perform_of_settled hs₂ hv₂, hsource, holen]
  obtain rfl : State.complete { s₁ with work := w₁ } (perform i s₁) = t₁ := by rw [heq₁] at hexec₁; injection hexec₁
  obtain rfl : State.complete { s₂ with work := w₂ } (perform i s₁) = t₂ := by
    rw [heq₂, hperform] at hexec₂; injection hexec₂
  exact State.complete_agree (s₁ := { s₁ with work := w₁ }) (s₂ := { s₂ with work := w₂ }) (perform i s₁) hcap hstores₁
    hstores₂

end Sys2Proof.Machine
end

