-- ==== Sys2Proof/Proofs/Transpose.lean ====
section
/-! PROOFS. Byte transposition (41_transpose R148 to R156). The two maps byte by byte, each the inverse of the other; and
what a command whose performing gives an output leaves in memory, for SHUFFLE and UNSHUFFLE. -/

namespace Sys2Proof.Machine

open Sys2Proof

/-! The maps, byte by byte. -/

theorem pieces_getD_getD (k n : Nat) (x : List Byte) {i j : Nat} (hi : i < n) (hj : j < k) :
    ((pieces k n x).getD i []).getD j 0 = x.getD (i * k + j) 0 := by
  have hpiece : (pieces k n x).getD i [] = (x.drop (i * k)).take k := by
    rw [List.getD_eq_getElem (pieces k n x) [] (by simpa using hi), pieces_getElem k n i x hi]
  rw [hpiece]
  simp [List.getD, hj]

/-- Byte p of element j goes to byte p·N + j (41_transpose R148). -/
theorem shuffle_getD (b : Nat) (x : List Byte) {j p : Nat} (hj : j < x.length / b) (hp : p < b) :
    (shuffle b x).getD (p * (x.length / b) + j) 0 = x.getD (j * b + p) 0 := by
  have hcolumn := columns_flatten_getD b (pieces b (x.length / b) x) hp (j := j) (by simpa using hj)
  rwa [pieces_length, pieces_getD_getD _ _ _ hj hp] at hcolumn

/-- Byte p·N + j goes to byte p of element j (41_transpose R155). -/
theorem unshuffle_getD (b : Nat) (x : List Byte) {j p : Nat} (hj : j < x.length / b) (hp : p < b) :
    (unshuffle b x).getD (j * b + p) 0 = x.getD (p * (x.length / b) + j) 0 := by
  have hcolumn := columns_flatten_getD (x.length / b) (pieces (x.length / b) b x) hj (j := p) (by simpa using hp)
  rwa [pieces_length, pieces_getD_getD _ _ _ hp hj] at hcolumn

/-! The maps undo each other. -/

/-- The byte of column `j` in row `i` is one of the `m * n` bytes of `m` rows of `n`. -/
theorem row_add_column_lt {m n i j : Nat} (hi : i < m) (hj : j < n) : i * n + j < m * n :=
  calc i * n + j < (i + 1) * n := by rw [Nat.succ_mul]; exact Nat.add_lt_add_left hj _
    _ ≤ m * n := Nat.mul_le_mul_right n hi

/-- Byte `p` of element `j` of `n` bytes is one of them. -/
theorem element_byte_lt {n b j p : Nat} (h : n % b = 0) (hj : j < n / b) (hp : p < b) : j * b + p < n :=
  (row_add_column_lt hj hp).trans_eq (Nat.div_mul_cancel (Nat.dvd_of_mod_eq_zero h))

/-- Byte `j` of plane `p` of `n` bytes is one of them. -/
theorem plane_byte_lt {n b j p : Nat} (h : n % b = 0) (hj : j < n / b) (hp : p < b) : p * (n / b) + j < n :=
  (row_add_column_lt hp hj).trans_eq (Nat.mul_div_cancel' (Nat.dvd_of_mod_eq_zero h))

/-- Two byte sequences that fill `m` rows of `n` are equal when they agree at every row and column. -/
theorem ext_rows {m n : Nat} {x y : List Byte} (hx : x.length = m * n) (hy : y.length = m * n)
    (h : ∀ i j, i < m → j < n → x.getD (i * n + j) 0 = y.getD (i * n + j) 0) : x = y := by
  refine List.ext_getElem (hx.trans hy.symm) fun k hkx hky => ?_
  have hk : k < m * n := hx ▸ hkx
  have hn : 0 < n := Nat.pos_of_mul_pos_left (Nat.zero_lt_of_lt hk)
  have hrow := h (k / n) (k % n) ((Nat.div_lt_iff_lt_mul hn).mpr hk) (Nat.mod_lt k hn)
  rwa [Nat.div_add_mod', List.getD_eq_getElem _ _ hkx, List.getD_eq_getElem _ _ hky] at hrow

theorem unshuffle_shuffle (b : Nat) (x : List Byte) (h : x.length % b = 0) : unshuffle b (shuffle b x) = x := by
  have hlen : (shuffle b x).length = x.length := shuffle_length b x h
  have hrows : x.length = x.length / b * b := (Nat.div_mul_cancel (Nat.dvd_of_mod_eq_zero h)).symm
  refine ext_rows (m := x.length / b) (n := b) ?_ hrows fun j p hj hp => ?_
  · rw [unshuffle_length b _ (hlen ▸ h), hlen]; exact hrows
  · rw [unshuffle_getD b _ (hlen ▸ hj) hp, hlen, shuffle_getD b x hj hp]

theorem shuffle_unshuffle (b : Nat) (x : List Byte) (h : x.length % b = 0) : shuffle b (unshuffle b x) = x := by
  have hlen : (unshuffle b x).length = x.length := unshuffle_length b x h
  have hplanes : x.length = b * (x.length / b) := (Nat.mul_div_cancel' (Nat.dvd_of_mod_eq_zero h)).symm
  refine ext_rows (m := b) (n := x.length / b) ?_ hplanes fun p j hp hj => ?_
  · rw [shuffle_length b _ (hlen ▸ h), hlen]; exact hplanes
  · have hbyte := shuffle_getD b (unshuffle b x) (hlen ▸ hj) hp
    rwa [hlen, unshuffle_getD b x hj hp] at hbyte

/-- Settles O45: both bytes of R148 exist, so the bytes agree as options too. -/
theorem shuffleIsABijection : Obligations.ShuffleIsABijection := by
  intro b x _ h
  have hlen : (shuffle b x).length = x.length := shuffle_length b x h
  refine ⟨hlen, fun j p hj hp => ?_, unshuffle_shuffle b x h, shuffle_unshuffle b x h⟩
  have hout : p * (x.length / b) + j < (shuffle b x).length := (plane_byte_lt h hj hp).trans_eq hlen.symm
  have hin : j * b + p < x.length := element_byte_lt h hj hp
  have hbyte := shuffle_getD b x hj hp
  rw [List.getD_eq_getElem _ _ hout, List.getD_eq_getElem _ _ hin] at hbyte
  rw [List.getElem?_eq_getElem hout, List.getElem?_eq_getElem hin, hbyte]

/-! What a command leaves in memory. -/

/-- Without a race, on operands that every check accepts, a command whose output fits the capacity produces it
(40_control R124, R125, R128). -/
theorem producesOutput_of_performOn {i : Instr} {s : State} {out : List Byte} (hv : validateByR123 i s = none)
    (hs : s.hazardFree) (hout : performOn i s.latch.olen.toNat s.source = .ok out)
    (hle : out.length ≤ s.latch.cap.toNat) : producesOutput i s out := by
  obtain ⟨hsettled, hstores⟩ := hs
  obtain ⟨w, heq⟩ := exec_of_valid hv
  have hsucceeded := State.completeOk_succeededWith { s with work := w } hle
  have hread := State.readBytes_completeOk { s with work := w } hstores hle
  rw [State.completeOk_result_toNat { s with work := w } hle] at hread
  rw [perform_of_settled hsettled hv, hout, State.complete_ok_of_le { s with work := w } out hle] at heq
  exact ⟨_, heq, hsucceeded, hread⟩

/-- What a command produces is the source of the state that its output feeds. -/
theorem source_of_outputFeeds {i : Instr} {s t s' : State} {out : List Byte} (hp : producesOutput i s out)
    (hexec : exec i s = .next t) (hfeeds : outputFeeds s t s') : s'.source = out := by
  obtain ⟨u, hu, ⟨_, hresult, _⟩, hread⟩ := hp
  obtain ⟨_, hsource⟩ := hfeeds
  obtain rfl : u = t := by rw [hu] at hexec; injection hexec
  rw [hsource, hresult, hread]

/-- A command that produces as many bytes as its source has succeeds with LEN, and each byte of the destination reads as the
byte of its output. -/
theorem exec_of_producesOutput {i : Instr} {s : State} {out : List Byte} (hp : producesOutput i s out)
    (hlen : out.length = s.latch.len.toNat) :
    ∃ t, exec i s = .next t ∧ succeededWith s t s.latch.len.toNat ∧
      ∀ k, k < s.latch.len.toNat → t.mem.read (s.latch.dst.toNat + k) = out.getD k 0 := by
  obtain ⟨t, hexec, hsucceeded, hread⟩ := hp
  rw [hlen] at hsucceeded hread
  exact ⟨t, hexec, hsucceeded, fun k hk => by rw [← t.mem.readBytes_getD _ _ k hk, hread]⟩

/-! SHUFFLE and UNSHUFFLE. -/

theorem validateByR123_shuffle {bpp : Nat} {s : State} :
    validateByR123 (.shuffle bpp) s = none ↔
      bpp ≠ 0 ∧ s.latch.len.toNat % bpp = 0 ∧ s.windowsOk ∧ s.latch.len.toNat ≤ s.latch.cap.toNat :=
  validate_ok_iff.symm.trans validateTransposition_ok

theorem validateByR123_unshuffle {bpp : Nat} {s : State} :
    validateByR123 (.unshuffle bpp) s = none ↔
      bpp ≠ 0 ∧ s.latch.len.toNat % bpp = 0 ∧ s.windowsOk ∧ s.latch.len.toNat ≤ s.latch.cap.toNat :=
  validate_ok_iff.symm.trans validateTransposition_ok

/-- SHUFFLE writes the shuffle map of its source (41_transpose R150). -/
theorem shuffle_producesOutput {bpp : Nat} {s : State} (hv : validateByR123 (.shuffle bpp) s = none) (hs : s.hazardFree) :
    producesOutput (.shuffle bpp) s (shuffle bpp s.source) := by
  obtain ⟨_, hwhole, _, hcap⟩ := validateByR123_shuffle.mp hv
  rw [← s.source_length] at hwhole hcap
  exact producesOutput_of_performOn hv hs rfl ((shuffle_length bpp _ hwhole).trans_le hcap)

/-- UNSHUFFLE writes the unshuffle map of its source (41_transpose R155). -/
theorem unshuffle_producesOutput {bpp : Nat} {s : State} (hv : validateByR123 (.unshuffle bpp) s = none)
    (hs : s.hazardFree) : producesOutput (.unshuffle bpp) s (unshuffle bpp s.source) := by
  obtain ⟨_, hwhole, _, hcap⟩ := validateByR123_unshuffle.mp hv
  rw [← s.source_length] at hwhole hcap
  exact producesOutput_of_performOn hv hs rfl ((unshuffle_length bpp _ hwhole).trans_le hcap)

/-- Settles O8: the bytes SHUFFLE writes are those of the shuffle map of its source window. -/
theorem shuffleTransposes : Obligations.ShuffleTransposes := by
  intro bpp s hbpp hwhole hwindows hcap hs
  have hv := validateByR123_shuffle.mpr ⟨Nat.ne_of_gt hbpp, hwhole, hwindows, hcap⟩
  have hlen := shuffle_length bpp s.source (by rwa [s.source_length])
  rw [s.source_length] at hlen
  obtain ⟨t, hexec, hsucceeded, hread⟩ := exec_of_producesOutput (shuffle_producesOutput hv hs) hlen
  refine ⟨t, hexec, hsucceeded, fun j p hj hp => ?_⟩
  have hbyte := shuffle_getD bpp s.source (j := j) (by rwa [s.source_length]) hp
  rw [s.source_length] at hbyte
  rw [hread _ (plane_byte_lt hwhole hj hp), hbyte, s.source_getD _ (element_byte_lt hwhole hj hp)]

/-- Settles O9: the bytes UNSHUFFLE writes are those of the unshuffle map of its source window. -/
theorem unshuffleTransposesBack : Obligations.UnshuffleTransposesBack := by
  intro bpp s hbpp hwhole hwindows hcap hs
  have hv := validateByR123_unshuffle.mpr ⟨Nat.ne_of_gt hbpp, hwhole, hwindows, hcap⟩
  have hlen := unshuffle_length bpp s.source (by rwa [s.source_length])
  rw [s.source_length] at hlen
  obtain ⟨t, hexec, hsucceeded, hread⟩ := exec_of_producesOutput (unshuffle_producesOutput hv hs) hlen
  refine ⟨t, hexec, hsucceeded, fun j p hj hp => ?_⟩
  have hbyte := unshuffle_getD bpp s.source (j := j) (by rwa [s.source_length]) hp
  rw [s.source_length] at hbyte
  rw [hread _ (element_byte_lt hwhole hj hp), hbyte, s.source_getD _ (plane_byte_lt hwhole hj hp)]

/-- Settles O15: the second command's source is what the first produced, and the maps undo each other. -/
theorem shuffleCommandsUndoEachOther : Obligations.ShuffleCommandsUndoEachOther := by
  intro bpp s t s' hs hfeeds
  refine ⟨fun hv hexec hv' => ?_, fun hv hexec hv' => ?_⟩
  · obtain ⟨_, hwhole, _, _⟩ := validateByR123_shuffle.mp hv
    rw [← s.source_length] at hwhole
    have hback := unshuffle_producesOutput hv' hfeeds.1
    rwa [source_of_outputFeeds (shuffle_producesOutput hv hs) hexec hfeeds, unshuffle_shuffle bpp _ hwhole] at hback
  · obtain ⟨_, hwhole, _, _⟩ := validateByR123_unshuffle.mp hv
    rw [← s.source_length] at hwhole
    have hback := shuffle_producesOutput hv' hfeeds.1
    rwa [source_of_outputFeeds (unshuffle_producesOutput hv hs) hexec hfeeds, shuffle_unshuffle bpp _ hwhole] at hback

end Sys2Proof.Machine
end

