-- ==== Sys2Proof/Proofs/Delta.lean ====
section
/-! PROOFS. Byte delta (42_delta R168 to R177). The streams of a byte sequence, said once for both its forms; what a stream
kernel applied to them does byte by byte, and that inverse kernels undo each other; and what DELTA and DELTA_INV leave in
memory. -/

namespace Sys2Proof.Machine

open Sys2Proof

/-! Pieces of a sequence that goes on after them. -/

theorem pieces_flatten_append_drop (k n : Nat) (x : List Byte) : (pieces k n x).flatten ++ x.drop (n * k) = x := by
  induction n generalizing x with
  | zero => simp [pieces]
  | succ n ih =>
    have hrest := ih (x.drop k)
    rw [List.drop_drop, Nat.add_comm, ← Nat.succ_mul] at hrest
    rw [pieces, List.flatten_cons, List.append_assoc, hrest, List.take_append_drop]

theorem pieces_mem_length_of_le {k n : Nat} {x : List Byte} (h : n * k ≤ x.length) :
    ∀ e ∈ pieces k n x, e.length = k := by
  induction n generalizing x with
  | zero => simp [pieces]
  | succ n ih =>
    rw [Nat.succ_mul] at h
    have hrest := ih (x := x.drop k) (by rw [List.length_drop]; omega)
    rw [pieces, List.forall_mem_cons, List.length_take]
    exact ⟨by omega, hrest⟩

theorem pieces_of_flatten_append {k : Nat} {es : List (List Byte)} (h : ∀ e ∈ es, e.length = k) (t : List Byte) :
    pieces k es.length (es.flatten ++ t) = es := by
  induction es with
  | nil => rfl
  | cons e es ih =>
    obtain ⟨he, hes⟩ := List.forall_mem_cons.mp h
    rw [List.length_cons, pieces, List.flatten_cons, List.append_assoc, List.take_left' he, List.drop_left' he, ih hes]

/-! The streams (42_delta R168). -/

/-- How many streams `n` bytes have. -/
def streamCount (n : Nat) : Nat := if n ≤ Config.deltaSplit then 1 else 4

/-- How long each stream of `n` bytes is. -/
def streamLength (n : Nat) : Nat := n / streamCount n

/-- The streams of a byte sequence, in order. -/
def streams (x : List Byte) : List (List Byte) := pieces (streamLength x.length) (streamCount x.length) x

/-- The bytes after the last stream. -/
def streamTail (x : List Byte) : List Byte := x.drop (streamCount x.length * streamLength x.length)

theorem streamCount_mul_streamLength_le (n : Nat) : streamCount n * streamLength n ≤ n := Nat.mul_div_le n _

@[simp] theorem streams_length (x : List Byte) : (streams x).length = streamCount x.length := pieces_length _ _ x

theorem streams_mem_length (x : List Byte) : ∀ e ∈ streams x, e.length = streamLength x.length :=
  pieces_mem_length_of_le (streamCount_mul_streamLength_le x.length)

theorem streams_flatten_append_streamTail (x : List Byte) : (streams x).flatten ++ streamTail x = x :=
  pieces_flatten_append_drop _ _ x

/-- A byte before the tail is byte `j` of some stream `p`. -/
theorem exists_stream_position {n i : Nat} (hi : i < streamCount n * streamLength n) :
    ∃ p j, p < streamCount n ∧ j < streamLength n ∧ i = p * streamLength n + j :=
  have hpos : 0 < streamLength n := Nat.pos_of_mul_pos_left (Nat.zero_lt_of_lt hi)
  ⟨i / streamLength n, i % streamLength n, (Nat.div_lt_iff_lt_mul hpos).mpr hi, Nat.mod_lt i hpos,
    (Nat.div_add_mod' i _).symm⟩

theorem streams_getD_length (x : List Byte) {p : Nat} (hp : p < streamCount x.length) :
    ((streams x).getD p []).length = streamLength x.length := by
  rw [List.getD_eq_getElem _ [] (by simpa using hp)]
  exact streams_mem_length x _ (List.getElem_mem _)

theorem streams_getD_getD (x : List Byte) {p j : Nat} (hp : p < streamCount x.length) (hj : j < streamLength x.length) :
    ((streams x).getD p []).getD j 0 = x.getD (p * streamLength x.length + j) 0 :=
  pieces_getD_getD _ _ x hp hj

/-- A kernel is applied to each stream, and the tail is copied, however many streams there are. -/
theorem onStreams_eq (f : List Byte → List Byte) (x : List Byte) :
    onStreams f x = ((streams x).map f).flatten ++ streamTail x := by
  rcases Nat.lt_or_ge Config.deltaSplit x.length with hlong | hshort
  · simp [onStreams, streams, streamTail, streamLength, streamCount, Nat.not_le.mpr hlong]
  · simp [onStreams, streams, streamTail, streamLength, streamCount, hshort, pieces]

/-- The bytes that DELTA and DELTA_INV copy are those of the tail and those at the start of a stream. -/
theorem copiedByDelta_iff {n i : Nat} (hi : i < n) :
    copiedByDelta n i ↔ streamCount n * streamLength n ≤ i ∨ i % streamLength n = 0 := by
  rcases Nat.lt_or_ge 2048 n with hlong | hshort
  · simp [copiedByDelta, streamLength, streamCount, Config.deltaSplit, Nat.not_le.mpr hlong, hlong]
  · simp [copiedByDelta, streamLength, streamCount, Config.deltaSplit, Nat.not_lt.mpr hshort, hshort, Nat.not_le.mpr hi,
      Nat.mod_eq_of_lt hi]

/-! A kernel on the streams. -/

section
variable {f : List Byte → List Byte} (hf : ∀ y, (f y).length = y.length)
include hf

theorem map_streams_mem_length (x : List Byte) : ∀ e ∈ (streams x).map f, e.length = streamLength x.length :=
  List.forall_mem_map.mpr fun e he => (hf e).trans (streams_mem_length x e he)

theorem map_streams_flatten_length (x : List Byte) :
    ((streams x).map f).flatten.length = streamCount x.length * streamLength x.length := by
  rw [flatten_length_const (map_streams_mem_length hf x), List.length_map, streams_length]

/-- Applied to its own output, a kernel meets the streams it has made. -/
theorem streams_onStreams (x : List Byte) : streams (onStreams f x) = (streams x).map f := by
  have hpieces := pieces_of_flatten_append (map_streams_mem_length hf x) (streamTail x)
  rwa [List.length_map, streams_length, ← onStreams_eq, ← onStreams_length f hf x] at hpieces

theorem streamTail_onStreams (x : List Byte) : streamTail (onStreams f x) = streamTail x := by
  rw [streamTail, onStreams_length f hf, onStreams_eq, List.drop_left' (map_streams_flatten_length hf x)]

theorem onStreams_getD_tail (x : List Byte) {i : Nat} (hi : streamCount x.length * streamLength x.length ≤ i) :
    (onStreams f x).getD i 0 = x.getD i 0 := by
  have hlen := map_streams_flatten_length hf x
  rw [onStreams_eq, List.getD_append_right _ _ _ _ (hlen.trans_le hi), hlen, streamTail]
  simp [List.getD, Nat.add_sub_cancel' hi]

/-- Byte `j` of stream `p` is the kernel's byte `j` on that stream. -/
theorem onStreams_getD_stream (x : List Byte) {p j : Nat} (hp : p < streamCount x.length) (hj : j < streamLength x.length) :
    (onStreams f x).getD (p * streamLength x.length + j) 0 = (f ((streams x).getD p [])).getD j 0 := by
  have hlt := (row_add_column_lt hp hj).trans_eq (map_streams_flatten_length hf x).symm
  have hp' : p < (streams x).length := by rwa [streams_length]
  rw [onStreams_eq, List.getD_append _ _ _ _ hlt, flatten_getD_const (map_streams_mem_length hf x) (by simpa) hj]
  rw [List.getD_eq_getElem _ [] (by simpa using hp), List.getElem_map, List.getD_eq_getElem _ [] hp']

end

/-- Kernels that undo each other on every stream undo each other on the streams of a byte sequence. -/
theorem onStreams_leftInverse {f g : List Byte → List Byte} (hf : ∀ y, (f y).length = y.length)
    (hgf : ∀ y, g (f y) = y) (x : List Byte) : onStreams g (onStreams f x) = x :=
  have hid : g ∘ f = id := funext hgf
  calc onStreams g (onStreams f x) = (((streams x).map f).map g).flatten ++ streamTail x := by
        rw [onStreams_eq g, streams_onStreams hf, streamTail_onStreams hf]
    _ = (streams x).flatten ++ streamTail x := by rw [List.map_map, hid, List.map_id]
    _ = x := streams_flatten_append_streamTail x

/-! The rule of a kernel, byte by byte (42_delta R169). -/

/-- The kernel copies the first byte of a stream and makes each further byte by `g` from the output byte before it, the
source byte before it and its source byte. -/
structure FollowsRule (f : List Byte → List Byte) (g : Byte → Byte → Byte → Byte) : Prop where
  length : ∀ y, (f y).length = y.length
  first : ∀ y, (f y).getD 0 0 = y.getD 0 0
  next : ∀ y j, j + 1 < y.length → (f y).getD (j + 1) 0 = g ((f y).getD j 0) (y.getD j 0) (y.getD (j + 1) 0)

theorem diffs_getD_succ (p : Byte) (y : List Byte) {j : Nat} (h : j + 1 < y.length) :
    (diffs p y).getD (j + 1) 0 = y.getD (j + 1) 0 - y.getD j 0 := by
  induction y generalizing p j with
  | nil => simp at h
  | cons a y ih =>
    rw [diffs, List.getD_cons_succ, List.getD_cons_succ]
    cases j with
    | zero => cases y with
      | nil => simp at h
      | cons b y => rfl
    | succ j => exact ih a (Nat.lt_of_succ_lt_succ h)

theorem sums_getD_succ (p : Byte) (y : List Byte) {j : Nat} (h : j + 1 < y.length) :
    (sums p y).getD (j + 1) 0 = (sums p y).getD j 0 + y.getD (j + 1) 0 := by
  induction y generalizing p j with
  | nil => simp at h
  | cons a y ih =>
    rw [sums, List.getD_cons_succ, List.getD_cons_succ]
    cases j with
    | zero => cases y with
      | nil => simp at h
      | cons b y => rfl
    | succ j => exact ih (p + a) (Nat.lt_of_succ_lt_succ h)

/-- DELTA's kernel takes the source byte before from the source byte (42_delta R170). -/
theorem diffs_followsRule : FollowsRule (diffs 0) (fun _ before byte => byte - before) where
  length := diffs_length 0
  first y := by cases y <;> simp [diffs]
  next y _ h := diffs_getD_succ 0 y h

/-- DELTA_INV's kernel adds the output byte before to the source byte (42_delta R175). -/
theorem sums_followsRule : FollowsRule (sums 0) (fun outBefore _ byte => outBefore + byte) where
  length := sums_length 0
  first y := by cases y <;> simp [sums]
  next y _ h := sums_getD_succ 0 y h

section
variable {f : List Byte → List Byte} {g : Byte → Byte → Byte → Byte} (hf : FollowsRule f g)
include hf

theorem FollowsRule.onStreams_copied {x : List Byte} {i : Nat} (hi : i < x.length) (h : copiedByDelta x.length i) :
    (onStreams f x).getD i 0 = x.getD i 0 := by
  rcases Nat.lt_or_ge i (streamCount x.length * streamLength x.length) with hstream | htail
  · have hstart := ((copiedByDelta_iff hi).mp h).resolve_left (Nat.not_le.mpr hstream)
    obtain ⟨p, j, hp, hj, rfl⟩ := exists_stream_position hstream
    obtain rfl : j = 0 := by rwa [Nat.mul_add_mod', Nat.mod_eq_of_lt hj] at hstart
    rw [onStreams_getD_stream hf.length x hp hj, hf.first, streams_getD_getD x hp hj]
  · exact onStreams_getD_tail hf.length x htail

theorem FollowsRule.onStreams_next {x : List Byte} {i : Nat} (hi : i < x.length) (h : ¬ copiedByDelta x.length i) :
    (onStreams f x).getD i 0 = g ((onStreams f x).getD (i - 1) 0) (x.getD (i - 1) 0) (x.getD i 0) := by
  obtain ⟨hstream, hinner⟩ := not_or.mp (mt (copiedByDelta_iff hi).mpr h)
  obtain ⟨p, j, hp, hj, rfl⟩ := exists_stream_position (Nat.not_le.mp hstream)
  cases j with
  | zero => exact absurd (Nat.mul_mod_left _ _) hinner
  | succ j =>
    have hj' : j < streamLength x.length := Nat.lt_of_succ_lt hj
    rw [Nat.add_succ_sub_one, onStreams_getD_stream hf.length x hp hj,
      onStreams_getD_stream hf.length x hp hj', ← streams_getD_getD x hp hj,
      ← streams_getD_getD x hp hj']
    exact hf.next _ j (hj.trans_eq (streams_getD_length x hp).symm)

end

/-! The maps undo each other (42_delta R176). -/

theorem deltaInv_delta (x : List Byte) : deltaInv (delta x) = x := onStreams_leftInverse (diffs_length 0) (sums_diffs 0) x

theorem delta_deltaInv (x : List Byte) : delta (deltaInv x) = x := onStreams_leftInverse (sums_length 0) (diffs_sums 0) x

/-- Settles O46: on each stream the differences and the running sums undo each other. -/
theorem deltaIsABijection : Obligations.DeltaIsABijection := fun x => ⟨deltaInv_delta x, delta_deltaInv x⟩

/-! DELTA and DELTA_INV. -/

theorem validateByR123_delta {bpp : Nat} {s : State} :
    validateByR123 (.delta bpp) s = none ↔ s.windowsOk ∧ s.latch.len.toNat ≤ s.latch.cap.toNat :=
  validate_ok_iff.symm.trans validateDelta_ok

theorem validateByR123_deltaInv {bpp : Nat} {s : State} :
    validateByR123 (.deltaInv bpp) s = none ↔ s.windowsOk ∧ s.latch.len.toNat ≤ s.latch.cap.toNat :=
  validate_ok_iff.symm.trans validateDelta_ok

/-- DELTA writes the delta of its source (42_delta R170). -/
theorem delta_producesOutput {bpp : Nat} {s : State} (hv : validateByR123 (.delta bpp) s = none) (hs : s.hazardFree) :
    producesOutput (.delta bpp) s (delta s.source) := by
  obtain ⟨_, hcap⟩ := validateByR123_delta.mp hv
  exact producesOutput_of_performOn hv hs rfl (by rwa [delta_length, s.source_length])

/-- DELTA_INV writes the inverse delta of its source (42_delta R175). -/
theorem deltaInv_producesOutput {bpp : Nat} {s : State} (hv : validateByR123 (.deltaInv bpp) s = none)
    (hs : s.hazardFree) : producesOutput (.deltaInv bpp) s (deltaInv s.source) := by
  obtain ⟨_, hcap⟩ := validateByR123_deltaInv.mp hv
  exact producesOutput_of_performOn hv hs rfl (by rwa [deltaInv_length, s.source_length])

/-- A command that produces a rule's kernel on the streams of its source succeeds with LEN and leaves the rule's bytes at
`L.DST` (42_delta R169). -/
theorem FollowsRule.exec_writes {f : List Byte → List Byte} {g : Byte → Byte → Byte → Byte} (hf : FollowsRule f g)
    {i : Instr} {s : State} (hp : producesOutput i s (onStreams f s.source)) :
    ∃ t, exec i s = .next t ∧ succeededWith s t s.latch.len.toNat ∧
      ∀ k, k < s.latch.len.toNat →
        (copiedByDelta s.latch.len.toNat k →
          t.mem.read (s.latch.dst.toNat + k) = s.mem.read (s.latch.src.toNat + k)) ∧
        (¬ copiedByDelta s.latch.len.toNat k →
          t.mem.read (s.latch.dst.toNat + k) =
            g (t.mem.read (s.latch.dst.toNat + (k - 1))) (s.mem.read (s.latch.src.toNat + (k - 1)))
              (s.mem.read (s.latch.src.toNat + k))) := by
  have hlen : (onStreams f s.source).length = s.latch.len.toNat := by rw [onStreams_length f hf.length, s.source_length]
  obtain ⟨t, hexec, hsucceeded, hread⟩ := exec_of_producesOutput hp hlen
  refine ⟨t, hexec, hsucceeded, fun k hk => ?_⟩
  have hk' : k - 1 < s.latch.len.toNat := (Nat.sub_le k 1).trans_lt hk
  have hcopied := hf.onStreams_copied (x := s.source) (i := k) (by rwa [s.source_length])
  have hnext := hf.onStreams_next (x := s.source) (i := k) (by rwa [s.source_length])
  rw [s.source_length, s.source_getD k hk] at hcopied hnext
  rw [s.source_getD _ hk'] at hnext
  rw [hread k hk, hread _ hk']
  exact ⟨hcopied, hnext⟩

/-- Settles O10: DELTA produces the differences of each stream. -/
theorem deltaWritesDifferences : Obligations.DeltaWritesDifferences := fun _ _ hwindows hcap hs =>
  diffs_followsRule.exec_writes (delta_producesOutput (validateByR123_delta.mpr ⟨hwindows, hcap⟩) hs)

/-- Settles O11: DELTA_INV produces the running sums of each stream. -/
theorem deltaInvWritesSums : Obligations.DeltaInvWritesSums := fun _ _ hwindows hcap hs =>
  sums_followsRule.exec_writes (deltaInv_producesOutput (validateByR123_deltaInv.mpr ⟨hwindows, hcap⟩) hs)

/-- Settles O16: the second command's source is what the first produced, and the maps undo each other. -/
theorem deltaCommandsUndoEachOther : Obligations.DeltaCommandsUndoEachOther := by
  intro bpp bpp' s t s' hs hfeeds
  refine ⟨fun hv hexec hv' => ?_, fun hv hexec hv' => ?_⟩
  · have hback := deltaInv_producesOutput hv' hfeeds.1
    rwa [source_of_outputFeeds (delta_producesOutput hv hs) hexec hfeeds, deltaInv_delta] at hback
  · have hback := delta_producesOutput hv' hfeeds.1
    rwa [source_of_outputFeeds (deltaInv_producesOutput hv hs) hexec hfeeds, delta_deltaInv] at hback

end Sys2Proof.Machine
end

