-- ==== Sys2Proof/Proofs/RowCodec.lean ====
section
/-! PROOFS. The rows of the block codec (43_block_format R208 to R215, R220; 44_block_encode R265, R271). What it is for
a reader to read a value back from its bytes, and how such readers compose; the fields of a row; every candidate of a row
codes it; and the min column. -/

namespace Sys2Proof.Machine

open Sys2Proof

/-! Reading back. -/

/-- The reader `rd` takes exactly the bytes `bs` and answers `v`, whatever follows them. -/
def ReadsBack {α : Type} (rd : List Byte → Except Err (α × List Byte)) (bs : List Byte) (v : α) : Prop :=
  ∀ rest, rd (bs ++ rest) = .ok (v, rest)

/-- A reader after a reader reads back the bytes of both. -/
theorem ReadsBack.bind {α β : Type} {rd : List Byte → Except Err (α × List Byte)}
    {k : α × List Byte → Except Err (β × List Byte)} {bs cs : List Byte} {v : α} {w : β} (h : ReadsBack rd bs v)
    (hk : ReadsBack (fun t => k (v, t)) cs w) : ReadsBack (fun t => rd t >>= k) (bs ++ cs) w := by
  intro rest
  show rd (bs ++ cs ++ rest) >>= k = _
  rw [List.append_assoc, h]
  exact hk rest

/-- A reader that goes on without taking more bytes. -/
theorem ReadsBack.map {α β : Type} {rd : List Byte → Except Err (α × List Byte)}
    {k : α × List Byte → Except Err (β × List Byte)} {bs : List Byte} {v : α} {u w : β} (h : ReadsBack rd bs v)
    (hk : ∀ t, k (v, t) = .ok (u, t)) (huw : u = w) : ReadsBack (fun t => rd t >>= k) bs w := by
  have hbind := h.bind (k := k) (cs := []) (w := u) hk
  rwa [List.append_nil, huw] at hbind

theorem readsBack_takeBytes {k : Nat} {bs : List Byte} (h : bs.length = k) : ReadsBack (takeBytes k) bs bs := by
  subst h; exact takeBytes_append bs

theorem readsBack_takeU8 (b : Byte) : ReadsBack takeU8 [b] b := takeU8_cons b

theorem readsBack_takeU16 {v : Nat} (h : v < 65536) : ReadsBack takeU16 (leBytes 2 v) v :=
  fun rest => takeU16_leBytes v rest h

theorem readsBack_expandRuns (p : Byte) (xs : List Byte) : ReadsBack (expandRuns p (sameMask p xs)) (changes p xs) xs :=
  expandRuns_changes p xs

/-! Widths (43_block_format R208). -/

theorem width_mem (g : Nat) : width g ∈ [0, 1, 2, 3, 4, 5, 8] := by
  unfold width; split_ifs <;> decide

theorem le_two_pow_width {g : Nat} (h : g ≤ 255) : g ≤ 2 ^ width g - 1 := by
  unfold width; split_ifs <;> omega

theorem width_le {g w : Nat} (hw : w ∈ [0, 1, 2, 3, 4, 5, 8]) (h : g ≤ 2 ^ w - 1) : width g ≤ w := by
  simp only [List.mem_cons, List.not_mem_nil, or_false] at hw
  rcases hw with rfl | rfl | rfl | rfl | rfl | rfl | rfl
  all_goals unfold width; split_ifs <;> omega

/-- Settles O47: the width is one of the seven, holds the range, and no smaller one does. -/
theorem widthIsLeast : Obligations.WidthIsLeast := fun g hg =>
  ⟨width_mem g, le_two_pow_width hg, fun _ hw h => width_le hw h⟩

/-! Bit packing (43_block_format R209). -/

theorem packNat_cons_mod {b u : Nat} (us : List Nat) (h : u < 2 ^ b) : packNat b (u :: us) % 2 ^ b = u := by
  rw [packNat, Nat.add_mul_mod_self_left, Nat.mod_eq_of_lt h]

theorem packNat_cons_div {b u : Nat} (us : List Nat) (h : u < 2 ^ b) : packNat b (u :: us) / 2 ^ b = packNat b us := by
  rw [packNat, Nat.add_mul_div_left _ _ (Nat.two_pow_pos b), Nat.div_eq_of_lt h, Nat.zero_add]

theorem packNat_lt {b : Nat} {us : List Nat} (h : ∀ u ∈ us, u < 2 ^ b) : packNat b us < 2 ^ (us.length * b) := by
  induction us with
  | nil => simp [packNat]
  | cons u us ih =>
    obtain ⟨hu, hus⟩ := List.forall_mem_cons.mp h
    rw [List.length_cons, Nat.succ_mul, Nat.pow_add, ← Nat.div_lt_iff_lt_mul (Nat.two_pow_pos b),
      packNat_cons_div us hu]
    exact ih hus

/-- Value `c` lies at bits `c·b .. c·b+b-1`. -/
theorem packNat_field {b : Nat} {us : List Nat} (h : ∀ u ∈ us, u < 2 ^ b) {c : Nat} (hc : c < us.length) :
    packNat b us / 2 ^ (c * b) % 2 ^ b = us[c] := by
  induction us generalizing c with
  | nil => exact absurd hc (Nat.not_lt_zero c)
  | cons u us ih =>
    obtain ⟨hu, hus⟩ := List.forall_mem_cons.mp h
    cases c with
    | zero => simpa using packNat_cons_mod us hu
    | succ c =>
      rw [Nat.succ_mul, Nat.add_comm, Nat.pow_add, ← Nat.div_div_eq_div_mul, packNat_cons_div us hu]
      exact ih hus (Nat.lt_of_succ_lt_succ hc)

theorem unpackNat_packNat {b : Nat} {us : List Nat} (h : ∀ u ∈ us, u < 2 ^ b) :
    unpackNat b us.length (packNat b us) = us := by
  induction us with
  | nil => rfl
  | cons u us ih =>
    obtain ⟨hu, hus⟩ := List.forall_mem_cons.mp h
    rw [List.length_cons, unpackNat, packNat_cons_mod us hu, packNat_cons_div us hu, ih hus]

section
variable {b : Nat} {u : List Byte} (hlen : u.length = 16) (hu : ∀ x ∈ u, x.toNat < 2 ^ b)
include hlen hu

/-- Sixteen values of b bits fill the 2b bytes and no more. -/
theorem leNat_pack : leNat (pack b u) = packNat b (u.map BitVec.toNat) := by
  have hlt := packNat_lt (List.forall_mem_map.mpr hu)
  have hbits : (256 : Nat) ^ (2 * b) = 2 ^ (16 * b) := by
    rw [show (256 : Nat) = 2 ^ 8 by rfl, ← Nat.pow_mul, ← Nat.mul_assoc]
  rw [List.length_map, hlen] at hlt
  rw [pack, leNat_leBytes, hbits, Nat.mod_eq_of_lt hlt]

theorem unpack_pack : unpack b (pack b u) = u := by
  have hread := unpackNat_packNat (List.forall_mem_map.mpr hu)
  rw [List.length_map, hlen] at hread
  rw [unpack, leNat_pack hlen hu, Config.rowBytes, hread, List.map_map]
  exact (List.map_congr_left fun x _ => BitVec.ofNat_toNat 8 x |>.trans (BitVec.setWidth_eq x)).trans (List.map_id u)

end

/-- Settles O48: the little-endian integer of the packed bytes is the one the fields were placed in. -/
theorem packPlacesFields : Obligations.PackPlacesFields := by
  intro b u _ hlen hu
  refine ⟨pack_length b u, fun c hc => ?_, unpack_pack hlen hu⟩
  have hc' : c < u.length := hlen ▸ hc
  rw [leNat_pack hlen hu, packNat_field (List.forall_mem_map.mpr hu) (by simpa using hc'), List.getElem_map,
    List.getD_eq_getElem _ _ hc']

/-! The least and the greatest byte of a row (44_block_encode R265). -/

/-- A fold that keeps one of two bytes, in the order `r` of its choice, ends before its start and every byte. -/
theorem foldl_extreme {r : Byte → Byte → Prop} {f : Byte → Byte → Byte} (hrefl : ∀ x, r x x)
    (htrans : ∀ x y z, r x y → r y z → r x z) (hleft : ∀ m x, r (f m x) m) (hright : ∀ m x, r (f m x) x)
    (xs : List Byte) (m : Byte) : r (xs.foldl f m) m ∧ ∀ x ∈ xs, r (xs.foldl f m) x := by
  induction xs generalizing m with
  | nil => exact ⟨hrefl m, fun _ h => absurd h List.not_mem_nil⟩
  | cons y ys ih =>
    obtain ⟨hstart, hrest⟩ := ih (f m y)
    exact ⟨htrans _ _ _ hstart (hleft m y), List.forall_mem_cons.mpr ⟨htrans _ _ _ hstart (hright m y), hrest⟩⟩

theorem leastByte_le {xs : List Byte} {x : Byte} (h : x ∈ xs) : (leastByte xs).toNat ≤ x.toNat := by
  refine (foldl_extreme (r := fun x y => x.toNat ≤ y.toNat) (fun _ => le_rfl) (fun _ _ _ => le_trans) ?_ ?_ xs _).2 x h
  all_goals intro m x; split <;> bv_omega

theorem le_greatestByte {xs : List Byte} {x : Byte} (h : x ∈ xs) : x.toNat ≤ (greatestByte xs).toNat := by
  refine (foldl_extreme (r := fun x y => y.toNat ≤ x.toNat) (fun _ => le_rfl) (fun _ _ _ hxy hyz => hyz.trans hxy) ?_ ?_
    xs _).2 x h
  all_goals intro m x; split <;> bv_omega

/-- A byte less the least byte fits the row's width. -/
theorem sub_leastByte_lt {xs : List Byte} {x : Byte} (h : x ∈ xs) : (x - leastByte xs).toNat < 2 ^ rowWidth xs := by
  have hleast := leastByte_le h
  have hgreatest := le_greatestByte h
  have hrange : (greatestByte xs).toNat - (leastByte xs).toNat ≤ 255 := by have := (greatestByte xs).isLt; omega
  have hwidth := le_two_pow_width hrange
  have hpos := Nat.two_pow_pos (rowWidth xs)
  rw [← rowWidth] at hwidth
  rw [BitVec.toNat_sub_of_le (BitVec.le_def.mpr hleast)]
  omega

/-- The values of a bit-packed row are read back from their payload and the min (43_block_format R210, R211). -/
theorem unpack_pack_sub_leastByte {xs : List Byte} (h : xs.length = 16) :
    (unpack (rowWidth xs) (pack (rowWidth xs) (xs.map (fun x => x - leastByte xs)))).map
      (fun u => leastByte xs + u) = xs := by
  rw [unpack_pack (by simpa using h) (List.forall_mem_map.mpr fun x hx => sub_leastByte_lt hx), List.map_map]
  exact (List.map_congr_left fun x _ => by
    show leastByte xs + (x - leastByte xs) = x
    bv_omega).trans (List.map_id xs)

/-! Coded rows. -/

/-- A coded row is read back as `row` under its header and min, its header is a legal one, and it has a min exactly when
its header uses one (43_block_format R214). -/
structure CodesRow (p pd : Byte) (row : List Byte) (c : RowCode) : Prop where
  decodes : ReadsBack (decodeRow c.header (c.min.getD 0) p pd) c.payload row
  legal : rowHeaderOf c.header.code = some c.header
  usesMin : c.header.usesMin = c.min.isSome

/-- A row whose header uses no min is decoded alike under every min. -/
theorem decodeRow_of_not_usesMin {h : RowHeader} (hm : h.usesMin = false) (min min' p pd : Byte) (t : List Byte) :
    decodeRow h min p pd t = decodeRow h min' p pd t := by
  cases h with
  | literal b => nomatch hm
  | delta b => nomatch hm
  | raw | runLength | deltaRunLength => rfl

theorem rowHeaderOf_code_literal {b : Nat} (h : b ≤ 5) : rowHeaderOf (RowHeader.literal b).code = some (.literal b) :=
  rowHeaderOf_code _ fun _ hb => by rcases hb with hb | hb <;> cases hb; exact h

theorem rowHeaderOf_code_delta {b : Nat} (h : b ≤ 5) : rowHeaderOf (RowHeader.delta b).code = some (.delta b) :=
  rowHeaderOf_code _ fun _ hb => by rcases hb with hb | hb <;> cases hb; exact h

theorem natOfBits_sameMask_lt (p : Byte) (xs : List Byte) : natOfBits (sameMask p xs) < 2 ^ xs.length :=
  (natOfBits_lt _).trans_eq (by rw [sameMask_length])

theorem readsBack_mask (p : Byte) {xs : List Byte} (h : xs.length ≤ 16) :
    ReadsBack takeU16 (leBytes 2 (natOfBits (sameMask p xs))) (natOfBits (sameMask p xs)) :=
  readsBack_takeU16 ((natOfBits_sameMask_lt p xs).trans_le (Nat.pow_le_pow_right (by decide) h))

/-- The literals are read back under the bits of their mask. -/
theorem readsBack_runs (p : Byte) {n : Nat} {xs : List Byte} (h : xs.length = n) :
    ReadsBack (expandRuns p (bitsOfNat n (natOfBits (sameMask p xs)))) (changes p xs) xs := by
  rw [← h, ← sameMask_length p xs, bitsOfNat_natOfBits]
  exact readsBack_expandRuns p xs

/-- A reader of a 16-bit mask that goes on with the literals reads back a run-length form. -/
theorem readsBack_runLength {k : Nat × List Byte → Except Err (List Byte × List Byte)} (p : Byte) {xs v : List Byte}
    (h : xs.length ≤ 16) (hk : ReadsBack (fun t => k (natOfBits (sameMask p xs), t)) (changes p xs) v) :
    ReadsBack (fun t => takeU16 t >>= k) (runLength p xs) v := by
  rw [runLength_eq]
  exact (readsBack_mask p h).bind hk

/-- The bit-packed form or, at width 8, the raw form of a row, given that its header reads the packed values back. -/
theorem packedRow_codesRow {header : Nat → RowHeader} {p pd : Byte} {a row : List Byte} (hrow : row.length = 16)
    (hdecodes : ReadsBack (decodeRow (header (rowWidth a)) (leastByte a) p pd)
      (pack (rowWidth a) (a.map (fun x => x - leastByte a))) row)
    (hlegal : ∀ b, b ≤ 5 → rowHeaderOf (header b).code = some (header b)) (hmin : ∀ b, (header b).usesMin = true) :
    CodesRow p pd row (packedRow header a a row) := by
  unfold packedRow
  split
  next hw => exact { decodes := hdecodes, legal := hlegal _ hw, usesMin := hmin _ }
  next => exact { decodes := readsBack_takeBytes hrow, legal := rfl, usesMin := rfl }

section
variable (p pd : Byte) {row : List Byte} (h : row.length = 16)
include h

theorem literal_codesRow : CodesRow p pd row (packedRow .literal row row row) :=
  packedRow_codesRow h ((readsBack_takeBytes (pack_length _ _)).map (fun _ => rfl) (unpack_pack_sub_leastByte h))
    (fun _ => rowHeaderOf_code_literal) (fun _ => rfl)

theorem delta_codesRow : CodesRow p pd row (packedRow .delta (diffs p row) (diffs p row) row) := by
  have hsums := congrArg (sums p) (unpack_pack_sub_leastByte ((diffs_length p row).trans h))
  rw [sums_diffs] at hsums
  exact packedRow_codesRow h ((readsBack_takeBytes (pack_length _ _)).map (fun _ => rfl) hsums)
    (fun _ => rowHeaderOf_code_delta) (fun _ => rfl)

theorem runLength_codesRow : CodesRow p pd row { header := .runLength, min := none, payload := runLength p row } where
  decodes := readsBack_runLength p h.le (readsBack_runs p h)
  legal := rfl
  usesMin := rfl

theorem deltaRunLength_codesRow :
    CodesRow p pd row { header := .deltaRunLength, min := none, payload := runLength pd (diffs p row) } where
  decodes := by
    have hdiffs : (diffs p row).length = 16 := (diffs_length p row).trans h
    exact readsBack_runLength pd hdiffs.le ((readsBack_runs pd hdiffs).map (fun _ => rfl) (sums_diffs p row))
  legal := rfl
  usesMin := rfl

/-- Every candidate of a row codes it (44_block_encode R265). -/
theorem candidates_codeRow {c : Candidate} (hc : c ∈ candidates p pd row) : CodesRow p pd row c.row := by
  simp only [candidates_eq, List.mem_cons, List.not_mem_nil, or_false] at hc
  rcases hc with rfl | rfl | rfl | rfl
  · exact literal_codesRow p pd h
  · exact delta_codesRow p pd h
  · exact runLength_codesRow p pd h
  · exact deltaRunLength_codesRow p pd h

end

/-! The costs of the candidates (44_block_encode R265). -/

/-- What a coded row takes in a record: its payload and its min. -/
def RowCode.size (c : RowCode) : Nat := c.payload.length + (if c.min.isSome then 1 else 0)

theorem packedRow_size (header : Nat → RowHeader) (a : List Byte) {row : List Byte} (h : row.length = 16) :
    packedCost a = (packedRow header a a row).size := by
  unfold packedCost packedRow RowCode.size
  split
  · simp
  · simp [h]

theorem runLength_length (p : Byte) (xs : List Byte) : (runLength p xs).length = runCost p xs := by
  rw [runLength_eq, List.length_append, leBytes_length, runCost]

theorem candidates_cost (p pd : Byte) {row : List Byte} (h : row.length = 16) {c : Candidate}
    (hc : c ∈ candidates p pd row) : c.cost = c.row.size := by
  simp only [candidates_eq, List.mem_cons, List.not_mem_nil, or_false] at hc
  rcases hc with rfl | rfl | rfl | rfl
  · exact packedRow_size _ _ h
  · exact packedRow_size _ _ h
  · exact (runLength_length _ _).symm
  · exact (runLength_length _ _).symm

/-- Settles O50: each candidate codes the row, and its cost is the size of what it adds to a record. -/
theorem rowCandidatesDecode : Obligations.RowCandidatesDecode := fun p pd _ rest _ hrow hc =>
  ⟨(candidates_codeRow p pd hrow hc).decodes rest, candidates_cost p pd hrow hc⟩

/-! The min column (43_block_format R220; 44_block_encode R271). -/

theorem readsBack_minColumn {mins : List Byte} (h : mins.length ≤ 16) :
    ReadsBack (decodeMins mins.length) (runLength 0 mins) mins :=
  readsBack_runLength 0 h fun rest =>
    have hmask := not_not_intro (Nat.div_eq_of_lt (natOfBits_sameMask_lt 0 mins))
    (if_neg hmask).trans (readsBack_runs 0 rfl rest)

/-- Settles O51: no mask bit of at most sixteen mins lies at or above their count. -/
theorem minColumnRoundTrip : Obligations.MinColumnRoundTrip := fun _ rest h => readsBack_minColumn h rest

end Sys2Proof.Machine
end

