-- ==== Sys2Proof/Proofs/PlaneCodec.lean ====
section
/-! PROOFS. The planes of the block codec (43_block_format R203, R214 to R224; 44_block_encode R270 to R275). The nibbles
of codes, the rows of a plane, the record of a plane, and the planes of a block put back in element order. -/

namespace Sys2Proof.Machine

open Sys2Proof

/-! Codes in nibbles (43_block_format R222, R223). -/

theorem nibbles_cons {a b : Nat} (ha : a < 16) (hb : b < 16) (bs : List Byte) :
    nibbles (BitVec.ofNat 8 (a + 16 * b) :: bs) = a :: b :: nibbles bs := by
  have hbyte : (BitVec.ofNat 8 (a + 16 * b)).toNat = a + 16 * b := by rw [BitVec.toNat_ofNat]; omega
  rw [nibbles, hbyte, Nat.add_mul_mod_self_left, Nat.mod_eq_of_lt ha, Nat.add_mul_div_left _ _ (by decide),
    Nat.div_eq_of_lt ha, Nat.zero_add]

/-- The codes come back, after them a 0 where their number is odd. -/
theorem nibbles_packNibbles {cs : List Nat} (h : ∀ c ∈ cs, c < 16) :
    nibbles (packNibbles cs) = cs ++ List.replicate (cs.length % 2) 0 := by
  induction cs using packNibbles.induct with
  | case1 => rfl
  | case2 a => simpa [packNibbles, nibbles] using nibbles_cons (h a (by simp)) (show 0 < 16 by decide) []
  | case3 a b cs ih =>
    simp only [List.forall_mem_cons] at h
    obtain ⟨ha, hb, hcs⟩ := h
    rw [packNibbles, nibbles_cons ha hb, ih hcs, List.length_cons, List.length_cons, Nat.add_assoc, Nat.add_mod_right]
    rfl

theorem unpadded_packNibbles {cs : List Nat} (h : ∀ c ∈ cs, c < 16) : unpadded cs.length (packNibbles cs) = .ok cs := by
  rw [unpadded, nibbles_packNibbles h, List.drop_left, List.take_left, if_neg]
  simp

theorem allCodes_map {α : Type} {f : Nat → Option α} {code : α → Nat} {xs : List α}
    (h : ∀ x ∈ xs, f (code x) = some x) : allCodes f (xs.map code) = .ok xs := by
  have hmap : (xs.map code).mapM f = some xs := by
    induction xs with
    | nil => rfl
    | cons x xs ih =>
      obtain ⟨hx, hxs⟩ := List.forall_mem_cons.mp h
      simp [List.mapM_cons, hx, ih hxs]
  rw [allCodes, hmap]

/-- A reader of the nibbles of `n` codes goes on with their meanings. -/
theorem readsBack_codes {α β : Type} {f : Nat → Option α} {code : α → Nat}
    {k : List α → List Byte → Except Err (β × List Byte)} {n : Nat} {xs : List α} {bs : List Byte} {v : β}
    (hn : xs.length = n) (hf : ∀ x ∈ xs, f (code x) = some x) (hlt : ∀ x ∈ xs, code x < 16)
    (hk : ReadsBack (k xs) bs v) :
    ReadsBack (fun t => takeBytes ((n + 1) / 2) t >>= fun p =>
      unpadded n p.1 >>= fun codes => allCodes f codes >>= fun meanings => k meanings p.2)
      (packNibbles (xs.map code) ++ bs) v := by
  have hlen : (xs.map code).length = n := List.length_map code |>.trans hn
  refine (readsBack_takeBytes (by rw [packNibbles_length, hlen])).bind fun rest => ?_
  have hunpadded := unpadded_packNibbles (List.forall_mem_map.mpr hlt)
  rw [hlen] at hunpadded
  simp only [hunpadded, allCodes_map hf, bind, Except.bind]
  exact hk rest

theorem rowHeaderOf_lt {n : Nat} {h : RowHeader} (hn : rowHeaderOf n = some h) : n < 16 := by
  unfold rowHeaderOf at hn
  split_ifs at hn <;> omega

theorem readsBack_takeHeaders {r : Nat} {hs : List RowHeader} (hr : hs.length = r)
    (h : ∀ x ∈ hs, rowHeaderOf x.code = some x) :
    ReadsBack (takeHeaders r) (packNibbles (hs.map RowHeader.code)) hs := by
  have hcodes := readsBack_codes (k := fun hs t => .ok (hs, t)) (bs := []) hr h (fun x hx => rowHeaderOf_lt (h x hx))
    fun _ => rfl
  rwa [List.append_nil] at hcodes

theorem Kind.code_lt (k : Kind) : k.code < 4 := by cases k <;> decide

/-! The rows of a plane. -/

theorem firstLeast_mem (best : Candidate) (cs : List Candidate) : firstLeast best cs ∈ best :: cs := by
  induction cs generalizing best with
  | nil => exact List.mem_singleton_self best
  | cons c cs ih =>
    rw [firstLeast]
    split
    · exact List.mem_cons_of_mem _ (ih c)
    · exact List.mem_cons.mpr ((List.mem_cons.mp (ih best)).imp_right (List.mem_cons_of_mem c))

theorem chooseRow_mem (p pd : Byte) (row : List Byte) : chooseRow p pd row ∈ candidates p pd row := firstLeast_mem _ _

theorem chooseRow_codesRow (p pd : Byte) {row : List Byte} (h : row.length = 16) :
    CodesRow p pd row (chooseRow p pd row).row := candidates_codeRow p pd h (chooseRow_mem p pd row)

/-- A coded row is read back where its min, if it has one, is the next of the mins. -/
theorem CodesRow.decodes_among {p pd : Byte} {row : List Byte} {c : RowCode} (h : CodesRow p pd row c)
    (mins : List Byte) :
    ReadsBack (decodeRow c.header ((c.min.toList ++ mins).headD 0) p pd) c.payload row := by
  obtain ⟨hdecodes, _, husesMin⟩ := h
  cases hmin : c.min with
  | none =>
    rw [hmin] at husesMin
    exact fun rest => (decodeRow_of_not_usesMin husesMin _ _ p pd _).trans (hdecodes rest)
  | some m => rwa [hmin] at hdecodes

/-- A coded row takes its min, if it has one, from the mins. -/
theorem CodesRow.mins_after {p pd : Byte} {row : List Byte} {c : RowCode} (h : CodesRow p pd row c) (mins : List Byte) :
    (if c.header.usesMin then (c.min.toList ++ mins).tail else c.min.toList ++ mins) = mins := by
  rw [h.usesMin]
  cases c.min <;> rfl

theorem filterMap_min_cons (c : RowCode) (cs : List RowCode) :
    (c :: cs).filterMap RowCode.min = c.min.toList ++ cs.filterMap RowCode.min := by
  rw [List.filterMap_cons]
  cases c.min <;> rfl

@[simp] theorem encodeRows_length (p pd : Byte) (rows : List (List Byte)) :
    (encodeRows p pd rows).length = rows.length := by
  rw [encodeRows_eq_map, List.length_map, rowViews_length]

section
variable {rows : List (List Byte)} (h : ∀ row ∈ rows, row.length = 16)
include h

theorem encodeRows_codesRow (p pd : Byte) :
    ∀ c ∈ encodeRows p pd rows, ∃ (before deltaBefore : Byte) (row : List Byte), CodesRow before deltaBefore row c := by
  induction rows generalizing p pd with
  | nil => exact fun _ hc => absurd hc List.not_mem_nil
  | cons row rows ih =>
    obtain ⟨hrow, hrows⟩ := List.forall_mem_cons.mp h
    exact List.forall_mem_cons.mpr ⟨⟨p, pd, row, chooseRow_codesRow p pd hrow⟩, ih hrows _ _⟩

theorem encodeRows_legal (p pd : Byte) : ∀ c ∈ encodeRows p pd rows, rowHeaderOf c.header.code = some c.header := by
  intro c hc
  obtain ⟨_, _, _, hcodes⟩ := encodeRows_codesRow h p pd c hc
  exact hcodes.legal

/-- The mins of a plane are as many as its headers that use one (43_block_format R219). -/
theorem encodeRows_mins_length (p pd : Byte) :
    ((encodeRows p pd rows).map RowCode.header).countP RowHeader.usesMin =
      ((encodeRows p pd rows).filterMap RowCode.min).length := by
  rw [List.countP_map, List.length_filterMap_eq_countP]
  refine List.countP_congr fun c hc => ?_
  obtain ⟨_, _, _, hcodes⟩ := encodeRows_codesRow h p pd c hc
  rw [Function.comp_apply, hcodes.usesMin]

/-- The rows of a plane are read back from their headers, mins and payloads (43_block_format R221). -/
theorem readsBack_decodeRows (p pd : Byte) :
    ReadsBack
      (decodeRows p pd ((encodeRows p pd rows).map RowCode.header) ((encodeRows p pd rows).filterMap RowCode.min))
      ((encodeRows p pd rows).map RowCode.payload).flatten rows.flatten := by
  induction rows generalizing p pd with
  | nil => exact fun _ => rfl
  | cons row rows ih =>
    obtain ⟨hrow, hrows⟩ := List.forall_mem_cons.mp h
    have hrowCode := chooseRow_codesRow p pd hrow
    have hrest := ih hrows (lastOf p row) (lastOf pd (diffs p row))
    rw [← hrowCode.mins_after (List.filterMap _ _)] at hrest
    rw [encodeRows, filterMap_min_cons]
    exact (hrowCode.decodes_among _).bind (hrest.map (fun _ => rfl) rfl)

/-! The record of a plane. -/

/-- A NORMAL or NORMAL_RLE record is read back where its mins are (43_block_format R219, R220). -/
theorem readsBack_decodeCoded {mins : Nat → List Byte → Except Err (List Byte × List Byte)} {column : List Byte}
    (hmins : ReadsBack (mins ((encodeRows 0 0 rows).filterMap RowCode.min).length) column
      ((encodeRows 0 0 rows).filterMap RowCode.min)) :
    ReadsBack (decodeCoded rows.length mins)
      (packNibbles ((encodeRows 0 0 rows).map (fun c => c.header.code)) ++ column ++
        ((encodeRows 0 0 rows).map RowCode.payload).flatten) rows.flatten := by
  have hheaders := readsBack_takeHeaders (r := rows.length) (hs := (encodeRows 0 0 rows).map RowCode.header) (by simp)
    (List.forall_mem_map.mpr (encodeRows_legal h 0 0))
  rw [List.map_map] at hheaders
  rw [← encodeRows_mins_length h] at hmins
  rw [List.append_assoc]
  exact hheaders.bind (hmins.bind (readsBack_decodeRows h 0 0))

theorem readsBack_codedPlane (hr : rows.length ≤ 16) :
    ReadsBack (decodePlane rows.length (codedPlane (encodeRows 0 0 rows)).1) (codedPlane (encodeRows 0 0 rows)).2
      rows.flatten := by
  have hcount : ((encodeRows 0 0 rows).filterMap RowCode.min).length ≤ 16 :=
    (List.length_filterMap_le _ _).trans ((encodeRows_length 0 0 rows).trans_le hr)
  unfold codedPlane
  dsimp only
  split
  · exact readsBack_decodeCoded h (readsBack_minColumn hcount)
  · exact readsBack_decodeCoded h (readsBack_takeBytes rfl)

end

/-- A uniform plane is read back from its byte (43_block_format R217). -/
theorem readsBack_allSame {r : Nat} {v : Byte} {plane : List Byte} (hlen : plane.length = 16 * r)
    (h : plane.all (fun x => x == v) = true) : ReadsBack (decodePlane r .allSame) [v] plane := by
  have hplane : plane = List.replicate (16 * r) v :=
    List.eq_replicate_iff.mpr ⟨hlen, fun x hx => by simpa using List.all_eq_true.mp h x hx⟩
  exact (readsBack_takeU8 v).map (fun _ => rfl) hplane.symm

/-- The record chosen for a plane is read back as the plane (44_block_encode R270, R272). -/
theorem readsBack_encodePlane {r : Nat} {plane : List Byte} (hr : r ≤ 16) (hlen : plane.length = 16 * r) :
    ReadsBack (decodePlane r (encodePlane r plane).1) (encodePlane r plane).2 plane := by
  unfold encodePlane
  split
  next hsame => exact readsBack_allSame hlen hsame
  next =>
    dsimp only
    split
    next => exact readsBack_takeBytes hlen
    next =>
      have hwhole : plane.length = r * 16 := hlen.trans (Nat.mul_comm 16 r)
      have hcoded := readsBack_codedPlane (pieces_mem_length 16 r plane hwhole) (by simpa using hr)
      rwa [pieces_length, pieces_flatten 16 r plane hwhole] at hcoded

theorem encodePlane_length_le {r : Nat} {plane : List Byte} (hr : 1 ≤ r) (hlen : plane.length = 16 * r) :
    (encodePlane r plane).2.length ≤ 16 * r := by
  unfold encodePlane
  split
  next => rw [List.length_singleton]; omega
  next =>
    dsimp only
    split
    next => exact hlen.le
    next hshort => exact (Nat.lt_of_not_le hshort).le

/-- Settles O52: each of the four kinds is read back, and a coded record as long as its plane gives way to the raw
one. -/
theorem planeRecordRoundTrip : Obligations.PlaneRecordRoundTrip := fun _ _ rest hr hr16 hlen =>
  ⟨readsBack_encodePlane hr16 hlen rest, encodePlane_length_le hr hlen⟩

/-! The planes of a block (43_block_format R203, R224). -/

/-- The planes of elements, taken apart again, are the elements. -/
theorem columns_columns {k : Nat} {es : List (List Byte)} (h : ∀ e ∈ es, e.length = k) :
    columns es.length (columns k es) = es := by
  refine List.ext_getElem (columns_length _ _) fun j hj hj' => ?_
  have hlen : es[j].length = k := h _ (List.getElem_mem hj')
  refine List.ext_getElem (by simp [columns, hlen]) fun p hp hp' => ?_
  simp [columns, column, hj', hp']

theorem blockPlanes_mem_length (b r : Nat) (blk : List Byte) : ∀ plane ∈ blockPlanes b r blk, plane.length = 16 * r :=
  fun plane hplane => (columns_mem_length _ _ plane hplane).trans (pieces_length _ _ _)

theorem readsBack_decodePlaneList {r : Nat} {planes : List (List Byte)} (hr : r ≤ 16)
    (h : ∀ plane ∈ planes, plane.length = 16 * r) :
    ReadsBack (decodePlaneList r (planes.map (fun plane => (encodePlane r plane).1)))
      (planes.map (fun plane => (encodePlane r plane).2)).flatten planes := by
  induction planes with
  | nil => exact fun _ => rfl
  | cons plane planes ih =>
    obtain ⟨hplane, hplanes⟩ := List.forall_mem_cons.mp h
    exact (readsBack_encodePlane hr hplane).bind ((ih hplanes).map (fun _ => rfl) rfl)

/-- The kinds of a block's planes. -/
def planeKinds (b r : Nat) (blk : List Byte) : List Kind :=
  (blockPlanes b r blk).map (fun plane => (encodePlane r plane).1)

@[simp] theorem planeKinds_length (b r : Nat) (blk : List Byte) : (planeKinds b r blk).length = b := by
  simp [planeKinds, blockPlanes]

theorem encodePlanes_eq (b r : Nat) (blk : List Byte) :
    encodePlanes b r blk = packNibbles ((planeKinds b r blk).map Kind.code) ++
      ((blockPlanes b r blk).map (fun plane => (encodePlane r plane).2)).flatten := by
  simp only [encodePlanes, planeKinds, List.map_map]
  rfl

/-- A row-coded block of `r` rows a plane is read back as its whole elements (44_block_encode R263, R275, R300). -/
theorem readsBack_encodePlanes {b r : Nat} {blk : List Byte} (hr : r ≤ 16) (hlen : 16 * r * b ≤ blk.length) :
    ReadsBack (decodePlanes b r) (encodePlanes b r blk) (blk.take (16 * r * b)) := by
  have hpieces : (columns (16 * r) (blockPlanes b r blk)).flatten = blk.take (16 * r * b) := by
    have hback := columns_columns (pieces_mem_length_of_le (k := b) hlen)
    have hwhole := flatten_length_const (pieces_mem_length_of_le (k := b) hlen)
    rw [pieces_length] at hback hwhole
    have hsplit := pieces_flatten_append_drop b (16 * r) blk
    rw [blockPlanes, Config.rowBytes, hback, ← List.take_left' (l₂ := blk.drop (16 * r * b)) hwhole, hsplit]
  have hplanes := (readsBack_decodePlaneList hr (blockPlanes_mem_length b r blk)).map
    (k := fun p => .ok ((columns (16 * r) p.1).flatten, p.2)) (fun _ => rfl) hpieces
  have hlt : ∀ k ∈ planeKinds b r blk, k.code < 16 := fun k _ => k.code_lt.trans (by decide)
  rw [encodePlanes_eq]
  exact readsBack_codes
    (k := fun kinds t => decodePlaneList r kinds t >>= fun p => .ok ((columns (16 * r) p.1).flatten, p.2))
    (planeKinds_length b r blk) (fun k _ => kindOf_code k) hlt hplanes

end Sys2Proof.Machine
end

