-- ==== Sys2Proof/Proofs/LzCodec.lean ====
section
/-! PROOFS. The LZ_BLOCK record (43_block_format R227, R228; 44_block_encode R286 to R293; 45_block_decode R316). What
the pass has written after each element of a group and after each group is read back as the elements so far, because its
hash table holds only elements before the one it codes. -/

namespace Sys2Proof.Machine

open Sys2Proof

/-! The decoder, item after item and group after group. -/

theorem decodeItems_append (b : Nat) (bits bits' : List Bool) (els : List (List Byte)) (t : List Byte) :
    decodeItems b (bits ++ bits') els t = decodeItems b bits els t >>= fun p => decodeItems b bits' p.1 p.2 := by
  induction bits generalizing els t with
  | nil => rfl
  | cons bit bits ih =>
    rw [List.cons_append, decodeItems, decodeItems, bind_assoc]
    exact congrArg (decodeElement b els bit t >>= ·) (funext fun p => ih _ _)

theorem decodeGroups_succ (b n : Nat) (els : List (List Byte)) (t : List Byte) :
    decodeGroups b (n + 1) els t = decodeGroups b n els t >>= fun p => decodeGroups b 1 p.1 p.2 := by
  induction n generalizing els t with
  | zero => rfl
  | succ n ih =>
    rw [decodeGroups, decodeGroups, bind_assoc]
    refine congrArg (takeU8 t >>= ·) (funext fun p => ?_)
    refine Eq.trans ?_ (bind_assoc _ _ _).symm
    exact congrArg (decodeItems b (bitsOfNat 8 p.1.toNat) els p.2 >>= ·) (funext fun q => ih _ _)

theorem ReadsBack.decodeItems_concat {b : Nat} {bits : List Bool} {bit : Bool} {els els' : List (List Byte)}
    {e bs cs : List Byte} (h : ReadsBack (decodeItems b bits els) bs els')
    (he : ReadsBack (decodeElement b els' bit) cs e) :
    ReadsBack (decodeItems b (bits ++ [bit]) els) (bs ++ cs) (els' ++ [e]) := by
  have hitem : ReadsBack (decodeItems b [bit] els') cs (els' ++ [e]) := he.map (fun _ => rfl) rfl
  exact fun rest => (decodeItems_append b bits [bit] els _).trans
    (h.bind (k := fun p => decodeItems b [bit] p.1 p.2) hitem rest)

theorem ReadsBack.decodeGroups_concat {b n : Nat} {els els' els'' : List (List Byte)} {bs cs : List Byte}
    (h : ReadsBack (decodeGroups b n els) bs els') (hg : ReadsBack (decodeGroups b 1 els') cs els'') :
    ReadsBack (decodeGroups b (n + 1) els) (bs ++ cs) els'' := fun rest =>
  (decodeGroups_succ b n els _).trans (h.bind (k := fun p => decodeGroups b 1 p.1 p.2) hg rest)

theorem natOfBits_concat (bits : List Bool) (bit : Bool) :
    natOfBits (bits ++ [bit]) = natOfBits bits + 2 ^ bits.length * bit.toNat := by
  induction bits with
  | nil => simp [natOfBits]
  | cons c bits ih =>
    rw [List.cons_append, natOfBits, natOfBits, ih, List.length_cons, Nat.pow_succ']
    ring

/-- A group is read back from its anchor and its items (43_block_format R227). -/
theorem ReadsBack.decodeGroup {b : Nat} {bits : List Bool} {els els' : List (List Byte)} {body : List Byte}
    (hbits : bits.length = 8) (h : ReadsBack (decodeItems b bits els) body els') :
    ReadsBack (decodeGroups b 1 els) (BitVec.ofNat 8 (natOfBits bits) :: body) els' := by
  have hlt := natOfBits_lt bits
  rw [hbits] at hlt
  have hanchor : bitsOfNat 8 (BitVec.ofNat 8 (natOfBits bits)).toNat = bits := by
    rw [BitVec.toNat_ofNat, Nat.mod_eq_of_lt hlt, ← hbits, bitsOfNat_natOfBits]
  rw [← hanchor] at h
  exact (readsBack_takeU8 _).bind (h.map (fun _ => rfl) rfl)

/-! One element (43_block_format R228). -/

theorem readsBack_backReference {off : Nat} (h : off < 2 ^ 15) : ReadsBack takeOffset (backReference off) off := by
  intro rest
  unfold backReference
  split
  next hone =>
    have hbyte : (BitVec.ofNat 8 off).toNat = off := by rw [BitVec.toNat_ofNat]; omega
    simp [takeOffset, bind, Except.bind, hbyte, hone]
  next hone =>
    have hlow : (BitVec.ofNat 8 (128 + off % 128)).toNat = 128 + off % 128 := by rw [BitVec.toNat_ofNat]; omega
    have hhigh : (BitVec.ofNat 8 (off / 128)).toNat = off / 128 := by rw [BitVec.toNat_ofNat]; omega
    simp [takeOffset, bind, Except.bind, hlow, hhigh, Nat.mod_add_div]

/-- A back-reference to an equal element before element `i` is read back as element `i`. -/
theorem readsBack_referenced (b : Nat) {els : List (List Byte)} {c i : Nat} (hc : c < i) (hi : i < els.length)
    (hlimit : i < 2 ^ 15) (heq : els.getD c [] = els.getD i []) :
    ReadsBack (decodeElement b (els.take i) true) (backReference (i - c)) (els.getD i []) := by
  have hlen : (els.take i).length = i := List.length_take_of_le hi.le
  have hin : ¬ (i - c < 1 ∨ (els.take i).length < i - c) := by omega
  have hback : (els.take i).getD ((els.take i).length - (i - c)) [] = els.getD i [] := by
    rw [hlen, Nat.sub_sub_self hc.le, ← heq, List.getD_eq_getElem _ _ (hlen.symm ▸ hc),
      List.getD_eq_getElem _ _ (hc.trans hi), List.getElem_take]
  exact (readsBack_backReference (by omega)).map (fun _ => if_neg hin) hback

/-- The probe answers an element of the table that is byte-equal (44_block_encode R291). -/
theorem lzProbe_some {look : LzLook} {skip : Bool} {table : List (Option Nat)} {h i c : Nat}
    (hc : lzProbe look skip table h i = some c) : table.getD h none = some c ∧ look i 1 c = look i 2 i := by
  unfold lzProbe at hc
  split_ifs at hc
  split at hc
  next => nomatch hc
  next d hd =>
    split_ifs at hc with heq
    cases hc
    exact ⟨hd, heq⟩

/-! The pass. -/

/-- The hash table holds only elements before element `n`. -/
def TableBelow (table : List (Option Nat)) (n : Nat) : Prop := ∀ h c, table.getD h none = some c → c < n

theorem TableBelow.set {table : List (Option Nat)} {n : Nat} (h : TableBelow table n) (j : Nat) :
    TableBelow (table.set j (some n)) (n + 1) := by
  intro k c hc
  rw [List.getD_eq_getElem?_getD, List.getElem?_set] at hc
  split_ifs at hc with hk hj
  · cases hc; exact Nat.lt_succ_self n
  · nomatch hc
  · exact (h k c (by rwa [List.getD_eq_getElem?_getD])).trans (Nat.lt_succ_self n)

/-- After `n` elements of the group that begins at element `start`, the anchor and the items read back as the
elements. -/
structure GroupCodes (b : Nat) (els : List (List Byte)) (start n : Nat) (g : LzGroup) : Prop where
  table : TableBelow g.table (start + n)
  items : ∃ bits : List Bool, bits.length = n ∧ g.anchor = natOfBits bits ∧
    ReadsBack (decodeItems b bits (els.take start)) g.body (els.take (start + n))

/-- After `k` groups the record is the marker and what reads back as their elements. -/
structure PassCodes (b : Nat) (els : List (List Byte)) (k : Nat) (z : LzState) : Prop where
  table : TableBelow z.table (8 * k)
  record : ∃ body, z.out = lzMarker :: body ∧ ReadsBack (decodeGroups b k []) body (els.take (8 * k))

/-- A property of the steps done so far holds after a fold over the first numbers. -/
theorem foldl_range_induction {σ : Type} {P : Nat → σ → Prop} {f : σ → Nat → σ} {s : σ} (h0 : P 0 s) (n : Nat)
    (hstep : ∀ k s, k < n → P k s → P (k + 1) (f s k)) : P n ((List.range n).foldl f s) := by
  induction n with
  | zero => exact h0
  | succ n ih =>
    rw [List.range_succ, List.foldl_concat]
    exact hstep n _ (Nat.lt_succ_self n) (ih fun k s hk => hstep k s (hk.trans (Nat.lt_succ_self n)))

@[simp] theorem LzState.throttled_table (z : LzState) (skip : Bool) (hits : Nat) :
    (z.throttled skip hits).table = z.table := by
  unfold LzState.throttled; split_ifs <;> rfl

@[simp] theorem LzState.throttled_out (z : LzState) (skip : Bool) (hits : Nat) :
    (z.throttled skip hits).out = z.out := by
  unfold LzState.throttled; split_ifs <;> rfl

theorem LzState.initial_table_getD (h : Nat) : LzState.initial.table.getD h none = none := by
  rw [LzState.initial, List.getD_eq_getElem?_getD, List.getElem?_replicate]
  split <;> rfl

theorem LzState.initial_codes (b : Nat) (els : List (List Byte)) : PassCodes b els 0 LzState.initial where
  table h c hc := by
    rw [LzState.initial_table_getD] at hc
    nomatch hc
  record := ⟨[], rfl, fun _ => rfl⟩

section
variable {b : Nat} {els : List (List Byte)} (hels : ∀ e ∈ els, e.length = b) (hlimit : els.length ≤ 2 ^ 15)
include hels hlimit

/-- What an element adds to its group: one item that reads back as the element, and its bit in the anchor. -/
theorem lzElement_cases (skip : Bool) {g : LzGroup} {i : Nat} (hi : i < els.length) (htable : TableBelow g.table i)
    (j : Nat) :
    ∃ (bit : Bool) (item : List Byte), ReadsBack (decodeElement b (els.take i) bit) item (els.getD i []) ∧
      (lzElement (lookAt els) skip g i j).anchor = g.anchor + 2 ^ j * bit.toNat ∧
      (lzElement (lookAt els) skip g i j).body = g.body ++ item ∧
      TableBelow (lzElement (lookAt els) skip g i j).table (i + 1) := by
  unfold lzElement
  dsimp only
  split
  next c hprobe =>
    obtain ⟨hentry, heq⟩ := lzProbe_some hprobe
    have hc : c < i := htable _ c hentry
    exact ⟨true, _, readsBack_referenced b hc hi (hi.trans_le hlimit) heq, by simp, rfl, htable.set _⟩
  next =>
    have hlen : (els.getD i []).length = b := by rw [List.getD_eq_getElem _ _ hi]; exact hels _ (List.getElem_mem hi)
    exact ⟨false, _, readsBack_takeBytes hlen, by simp, rfl, htable.set _⟩

theorem GroupCodes.next (skip : Bool) {start n : Nat} {g : LzGroup} (h : GroupCodes b els start n g)
    (hn : start + n < els.length) :
    GroupCodes b els start (n + 1) (lzElement (lookAt els) skip g (start + n) n) := by
  obtain ⟨htable, bits, hbits, hanchor, hitems⟩ := h
  obtain ⟨bit, item, hitem, hanchor', hbody', htable'⟩ := lzElement_cases hels hlimit skip hn htable n
  refine { table := htable', items := ⟨bits ++ [bit], by simp [hbits], ?_, ?_⟩ }
  · rw [hanchor', hanchor, natOfBits_concat, hbits]
  · rw [hbody', ← Nat.add_assoc, List.take_succ_eq_append_getElem hn, ← List.getD_eq_getElem _ [] hn]
    exact hitems.decodeItems_concat hitem

theorem lzGroup_codes (skip : Bool) {table : List (Option Nat)} {k : Nat} (htable : TableBelow table (8 * k))
    (hk : 8 * k + 8 ≤ els.length) :
    GroupCodes b els (8 * k) 8 (lzGroup (lookAt els) skip table k) :=
  foldl_range_induction { table := htable, items := ⟨[], rfl, rfl, fun _ => rfl⟩ } 8 fun _ _ hj hg =>
    hg.next hels hlimit skip (by omega)

theorem PassCodes.next {k : Nat} {z : LzState} (h : PassCodes b els k z) (hk : 8 * k + 8 ≤ els.length) :
    PassCodes b els (k + 1) (lzStep (lookAt els) z k) := by
  obtain ⟨htable, body, hout, hbody⟩ := h
  obtain ⟨htable', bits, hbits, hanchor, hitems⟩ := lzGroup_codes hels hlimit z.rawNext htable hk
  have hgroup := hbody.decodeGroups_concat (hitems.decodeGroup hbits)
  rw [← hanchor] at hgroup
  refine { table := ?_, record := ⟨_, ?_, hgroup⟩ }
  · simpa [lzStep, Nat.mul_succ] using htable'
  · simp [lzStep, hout]

end

/-- A pass that the 40 % test does not stop codes every group (44_block_encode R291, R293). -/
theorem lzPass_codes {b : Nat} {els : List (List Byte)} (hels : ∀ e ∈ els, e.length = b) (hlen : els.length = 256)
    {maxSize : Nat} (h : lzAborts maxSize (lzQuarter (lookAt els)) = false) :
    PassCodes b els 32 (lzPass (lookAt els) maxSize) := by
  have hpass : lzPass (lookAt els) maxSize = (List.range 32).foldl (lzStep (lookAt els)) LzState.initial := by
    have hquarters : List.range 32 = List.range 8 ++ List.range' 8 24 := by decide
    rw [lzPass, if_neg (by simp [h]), lzQuarter, hquarters, List.foldl_append]
  rw [hpass]
  exact foldl_range_induction (LzState.initial_codes b els) 32 fun k z hk hz =>
    hz.next hels (hlen.trans_le (by decide)) (by omega)

/-- A pass that gives a record ran through and kept its limit (44_block_encode R293). -/
theorem lzEncode_some {els : List (List Byte)} {maxSize : Nat} {record : List Byte}
    (h : lzEncode els maxSize = some record) :
    lzAborts maxSize (lzQuarter (lookAt els)) = false ∧ record = (lzPass (lookAt els) maxSize).out ∧
      record.length ≤ maxSize := by
  unfold lzEncode lzEncodeSeen at h
  rw [Option.ite_none_left_eq_some, Bool.or_eq_true, not_or, Bool.not_eq_true, decide_eq_true_eq, not_lt,
    Option.some_inj] at h
  obtain ⟨⟨hruns, hsize⟩, rfl⟩ := h
  exact ⟨hruns, rfl, hsize⟩

/-- An LZ_BLOCK record is its marker and what is read back as its block. -/
theorem lzEncode_readsBack {b maxSize : Nat} {blk record : List Byte} (hlen : blk.length = 256 * b)
    (h : lzEncode (blockElements b blk) maxSize = some record) :
    ∃ body, record = lzMarker :: body ∧ ReadsBack (decodeLz b) body blk := by
  obtain ⟨hruns, hrecord, _⟩ := lzEncode_some h
  have hcount : (blockElements b blk).length = 256 := pieces_length _ _ _
  have helements : ∀ e ∈ blockElements b blk, e.length = b := pieces_mem_length b 256 blk hlen
  obtain ⟨_, body, hout, hbody⟩ := lzPass_codes helements hcount hruns
  have hblk : ((blockElements b blk).take (8 * 32)).flatten = blk := by
    rw [List.take_of_length_le hcount.le]; exact pieces_flatten b 256 blk hlen
  exact ⟨body, hrecord.trans hout, hbody.map (fun _ => rfl) hblk⟩

/-- Settles O53: what the pass wrote after its 32 groups reads back as the 256 elements. -/
theorem lzRecordRoundTrip : Obligations.LzRecordRoundTrip := by
  intro b maxSize blk record rest hlen h
  obtain ⟨_, _, hsize⟩ := lzEncode_some h
  obtain ⟨body, hrecord, hbody⟩ := lzEncode_readsBack hlen h
  exact ⟨hsize, body, hrecord, hbody rest⟩

end Sys2Proof.Machine
end

