-- ==== Sys2Proof/Proofs/BlockCodec.lean ====
section
/-! PROOFS. The round trip of the block codec (43_block_format R200 to R202; 44_block_encode R260 to R263, R300;
45_block_decode R310 to R313): each kind of block is known by its first byte and read back, and so is the superblock. -/

namespace Sys2Proof.Machine

open Sys2Proof

/-! Full blocks. -/

/-- The first byte of two codes below 4 is below every marker (43_block_format R201). -/
theorem packNibbles_head_lt {cs : List Nat} (hne : cs ≠ []) (h : ∀ c ∈ cs, c < 4) :
    ∃ d rest, packNibbles cs = d :: rest ∧ d.toNat < 64 := by
  cases cs using packNibbles.fun_cases with
  | case1 => exact absurd rfl hne
  | case2 a =>
    have ha := h a (by simp)
    exact ⟨_, _, rfl, by rw [BitVec.toNat_ofNat]; omega⟩
  | case3 a b cs =>
    have ha := h a (by simp)
    have hb := h b (by simp)
    exact ⟨_, _, rfl, by rw [BitVec.toNat_ofNat]; omega⟩

/-- A block that begins with no marker is row-coded (45_block_decode R312). -/
theorem decodeRecord_of_lt {b : Nat} {f : Byte} (h : f.toNat < 64) (t : List Byte) :
    decodeRecord b f t = decodePlanes b 16 t := by
  have hcopy : f ≠ copyMarker := by rintro rfl; exact absurd h (by decide)
  have hlz : f ≠ lzMarker := by rintro rfl; exact absurd h (by decide)
  have hpartial : f ≠ partialMarker := by rintro rfl; exact absurd h (by decide)
  rw [decodeRecord, if_neg hcopy, if_neg hlz, if_neg hpartial, Config.rows]

section
variable {b : Nat} (hb : 1 ≤ b) {blk : List Byte} (hlen : blk.length = 256 * b)
include hlen

theorem readsBack_copy : ReadsBack (decodeFull b) (copyMarker :: blk) blk := readsBack_takeBytes hlen

theorem readsBack_lz {maxSize : Nat} {record : List Byte} (h : lzEncode (blockElements b blk) maxSize = some record) :
    ReadsBack (decodeFull b) record blk := by
  obtain ⟨body, rfl, hbody⟩ := lzEncode_readsBack hlen h
  exact hbody

include hb

theorem readsBack_rowCoded : ReadsBack (decodeFull b) (encodePlanes b 16 blk) blk := by
  have hplanes := readsBack_encodePlanes (b := b) (r := 16) (blk := blk) le_rfl hlen.ge
  rw [← hlen, List.take_length] at hplanes
  have hne : (planeKinds b 16 blk).map Kind.code ≠ [] := List.ne_nil_of_length_pos (by simpa using Nat.zero_lt_of_lt hb)
  obtain ⟨d, rest, hd, hlt⟩ := packNibbles_head_lt hne (List.forall_mem_map.mpr fun k _ => k.code_lt)
  rw [encodePlanes_eq, hd, List.cons_append] at hplanes ⊢
  exact fun t => (decodeRecord_of_lt hlt _).trans (hplanes t)

theorem readsBack_bestRecord : ReadsBack (decodeFull b) (bestRecord b blk) blk := by
  unfold bestRecord
  dsimp only
  split
  · exact readsBack_copy hlen
  · exact readsBack_rowCoded hb hlen

/-- A full block is read back whichever of its three records it takes (44_block_encode R263, R287). -/
theorem readsBack_encodeFull (lzEn : Bool) : ReadsBack (decodeFull b) (encodeFull lzEn b blk) blk := by
  unfold encodeFull
  dsimp only
  split
  · cases hlz : lzEncode (blockElements b blk) ((bestRecord b blk).length - 1) with
    | none => exact readsBack_bestRecord hb hlen
    | some record => exact readsBack_lz hlen hlz
  · exact readsBack_bestRecord hb hlen

end

/-- Full blocks one after another are read back where each is (45_block_decode R310). -/
theorem readsBack_decodeFulls {full : List Byte → Except Err (List Byte × List Byte)} {encode : List Byte → List Byte}
    {blks : List (List Byte)} (h : ∀ blk ∈ blks, ReadsBack full (encode blk) blk) :
    ReadsBack (decodeFulls full blks.length) (blks.map encode).flatten blks.flatten := by
  induction blks with
  | nil => exact fun _ => rfl
  | cons blk blks ih =>
    obtain ⟨hblk, hblks⟩ := List.forall_mem_cons.mp h
    exact hblk.bind ((ih hblks).map (fun _ => rfl) rfl)

/-! The tail and the superblock. -/

/-- A partial block is raw where it has no 16 whole elements, else row-coded with its residual after it
(44_block_encode R300). -/
theorem encodePartial_eq (b : Nat) (blk : List Byte) :
    encodePartial b blk = partialMarker :: (if blk.length / (16 * b) = 0 then blk
      else encodePlanes b (blk.length / (16 * b)) blk ++ blk.drop (16 * (blk.length / (16 * b)) * b)) :=
  (apply_ite (List.cons partialMarker) _ _ _).symm

/-- What the decoder of a partial block does after its marker (45_block_decode R313). -/
theorem decodePartial_marker (b n : Nat) (t : List Byte) :
    decodePartial b n (partialMarker :: t) = if n / (16 * b) = 0 then takeBytes n t
      else decodePlanes b (n / (16 * b)) t >>= fun p =>
        takeBytes (n - 16 * (n / (16 * b)) * b) p.2 >>= fun q => .ok (p.1 ++ q.1, q.2) := rfl

theorem readsBack_encodePartial {b : Nat} {blk : List Byte} (hlen : blk.length < 256 * b) :
    ReadsBack (decodePartial b blk.length) (encodePartial b blk) blk := by
  intro rest
  rw [encodePartial_eq, List.cons_append, decodePartial_marker]
  split
  next => exact readsBack_takeBytes rfl rest
  next =>
    have hrows : blk.length / (16 * b) ≤ 16 := (Nat.div_lt_of_lt_mul (by rwa [Nat.mul_right_comm])).le
    have hwhole : 16 * (blk.length / (16 * b)) * b ≤ blk.length := by
      rw [Nat.mul_right_comm]; exact Nat.mul_div_le _ _
    have hresidual := (readsBack_takeBytes (List.length_drop (i := 16 * (blk.length / (16 * b)) * b) (l := blk))).map
      (k := fun q => .ok (blk.take _ ++ q.1, q.2)) (fun _ => rfl) (List.take_append_drop _ _)
    exact (readsBack_encodePlanes hrows hwhole).bind hresidual rest

/-- The tail is read back, where there is one (44_block_encode R260; 45_block_decode R310). -/
theorem readsBack_decodeTail {b : Nat} {tail : List Byte} (hlen : tail.length < 256 * b) :
    ReadsBack (decodeTail b tail.length) (if tail.isEmpty then [] else encodePartial b tail) tail := by
  cases tail with
  | nil => exact fun _ => rfl
  | cons y ys => exact readsBack_encodePartial hlen

/-- A stream of full blocks and a tail, both read back and nothing after them, decodes to them (45_block_decode
R318). -/
theorem decodeWith_of_readsBack {full : List Byte → Except Err (List Byte × List Byte)} {b n : Nat}
    {bs cs xs ys : List Byte} (hfulls : ReadsBack (decodeFulls full (n / (256 * b))) bs xs)
    (htail : ReadsBack (decodeTail b (n % (256 * b))) cs ys) :
    decodeWith full b n (bs ++ cs) = .ok (xs ++ ys) := by
  have hend := htail []
  rw [List.append_nil] at hend
  simp only [decodeWith, Config.blockElems, hfulls cs, hend, bind, Except.bind, List.isEmpty_nil, if_true]

theorem decodeSuperblock_encodeSuperblock (lzEn : Bool) {b : Nat} (hb : 1 ≤ b) (x : List Byte) :
    decodeSuperblock b x.length (encodeSuperblock lzEn b x) = .ok x := by
  have hblocks : ∀ blk ∈ pieces (256 * b) (x.length / (256 * b)) x,
      ReadsBack (decodeFull b) (encodeFull lzEn b blk) blk := fun blk hblk =>
    readsBack_encodeFull hb (pieces_mem_length_of_le (Nat.div_mul_le_self _ _) blk hblk) lzEn
  have hfulls := readsBack_decodeFulls hblocks
  have htaillen : (x.drop (x.length / (256 * b) * (256 * b))).length = x.length % (256 * b) := by
    rw [List.length_drop, Nat.mod_eq_sub_div_mul]
  have htail := readsBack_decodeTail (htaillen.trans_lt (Nat.mod_lt _ (Nat.mul_pos (by decide) hb)))
  rw [pieces_length] at hfulls
  rw [htaillen] at htail
  have hdecoded := decodeWith_of_readsBack hfulls htail
  rwa [pieces_flatten_append_drop] at hdecoded

/-- Settles O57: full blocks and tail are read back, and they are the whole superblock. -/
theorem blockCodecRoundTrip : Obligations.BlockCodecRoundTrip := fun lzEn _ x hb _ _ =>
  decodeSuperblock_encodeSuperblock lzEn hb x

end Sys2Proof.Machine
end

