-- ==== Sys2Proof/Proofs/RowChoice.lean ====
section
/-! PROOFS. The choice of a row's code (44_block_encode R265, R266): the cost and form of each candidate, and that the row
takes the first of least cost. -/

namespace Sys2Proof.Machine

open Sys2Proof

/-! The candidates of a row. -/

/-- A literal or delta candidate is bit-packed where its width is at most 5, else it is raw and costs 16. -/
theorem packedCandidate_eq (header : Nat → RowHeader) (a row : List Byte) :
    ({ cost := packedCost a, row := packedRow header a a row } : Candidate) =
      if rowWidth a ≤ 5 then
        { cost := 2 * rowWidth a + 1
          row := { header := header (rowWidth a), min := some (leastByte a)
                   payload := pack (rowWidth a) (a.map (fun x => x - leastByte a)) } }
      else { cost := 16, row := { header := .raw, min := none, payload := row } } := by
  unfold packedCost packedRow
  split <;> rfl

/-- The bytes that differ from the one before them, counted on the pairs of neighbours. -/
theorem changes_length_eq_countP (p : Byte) (xs : List Byte) :
    (changes p xs).length = ((p :: xs).zip xs).countP (fun q => q.1 ≠ q.2) := by
  induction xs generalizing p with
  | nil => rfl
  | cons x xs ih =>
    rw [changes, List.zip_cons_cons, List.countP_cons, ← ih x]
    by_cases h : x = p
    · simp [h]
    · simp [h, Ne.symm h]

theorem packedCost_le (a : List Byte) : packedCost a ≤ 16 := by
  unfold packedCost
  split <;> omega

theorem packedCost_eq_iff (a : List Byte) : packedCost a = 16 ↔ 5 < rowWidth a := by
  unfold packedCost
  split <;> omega

/-- A literal or delta candidate is raw exactly when it costs 16. -/
theorem packedRow_header_eq_raw_iff (header : Nat → RowHeader) (h : ∀ b, header b ≠ .raw) (a w row : List Byte) :
    (packedRow header a w row).header = .raw ↔ packedCost a = 16 := by
  rw [packedCost_eq_iff, packedRow]
  split
  next hpacked => exact iff_of_false (h _) hpacked.not_gt
  next hraw => exact iff_of_true rfl (Nat.lt_of_not_le hraw)

theorem candidates_cost_of_raw {p pd : Byte} {row : List Byte} {c : Candidate} (hc : c ∈ candidates p pd row)
    (hraw : c.row.header = .raw) : c.cost = 16 := by
  simp only [candidates_eq, List.mem_cons, List.not_mem_nil, or_false] at hc
  rcases hc with rfl | rfl | rfl | rfl
  · exact (packedRow_header_eq_raw_iff .literal (fun _ => nofun) _ _ _).mp hraw
  · exact (packedRow_header_eq_raw_iff .delta (fun _ => nofun) _ _ _).mp hraw
  · exact nomatch hraw
  · exact nomatch hraw

/-! The least and the greatest byte are bytes of the row. -/

/-- A fold that keeps one of two bytes ends with its start or with one of the bytes. -/
theorem foldl_choice_mem {f : Byte → Byte → Byte} (hf : ∀ m x, f m x = m ∨ f m x = x) (xs : List Byte) (m : Byte) :
    xs.foldl f m ∈ m :: xs := by
  induction xs generalizing m with
  | nil => exact List.mem_singleton_self m
  | cons x xs ih =>
    rcases List.mem_cons.mp (ih (f m x)) with hstart | hrest
    · rw [List.foldl_cons, hstart]
      rcases hf m x with h | h <;> simp [h]
    · exact List.mem_cons_of_mem _ (List.mem_cons_of_mem _ hrest)

/-- From the first byte of a row, such a fold ends with a byte of the row. -/
theorem foldl_choice_headD_mem {f : Byte → Byte → Byte} (hf : ∀ m x, f m x = m ∨ f m x = x) {xs : List Byte}
    (h : xs ≠ []) : xs.foldl f (xs.headD 0) ∈ xs := by
  cases xs with
  | nil => exact absurd rfl h
  | cons x xs => simpa using foldl_choice_mem hf (x :: xs) x

theorem leastByte_mem {xs : List Byte} (h : xs ≠ []) : leastByte xs ∈ xs :=
  foldl_choice_headD_mem (fun m x => (ite_eq_or_eq (x < m) x m).symm) h

theorem greatestByte_mem {xs : List Byte} (h : xs ≠ []) : greatestByte xs ∈ xs :=
  foldl_choice_headD_mem (fun m x => (ite_eq_or_eq (m < x) x m).symm) h

/-! The first of least cost (44_block_encode R266). -/

/-- Candidate `c` stands at place `k` of `cs`, costs no more than any of them and less than any before it. -/
def FirstLeastAt (cs : List Candidate) (k : Nat) (c : Candidate) : Prop :=
  cs[k]? = some c ∧ ∀ (j : Nat) (d : Candidate), cs[j]? = some d → c.cost ≤ d.cost ∧ (j < k → c.cost < d.cost)

/-- A dearer candidate put before the others leaves the choice as it is. -/
theorem FirstLeastAt.cons {cs : List Candidate} {k : Nat} {c best : Candidate} (h : FirstLeastAt cs k c)
    (hbest : c.cost < best.cost) : FirstLeastAt (best :: cs) (k + 1) c := by
  obtain ⟨hk, hleast⟩ := h
  refine ⟨hk, fun j d hj => ?_⟩
  cases j with
  | zero =>
    obtain rfl : best = d := Option.some.inj hj
    exact ⟨hbest.le, fun _ => hbest⟩
  | succ j =>
    obtain ⟨hle, hlt⟩ := hleast j d hj
    exact ⟨hle, fun hjk => hlt (Nat.lt_of_succ_lt_succ hjk)⟩

/-- A candidate put after the first one, which is no dearer, leaves the choice as it is. -/
theorem FirstLeastAt.insert {cs : List Candidate} {k : Nat} {c best new : Candidate}
    (h : FirstLeastAt (best :: cs) k c) (hnew : best.cost ≤ new.cost) : ∃ k', FirstLeastAt (best :: new :: cs) k' c := by
  obtain ⟨hk, hleast⟩ := h
  obtain ⟨hbest, hfirst⟩ := hleast 0 best rfl
  cases k with
  | zero =>
    refine ⟨0, hk, fun j d hj => ⟨?_, nofun⟩⟩
    match j with
    | 0 => exact (hleast 0 d hj).1
    | 1 =>
      obtain rfl : new = d := Option.some.inj hj
      exact hbest.trans hnew
    | j + 2 => exact (hleast (j + 1) d hj).1
  | succ k =>
    have hlt := hfirst k.succ_pos
    have hcs : FirstLeastAt cs k c := ⟨hk, fun j d hj => by
      obtain ⟨hle, hlt⟩ := hleast (j + 1) d hj
      exact ⟨hle, fun hjk => hlt (Nat.succ_lt_succ hjk)⟩⟩
    exact ⟨k + 2, (hcs.cons (hlt.trans_le hnew)).cons hlt⟩

theorem firstLeast_firstLeastAt (best : Candidate) (cs : List Candidate) :
    ∃ k, FirstLeastAt (best :: cs) k (firstLeast best cs) := by
  induction cs generalizing best with
  | nil =>
    refine ⟨0, rfl, fun j d hj => ⟨?_, nofun⟩⟩
    obtain rfl : d = best := List.mem_singleton.mp (List.mem_of_getElem? hj)
    exact le_rfl
  | cons c cs ih =>
    rw [firstLeast]
    split
    next hlt =>
      obtain ⟨k, hk, hleast⟩ := ih c
      obtain ⟨hle, _⟩ := hleast 0 c rfl
      exact ⟨k + 1, FirstLeastAt.cons ⟨hk, hleast⟩ (hle.trans_lt hlt)⟩
    next hge =>
      obtain ⟨k, h⟩ := ih best
      exact h.insert (Nat.le_of_not_lt hge)

theorem chooseRow_firstLeastAt (p pd : Byte) (row : List Byte) :
    ∃ k, FirstLeastAt (candidates p pd row) k (chooseRow p pd row) := firstLeast_firstLeastAt _ _

/-- A row is raw exactly when its literal candidate costs 16 and none costs less. -/
theorem chooseRow_eq_raw_iff (p pd : Byte) (row : List Byte) :
    (chooseRow p pd row).row.header = .raw ↔ packedCost row = 16 ∧ ∀ c ∈ candidates p pd row, 16 ≤ c.cost := by
  obtain ⟨k, hk, hleast⟩ := chooseRow_firstLeastAt p pd row
  obtain ⟨hle, hfirst⟩ := hleast 0 _ rfl
  constructor
  · intro hraw
    have hcost := candidates_cost_of_raw (chooseRow_mem p pd row) hraw
    rw [hcost] at hle hleast
    refine ⟨(packedCost_le row).antisymm hle, fun c hc => ?_⟩
    obtain ⟨j, hj⟩ := List.mem_iff_getElem?.mp hc
    exact (hleast j c hj).1
  · rintro ⟨hliteral, hall⟩
    have hcost := hall _ (chooseRow_mem p pd row)
    obtain rfl : k = 0 := by
      by_contra hpos
      exact absurd (hfirst (Nat.pos_of_ne_zero hpos)) (hliteral.trans_le hcost).not_gt
    rw [← Option.some.inj hk]
    exact (packedRow_header_eq_raw_iff .literal (fun _ => nofun) _ _ _).mpr hliteral

/-- Settles O49: the model's candidates spelt out, the extreme bytes of a row, and the first of least cost. -/
theorem rowTakesFirstLeastCost : Obligations.RowTakesFirstLeastCost := by
  refine ⟨fun p pd row => ?candidates, fun xs hne => ?extremes, fun p pd row => ?choice⟩
  case candidates =>
    dsimp only
    rw [candidates_eq, packedCandidate_eq, packedCandidate_eq, runCost, runCost, changes_length_eq_countP,
      changes_length_eq_countP]
  case extremes =>
    exact ⟨leastByte_mem hne, greatestByte xs, greatestByte_mem hne,
      fun x hx => ⟨BitVec.le_def.mpr (leastByte_le hx), BitVec.le_def.mpr (le_greatestByte hx)⟩, rfl⟩
  case choice => exact ⟨chooseRow_firstLeastAt p pd row, chooseRow_eq_raw_iff p pd row⟩

end Sys2Proof.Machine
end

