-- ==== Sys2Proof/Proofs/RecordChoice.lean ====
section
/-! PROOFS. Which record a plane and a full block take (44_block_encode R263, R270 to R272, R280, R286, R287). -/

namespace Sys2Proof.Machine

open Sys2Proof

/-! The kinds of a plane. -/

section
variable (codes : List RowCode)

/-- A coded plane is NORMAL_RLE exactly when the run-length form of its mins is shorter than they are (44_block_encode
R271). -/
theorem codedPlane_kind :
    (codedPlane codes).1 =
      if 2 + (changes 0 (codes.filterMap RowCode.min)).length < (codes.filterMap RowCode.min).length then .normalRle
      else .normal := apply_ite Prod.fst _ _ _

theorem codedPlane_length : (codedPlane codes).2.length = codedSize codes.length codes := by
  have hpayloads : (codes.map fun c => c.payload).flatten.length = (codes.map fun c => c.payload.length).sum := by
    rw [List.length_flatten, List.map_map]
    rfl
  unfold codedPlane codedSize
  dsimp only
  split <;>
    simp only [List.length_append, packNibbles_length, List.length_map, runLength_length, runCost, hpayloads] <;> omega

end

/-- A plane is uniform exactly when all its bytes are its first. -/
theorem all_eq_headD_iff {n : Nat} {plane : List Byte} (hn : 0 < n) (hlen : plane.length = n) :
    plane.all (fun x => x == plane.headD 0) = true ↔ ∃ v, plane = List.replicate n v := by
  constructor
  · intro h
    exact ⟨plane.headD 0, List.eq_replicate_iff.mpr ⟨hlen, fun x hx => by simpa using List.all_eq_true.mp h x hx⟩⟩
  · rintro ⟨v, rfl⟩
    obtain ⟨m, rfl⟩ := Nat.exists_eq_add_one_of_ne_zero hn.ne'
    simp [List.replicate_succ]

/-- What the record of a plane is, said once: the kind, the sizes that choose it and the size it has (44_block_encode R270
to R272). -/
theorem encodePlane_cases {r : Nat} {plane : List Byte} (hr : 1 ≤ r) (hlen : plane.length = 16 * r) :
    let rows := encodeRows 0 0 (pieces 16 r plane)
    let mins := rows.filterMap (fun c => c.min)
    let uniform := ∃ v, plane = List.replicate (16 * r) v
    let record := encodePlane r plane
    (record.1 = .allSame ∧ uniform ∧ record.2.length = 1) ∨
    (record.1 = .allRaw ∧ ¬ uniform ∧ 16 * r ≤ codedSize r rows ∧ record.2.length = 16 * r) ∨
    (record.1 = .normalRle ∧ ¬ uniform ∧ codedSize r rows < 16 * r ∧ 2 + (changes 0 mins).length < mins.length ∧
      record.2.length = codedSize r rows) ∨
    (record.1 = .normal ∧ ¬ uniform ∧ codedSize r rows < 16 * r ∧ mins.length ≤ 2 + (changes 0 mins).length ∧
      record.2.length = codedSize r rows) := by
  have hcoded := codedPlane_length (encodeRows 0 0 (pieces 16 r plane))
  rw [encodeRows_length, pieces_length] at hcoded
  dsimp only
  rw [← all_eq_headD_iff (by omega) hlen, ← hcoded]
  unfold encodePlane
  split
  next hsame => exact .inl ⟨rfl, hsame, rfl⟩
  next hsame =>
    dsimp only
    split
    next hlong => exact .inr (.inl ⟨rfl, hsame, hlong, hlen⟩)
    next hshort =>
      refine .inr (.inr ?_)
      have hlt := Nat.lt_of_not_le hshort
      have hkind := codedPlane_kind (encodeRows 0 0 (pieces 16 r plane))
      split at hkind
      next hrle => exact .inl ⟨hkind, hsame, hlt, hrle, rfl⟩
      next hplain => exact .inr ⟨hkind, hsame, hlt, Nat.le_of_not_lt hplain, rfl⟩

/-! The records of a full block. -/

/-- A block whose row-coded record is no shorter is copied (44_block_encode R280). -/
theorem bestRecord_of_le {b : Nat} {blk : List Byte} (h : 1 + blk.length ≤ (encodePlanes b 16 blk).length) :
    bestRecord b blk = copyMarker :: blk := if_pos (by rwa [List.length_cons, Nat.add_comm])

theorem bestRecord_of_lt {b : Nat} {blk : List Byte} (h : (encodePlanes b 16 blk).length < 1 + blk.length) :
    bestRecord b blk = encodePlanes b 16 blk := if_neg (by rwa [List.length_cons, Nat.add_comm, Nat.not_le])

/-- The row-coded or copied record of a block is no longer than the copy. -/
theorem bestRecord_length_le (b : Nat) (blk : List Byte) : (bestRecord b blk).length ≤ 1 + blk.length := by
  rcases Nat.lt_or_ge (encodePlanes b 16 blk).length (1 + blk.length) with h | h
  · exact (congrArg List.length (bestRecord_of_lt h)).trans_le h.le
  · rw [bestRecord_of_le h, List.length_cons, Nat.add_comm]

theorem packNibbles_planeKinds_length (b r : Nat) (blk : List Byte) :
    (packNibbles ((planeKinds b r blk).map Kind.code)).length = (b + 1) / 2 := by
  rw [packNibbles_length, List.length_map, planeKinds_length]

theorem bestRecord_length_pos {b : Nat} (hb : 1 ≤ b) (blk : List Byte) : 0 < (bestRecord b blk).length := by
  rcases Nat.lt_or_ge (encodePlanes b 16 blk).length (1 + blk.length) with h | h
  · rw [bestRecord_of_lt h, encodePlanes_eq, List.length_append, packNibbles_planeKinds_length]
    omega
  · rw [bestRecord_of_le h]
    exact Nat.succ_pos _

/-- Settles O55: the three branches of a plane's record, the kind and the size of each, and the two of a block's. -/
theorem kindsAreChosenBySize : Obligations.KindsAreChosenBySize := by
  refine ⟨fun r plane hr hlen => ?plane, fun b blk hlen => ?block⟩
  case plane =>
    dsimp only
    rcases encodePlane_cases hr hlen with ⟨hkind, hsame, hsize⟩ | ⟨hkind, hsame, hraw, hsize⟩ |
      ⟨hkind, hsame, hcoded, hmins, hsize⟩ | ⟨hkind, hsame, hcoded, hmins, hsize⟩
    · simp only [hkind, hsame, hsize, reduceCtorEq, if_true, not_true, false_and, and_self]
    · simp only [hkind, hsame, hsize, hraw, hraw.not_gt, reduceCtorEq, if_true, if_false, not_false_iff, false_and,
        and_false, and_self]
    · simp only [hkind, hsame, hsize, hcoded, hcoded.not_ge, hmins, hmins.not_ge, reduceCtorEq, if_false, not_false_iff,
        and_false, and_self]
    · simp only [hkind, hsame, hsize, hcoded, hcoded.not_ge, hmins, hmins.not_gt, reduceCtorEq, if_false, not_false_iff,
        and_false, and_self]
  case block =>
    rw [← hlen]
    exact ⟨bestRecord_of_le, bestRecord_of_lt⟩

/-! The LZ pass (44_block_encode R286, R287). -/

theorem lzEligible_iff {lzEn : Bool} {b : Nat} : lzEligible lzEn b = true ↔ lzEn = true ∧ b ∈ [3, 4, 6, 8] := by
  rw [lzEligible, Bool.and_eq_true, List.contains_iff_mem, Config.lzBppSet]

section
variable {lzEn : Bool} {b : Nat}

theorem encodeFull_of_not_eligible (h : ¬ lzEligible lzEn b = true) (blk : List Byte) :
    encodeFull lzEn b blk = bestRecord b blk := if_neg h

theorem encodeFull_of_eligible (h : lzEligible lzEn b = true) (blk : List Byte) :
    encodeFull lzEn b blk = (lzEncode (blockElements b blk) ((bestRecord b blk).length - 1)).getD (bestRecord b blk) :=
  if_pos h

/-- A full block takes its row-coded or copied record, or a shorter one (44_block_encode R287). -/
theorem encodeFull_shortens (hb : 1 ≤ b) (lzEn : Bool) (blk : List Byte) :
    encodeFull lzEn b blk = bestRecord b blk ∨ (encodeFull lzEn b blk).length < (bestRecord b blk).length := by
  by_cases h : lzEligible lzEn b = true
  · rw [encodeFull_of_eligible h]
    cases hrecord : lzEncode (blockElements b blk) ((bestRecord b blk).length - 1) with
    | none => exact .inl rfl
    | some record =>
      obtain ⟨_, _, hlimit⟩ := lzEncode_some hrecord
      exact .inr (hlimit.trans_lt (Nat.sub_one_lt (bestRecord_length_pos hb blk).ne'))
  · exact .inl (encodeFull_of_not_eligible h blk)

end

/-- Settles O54: an eligible block takes what the pass gives, whose limit is one byte below the other record. -/
theorem lzOnlyShortens : Obligations.LzOnlyShortens := by
  refine fun lzEn b blk =>
    ⟨fun h => ?ineligible, fun hen hb => ⟨fun record h => ?taken, fun h => ?failed⟩, fun hne => ?shorter⟩
  case ineligible =>
    refine encodeFull_of_not_eligible (fun helig => ?_) blk
    obtain ⟨hen, hb⟩ := lzEligible_iff.mp helig
    exact h.elim (fun hoff => absurd (hoff.symm.trans hen) Bool.false_ne_true) (· hb)
  case taken => rw [encodeFull_of_eligible (lzEligible_iff.mpr ⟨hen, hb⟩), h, Option.getD_some]
  case failed => rw [encodeFull_of_eligible (lzEligible_iff.mpr ⟨hen, hb⟩), h, Option.getD_none]
  case shorter =>
    rcases Nat.eq_zero_or_pos b with rfl | hb
    · refine absurd (encodeFull_of_not_eligible (fun helig => ?_) blk) hne
      exact absurd (lzEligible_iff.mp helig).2 (by decide)
    · exact (encodeFull_shortens hb lzEn blk).resolve_left hne

end Sys2Proof.Machine
end

