-- ==== Sys2Proof/Proofs/EncodedSize.lean ====
section
/-! PROOFS. The size of the encoding (44_block_encode R302), and what BLK_ENC does with it: it writes the encoding where that
fits the capacity, and ends in DstOverflow where it does not (44_block_encode R260; 40_control R125 to R128). -/

namespace Sys2Proof.Machine

open Sys2Proof

/-! The size bounds (44_block_encode R302). -/

/-- Records that are each within a bound are together within as many bounds. -/
theorem flatten_map_length_le {α : Type} {f : α → List Byte} {xs : List α} {n : Nat} (h : ∀ x ∈ xs, (f x).length ≤ n) :
    (xs.map f).flatten.length ≤ xs.length * n := by
  rw [List.length_flatten, List.map_map]
  refine (List.sum_le_card_nsmul _ n (List.forall_mem_map.mpr h)).trans_eq ?_
  rw [List.length_map, smul_eq_mul]

/-- A row-coded block has the codes of its kinds and no more bytes than its planes. -/
theorem encodePlanes_length_le {r : Nat} (hr : 1 ≤ r) (b : Nat) (blk : List Byte) :
    (encodePlanes b r blk).length ≤ (b + 1) / 2 + 16 * r * b := by
  have hplanes : ∀ plane ∈ blockPlanes b r blk, (encodePlane r plane).2.length ≤ 16 * r := fun plane hplane =>
    encodePlane_length_le hr (blockPlanes_mem_length b r blk plane hplane)
  have hrecords := flatten_map_length_le hplanes
  rw [blockPlanes, columns_length, Nat.mul_comm b] at hrecords
  rw [encodePlanes_eq, List.length_append, packNibbles_planeKinds_length]
  exact Nat.add_le_add_left hrecords _

theorem encodeFull_length_le {b : Nat} (hb : 1 ≤ b) (lzEn : Bool) (blk : List Byte) :
    (encodeFull lzEn b blk).length ≤ 1 + blk.length := by
  have hbest := bestRecord_length_le b blk
  rcases encodeFull_shortens hb lzEn blk with h | h
  · rwa [h]
  · exact h.le.trans hbest

/-- A partial block without 16 whole elements is its marker and its bytes (44_block_encode R300). -/
theorem encodePartial_length_of_lt {b : Nat} {blk : List Byte} (h : blk.length < 16 * b) :
    (encodePartial b blk).length = 1 + blk.length := by
  rw [encodePartial_eq, if_pos (Nat.div_eq_of_lt h), List.length_cons, Nat.add_comm]

theorem encodePartial_length_le (b : Nat) (blk : List Byte) :
    (encodePartial b blk).length ≤ 1 + (b + 1) / 2 + blk.length := by
  rw [encodePartial_eq, List.length_cons]
  split
  next => omega
  next hrows =>
    have hcoded := encodePlanes_length_le (Nat.one_le_iff_ne_zero.mpr hrows) b blk
    have hwhole : 16 * (blk.length / (16 * b)) * b ≤ blk.length := by
      rw [Nat.mul_right_comm]; exact Nat.mul_div_le _ _
    rw [List.length_append, List.length_drop]
    omega

theorem encodeFulls_length_le {b : Nat} (hb : 1 ≤ b) (lzEn : Bool) {f : Nat} {x : List Byte}
    (h : f * (256 * b) ≤ x.length) : (encodeFulls lzEn b f x).length ≤ f * (1 + 256 * b) := by
  have hblocks : ∀ blk ∈ pieces (256 * b) f x, (encodeFull lzEn b blk).length ≤ 1 + 256 * b := fun blk hblk => by
    have hfull := encodeFull_length_le hb lzEn blk
    rwa [pieces_mem_length_of_le h blk hblk] at hfull
  have hrecords := flatten_map_length_le hblocks
  rwa [pieces_length] at hrecords

theorem encodeSuperblock_length_le {b : Nat} (hb : 1 ≤ b) (lzEn : Bool) (x : List Byte) :
    (encodeSuperblock lzEn b x).length ≤ encodedBound b x.length := by
  have hfulls := encodeFulls_length_le hb lzEn (Nat.div_mul_le_self x.length (256 * b))
  have htail : (x.drop (x.length / (256 * b) * (256 * b))).length = x.length % (256 * b) := by
    rw [List.length_drop, Nat.mod_eq_sub_div_mul]
  have hpartial := encodePartial_length_le b (x.drop (x.length / (256 * b) * (256 * b)))
  rw [htail] at hpartial
  simp only [encodeSuperblock, Config.blockElems, encodedBound, List.length_append, List.isEmpty_iff_length_eq_zero,
    htail]
  refine Nat.add_le_add hfulls ?_
  rcases Nat.eq_zero_or_pos (x.length % (256 * b)) with hnone | hsome
  · rw [if_pos hnone]; exact Nat.zero_le _
  · rw [if_neg hsome.ne', if_pos hsome]; exact hpartial

/-! BLK_ENC. -/

theorem validateByR123_blkEnc {lzEn : Bool} {bpp : Nat} {s : State} :
    validateByR123 (.blkEnc lzEn bpp) s = none ↔ bpp ≠ 0 ∧ s.latch.len.toNat < 2 ^ 24 ∧ s.windowsOk :=
  validate_ok_iff.symm.trans validateBlkEnc_ok

/-- Without a race on its source, a command whose output does not fit the capacity ends in DstOverflow (40_control R125,
R127). -/
theorem endedInError_of_performOn {i : Instr} {s : State} {out : List Byte} (hv : validateByR123 i s = none)
    (hs : s.settled) (hout : performOn i s.latch.olen.toNat s.source = .ok out) (hlt : s.latch.cap.toNat < out.length) :
    ∃ t, exec i s = .next t ∧ endedInError s t .dstOverflow := by
  obtain ⟨w, heq⟩ := exec_of_valid hv
  rw [perform_of_settled hs hv, hout, State.complete_ok_of_lt { s with work := w } out hlt] at heq
  exact ⟨_, heq, State.completeError_endedInError { s with work := w } .dstOverflow⟩

/-- Settles O12: the completion delivers the encoding, or refuses it for its size. -/
theorem blkEncWritesEncoding : Obligations.BlkEncWritesEncoding := by
  intro lzEn bpp s hbpp hlen hwindows hs
  have hv : validateByR123 (.blkEnc lzEn bpp) s = none :=
    validateByR123_blkEnc.mpr ⟨Nat.one_le_iff_ne_zero.mp hbpp, hlen, hwindows⟩
  rcases Nat.lt_or_ge s.latch.cap.toNat (encodeSuperblock lzEn bpp s.source).length with hlt | hle
  · obtain ⟨t, hexec, herror⟩ := endedInError_of_performOn hv hs.1 rfl hlt
    exact ⟨t, hexec, fun hle => absurd hlt hle.not_gt, fun _ => herror⟩
  · obtain ⟨t, hexec, hproduced⟩ := producesOutput_of_performOn hv hs rfl hle
    exact ⟨t, hexec, fun _ => hproduced, fun hlt => absurd hlt hle.not_gt⟩

/-- The checks of BLK_ENC before it performs do not look at the size of its output (40_control R123). -/
theorem validateBlkEnc_code_ne_dstOverflow (bpp : Nat) (s : State) :
    ErrorsIn (fun e => e.code ≠ 0x06) (validateBlkEnc bpp s) := by
  have hparameter (c : Bool) : ErrorsIn (fun e => e.code ≠ 0x06) (failIf c .invalidParameter) :=
    failIf_errors c (by decide)
  have hbus (c : Bool) : ErrorsIn (fun e => e.code ≠ 0x06) (failIf c .busFault) := failIf_errors c (by decide)
  exact errorsIn_bind (hparameter _) fun _ => errorsIn_bind (hparameter _) fun _ =>
    errorsIn_bind (hparameter _) fun _ => errorsIn_bind (hparameter _) fun _ => hbus _

/-- Without a race BLK_ENC reports DstOverflow only where the encoding does not fit the capacity. -/
theorem exec_blkEnc_errcode {lzEn : Bool} {bpp : Nat} {s t : State} (hs : s.hazardFree)
    (hle : (encodeSuperblock lzEn bpp s.source).length ≤ s.latch.cap.toNat) (h : exec (.blkEnc lzEn bpp) s = .next t) :
    t.status.errcode ≠ 0x06 := by
  cases hv : validateByR123 (.blkEnc lzEn bpp) s with
  | some e =>
    obtain ⟨w, heq⟩ := exec_of_failure hv
    obtain rfl : State.completeError { s with work := w } e = t := by rw [heq] at h; injection h
    have hvalidate := validate_eq_firstFailure (.blkEnc lzEn bpp) s
    rw [hv] at hvalidate
    exact validateBlkEnc_code_ne_dstOverflow bpp s e hvalidate
  | none =>
    obtain ⟨u, hexec, ⟨hok, _⟩, _⟩ := producesOutput_of_performOn hv hs rfl hle
    obtain rfl : u = t := by rw [hexec] at h; injection h
    rw [hok]
    decide

/-- Settles O56: the bounds of each kind of block add up to that of the superblock, which a capacity then holds. -/
theorem encodedSizeIsBounded : Obligations.EncodedSizeIsBounded := by
  refine ⟨fun lzEn b blk hb hlen => ?full, fun b blk _ _ _ => ?tail, fun lzEn b x hb => ?whole,
    fun lzEn bpp s t hbpp hs hcap h => ?capacity⟩
  case full => exact hlen ▸ encodeFull_length_le hb lzEn blk
  case tail => exact ⟨fun _ => encodePartial_length_le b blk, encodePartial_length_of_lt⟩
  case whole => exact encodeSuperblock_length_le hb lzEn x
  case capacity =>
    have hle := encodeSuperblock_length_le hbpp lzEn s.source
    rw [s.source_length] at hle
    exact exec_blkEnc_errcode hs (hle.trans hcap) h

end Sys2Proof.Machine
end

