-- ==== Sys2Proof/Proofs/DecodedLength.lean ====
section
/-! PROOFS. The codes a decoder takes from nibbles (43_block_format R214, R216, R222, R223), and how many bytes each reader of
the decoder gives (45_block_decode R310 to R316): a superblock that decodes has OLEN bytes. -/

namespace Sys2Proof.Machine

open Sys2Proof

/-! Codes in nibbles. -/

theorem nibbleAt_cons_zero (b : Byte) (bs : List Byte) : nibbleAt (b :: bs) 0 = b.toNat % 16 := by simp [nibbleAt]

theorem nibbleAt_cons_one (b : Byte) (bs : List Byte) : nibbleAt (b :: bs) 1 = b.toNat / 16 := by
  have := b.isLt
  simp only [nibbleAt, Nat.reduceDiv, Nat.one_mod, Nat.pow_one, List.getD_cons_zero]
  omega

theorem nibbleAt_cons_add_two (b : Byte) (bs : List Byte) (k : Nat) : nibbleAt (b :: bs) (k + 2) = nibbleAt bs k := by
  simp [nibbleAt]

theorem nibbleAt_lt (bs : List Byte) (k : Nat) : nibbleAt bs k < 16 := Nat.mod_lt _ (by decide)

theorem nibbles_eq_map (bs : List Byte) : nibbles bs = (List.range (2 * bs.length)).map (nibbleAt bs) := by
  induction bs with
  | nil => rfl
  | cons b bs ih =>
    rw [nibbles, ih, List.length_cons, Nat.mul_succ, List.range_succ_eq_map, List.range_succ_eq_map]
    simp [nibbleAt_cons_zero, nibbleAt_cons_one, nibbleAt_cons_add_two, Function.comp_def]

/-- The codes of `n` nibbles are these nibbles, and only an odd `n` leaves one to be 0 (43_block_format R222, R223). -/
theorem unpadded_eq {n : Nat} {bs : List Byte} (h : bs.length = (n + 1) / 2) :
    unpadded n bs = if n % 2 = 1 ∧ nibbleAt bs n ≠ 0 then .error .invalidInput
      else .ok ((List.range n).map (nibbleAt bs)) := by
  have hlen : 2 * bs.length = n + n % 2 := by omega
  have hsplit : nibbles bs =
      (List.range n).map (nibbleAt bs) ++ (List.range (n % 2)).map (fun k => nibbleAt bs (n + k)) := by
    rw [nibbles_eq_map, hlen, List.range_add, List.map_append, List.map_map]; rfl
  have hcount : ((List.range n).map (nibbleAt bs)).length = n := by simp
  rw [unpadded, hsplit, List.drop_left' hcount, List.take_left' hcount]
  rcases Nat.mod_two_eq_zero_or_one n with heven | hodd
  · simp [heven]
  · simp [hodd]

/-- Codes have their meanings exactly when each has one. -/
theorem allCodes_eq {α : Type} (f : Nat → Option α) (codes : List Nat) :
    allCodes f codes = if ∀ c ∈ codes, (f c).isSome then .ok (codes.filterMap f) else .error .invalidInput := by
  have hmap : codes.mapM f = if ∀ c ∈ codes, (f c).isSome then some (codes.filterMap f) else none := by
    induction codes with
    | nil => rfl
    | cons c codes ih =>
      rw [List.mapM_cons, ih]
      cases hc : f c with
      | none => simp [hc]
      | some x =>
        by_cases hcodes : ∀ c ∈ codes, (f c).isSome
        · simp [hc, eq_true hcodes]
        · simp [hc, eq_false hcodes]
  rw [allCodes, hmap]
  split_ifs <;> rfl

/-! What a reader answers. -/

/-- Whatever `x` answers has `P`. -/
def Answers {α : Type} (P : α → Prop) (x : Except Err α) : Prop := ∀ v, x = .ok v → P v

theorem answers_ok {α : Type} {P : α → Prop} {v : α} (h : P v) : Answers P (.ok v) := by
  rintro v' he; cases he; exact h

theorem answers_error {α : Type} {P : α → Prop} {e : Err} : Answers P (.error e) := fun _ h => nomatch h

/-- A sequence answers what its second part answers on an answer of the first. -/
theorem answers_bind {α β : Type} {P : α → Prop} {Q : β → Prop} {x : Except Err α} {k : α → Except Err β}
    (hx : Answers P x) (hk : ∀ v, P v → Answers Q (k v)) : Answers Q (x >>= k) := by
  cases x with
  | error e => exact answers_error
  | ok v => exact hk v (hx v rfl)

/-- A sequence answers what its second part always answers. -/
theorem answers_of_next {α β : Type} {Q : β → Prop} {x : Except Err α} {k : α → Except Err β}
    (hk : ∀ v, Answers Q (k v)) : Answers Q (x >>= k) :=
  answers_bind (P := fun _ => True) (fun _ _ => trivial) fun v _ => hk v

theorem answers_ite {α : Type} {P : α → Prop} {c : Prop} [Decidable c] {x y : Except Err α} (hx : c → Answers P x)
    (hy : ¬ c → Answers P y) : Answers P (if c then x else y) := by
  split
  next hc => exact hx hc
  next hc => exact hy hc

/-- A reader's answer has `n` items. -/
abbrev Gives {α : Type} (n : Nat) (x : Except Err (List α × List Byte)) : Prop := Answers (fun p => p.1.length = n) x

theorem takeBytes_gives (k : Nat) (t : List Byte) : Gives k (takeBytes k t) := by
  rintro ⟨bs, rest⟩ h
  rcases takeBytes_inversion k t with ⟨bs', rest', htake, _, hlen⟩ | ⟨_, htake⟩
  · rw [htake] at h; cases h; exact hlen
  · rw [htake] at h; cases h

theorem unpadded_length {n : Nat} {bs : List Byte} (h : bs.length = (n + 1) / 2) :
    Answers (fun codes => codes.length = n) (unpadded n bs) := by
  rw [unpadded_eq h]
  exact answers_ite (fun _ => answers_error) fun _ => answers_ok (by simp)

theorem allCodes_length {α : Type} (f : Nat → Option α) (codes : List Nat) :
    Answers (fun xs => xs.length = codes.length) (allCodes f codes) := by
  rw [allCodes_eq]
  exact answers_ite
    (fun h => answers_ok (List.length_filterMap_eq_countP.trans (List.countP_eq_length.mpr h))) fun _ => answers_error

theorem decodePlaneList_gives (r : Nat) (kinds : List Kind) (t : List Byte) :
    Gives kinds.length (decodePlaneList r kinds t) := by
  induction kinds generalizing t with
  | nil => exact answers_ok rfl
  | cons k ks ih =>
    exact answers_of_next fun (_, t) => answers_bind (ih t) fun _ hplanes =>
      answers_ok (congrArg (· + 1) hplanes)

/-- A row-coded block gives an element for each byte of its planes, each with a byte of every plane. -/
theorem decodePlanes_gives (b r : Nat) (t : List Byte) : Gives (16 * r * b) (decodePlanes b r t) :=
  answers_bind (takeBytes_gives _ t) fun (_, t) hbytes => answers_bind (unpadded_length hbytes) fun codes hcodes =>
    answers_bind (allCodes_length kindOf codes) fun kinds hkinds =>
      answers_bind (decodePlaneList_gives r kinds t) fun (planes, _) hplanes => answers_ok <|
        (columns_flatten_length _ planes).trans (congrArg (16 * r * ·) (hplanes.trans (hkinds.trans hcodes)))

/-! An LZ_BLOCK record (45_block_decode R316). -/

section
variable {b : Nat} {els : List (List Byte)} (hels : ∀ e ∈ els, e.length = b)
include hels

theorem decodeElement_gives (isRef : Bool) (t : List Byte) : Gives b (decodeElement b els isRef t) := by
  cases isRef with
  | false => exact takeBytes_gives b t
  | true =>
    refine answers_of_next fun (off, t) =>
      answers_ite (fun _ => answers_error) fun hoff => answers_ok ?_
    have hlt : els.length - off < els.length := by omega
    rw [List.getD_eq_getElem _ _ hlt]
    exact hels _ (List.getElem_mem hlt)

theorem decodeItems_gives (bits : List Bool) (t : List Byte) :
    Answers (fun p => (∀ e ∈ p.1, e.length = b) ∧ p.1.length = els.length + bits.length)
      (decodeItems b bits els t) := by
  induction bits generalizing els t with
  | nil => exact answers_ok ⟨hels, rfl⟩
  | cons bit bits ih =>
    refine answers_bind (decodeElement_gives hels bit t) fun (e, t) he => ?_
    have hnext : ∀ e' ∈ els ++ [e], e'.length = b :=
      List.forall_mem_append.mpr ⟨hels, List.forall_mem_singleton.mpr he⟩
    have hrest := ih hnext t
    rwa [List.length_append, List.length_singleton, Nat.add_assoc, Nat.add_comm 1] at hrest

theorem decodeGroups_gives (n : Nat) (t : List Byte) :
    Answers (fun p => (∀ e ∈ p.1, e.length = b) ∧ p.1.length = els.length + 8 * n) (decodeGroups b n els t) := by
  induction n generalizing els t with
  | zero => exact answers_ok ⟨hels, rfl⟩
  | succ n ih =>
    refine answers_of_next fun (a, t) =>
      answers_bind (decodeItems_gives hels (bitsOfNat 8 a.toNat) t) fun (els', t) ⟨hels', hlen⟩ => ?_
    have hrest := ih hels' t
    rwa [hlen, bitsOfNat_length, Nat.add_assoc, Nat.add_comm 8, ← Nat.mul_succ] at hrest

end

theorem decodeLz_gives (b : Nat) (t : List Byte) : Gives (256 * b) (decodeLz b t) :=
  answers_bind (decodeGroups_gives (List.forall_mem_nil _) 32 t) fun (els, _) ⟨hels, hlen⟩ => answers_ok <| by
    rw [flatten_length_const hels, hlen]; rfl

/-! Blocks, tail and superblock (45_block_decode R310 to R313). -/

theorem decodeRecord_gives (b : Nat) (f : Byte) (t : List Byte) : Gives (256 * b) (decodeRecord b f t) :=
  answers_ite (fun _ => takeBytes_gives _ _) fun _ => answers_ite (fun _ => decodeLz_gives b _) fun _ =>
    answers_ite (fun _ => answers_error) fun _ => decodePlanes_gives b 16 t

theorem decodeFull_gives (b : Nat) (t : List Byte) : Gives (256 * b) (decodeFull b t) := by
  cases t with
  | nil => exact answers_error
  | cons f rest => exact decodeRecord_gives b f _

theorem decodePartial_gives (b n : Nat) (t : List Byte) : Gives n (decodePartial b n t) := by
  have hwhole : 16 * (n / (16 * b)) * b ≤ n := by rw [Nat.mul_right_comm]; exact Nat.mul_div_le _ _
  refine answers_of_next fun (_, t) =>
    answers_ite (fun _ => answers_error) fun _ => answers_ite (fun _ => takeBytes_gives n t) fun _ =>
      answers_bind (decodePlanes_gives b _ t) fun (blk, t) hblk =>
        answers_bind (takeBytes_gives _ t) fun (residual, _) hresidual => answers_ok ?_
  rw [List.length_append, hblk, hresidual]
  exact Nat.add_sub_of_le hwhole

theorem decodeTail_gives (b n : Nat) (t : List Byte) : Gives n (decodeTail b n t) :=
  answers_ite (fun hn => answers_ok hn.symm) fun _ => decodePartial_gives b n t

theorem decodeFulls_gives {full : List Byte → Except Err (List Byte × List Byte)} {m : Nat}
    (hfull : ∀ t, Gives m (full t)) (f : Nat) (t : List Byte) : Gives (f * m) (decodeFulls full f t) := by
  induction f generalizing t with
  | zero => exact answers_ok (Nat.zero_mul m).symm
  | succ f ih =>
    refine answers_bind (hfull t) fun (blk, t) hblk => answers_bind (ih t) fun (blks, _) hblks => answers_ok ?_
    rw [List.length_append, hblk, hblks, Nat.succ_mul, Nat.add_comm]

/-- A superblock that decodes has the bytes asked for (45_block_decode R310). -/
theorem decodeSuperblock_length (b n : Nat) (t : List Byte) :
    Answers (fun out => out.length = n) (decodeSuperblock b n t) := by
  refine answers_bind (decodeFulls_gives (decodeFull_gives b) _ t) fun (blks, t) hblks =>
    answers_bind (decodeTail_gives b _ t) fun (tail, t) htail =>
      answers_ite (fun _ => answers_ok ?_) fun _ => answers_error
  rw [List.length_append, hblks, htail]
  exact Nat.div_add_mod' _ _

end Sys2Proof.Machine
end

