-- ==== Sys2Proof/Proofs/FrontToBack.lean ====
section
/-! PROOFS. Every reader of the decoder reads front to back (45_block_decode R317): what it answers depends only on the bytes
it takes, and any stream that ends within them is SrcOverflow. So a superblock that decodes takes its stream exactly, no byte
left over and none missing (45_block_decode R318). -/

namespace Sys2Proof.Machine

open Sys2Proof

/-! Readers that read front to back. -/

/-- The reader `rd` is SrcOverflow on every stream that ends within the bytes `bs`. -/
def OverflowsWithin {α : Type} (rd : List Byte → Except Err (α × List Byte)) (bs : List Byte) : Prop :=
  ∀ cut more, bs = cut ++ more → more ≠ [] → rd cut = .error .srcOverflow

/-- Where the reader `rd` answers, it has taken bytes that read back as its answer and that it needs all of. -/
def FrontToBack {α : Type} (rd : List Byte → Except Err (α × List Byte)) : Prop :=
  ∀ t v rest, rd t = .ok (v, rest) → ∃ bs, t = bs ++ rest ∧ ReadsBack rd bs v ∧ OverflowsWithin rd bs

/-- A reader after a reader overflows within the bytes of the first or within those of the second. -/
theorem OverflowsWithin.bind {α β : Type} {rd : List Byte → Except Err (α × List Byte)}
    {k : α × List Byte → Except Err (β × List Byte)} {bs cs : List Byte} {v : α} (h : ReadsBack rd bs v)
    (hrd : OverflowsWithin rd bs) (hk : OverflowsWithin (fun t => k (v, t)) cs) :
    OverflowsWithin (fun t => rd t >>= k) (bs ++ cs) := by
  intro cut more hcut hmore
  show rd cut >>= k = _
  rcases List.append_eq_append_iff.mp hcut with ⟨cut', rfl, hcs⟩ | ⟨more', hbs, hmore'⟩
  · rw [h cut']
    exact hk cut' more hcs hmore
  · by_cases hnil : more' = []
    · subst hnil
      rw [List.append_nil] at hbs
      rw [← hbs, ← List.append_nil bs, h []]
      exact hk [] more hmore'.symm hmore
    · rw [hrd cut more' hbs hnil]; rfl

theorem frontToBack_ok {α : Type} {v : α} : FrontToBack (fun t => .ok (v, t)) := by
  rintro t v' rest h
  cases h
  exact ⟨[], rfl, fun _ => rfl, fun cut more hcut hmore => absurd (List.append_eq_nil_iff.mp hcut.symm).2 hmore⟩

theorem frontToBack_error {α : Type} {e : Err} : FrontToBack (α := α) (fun _ => .error e) := fun _ _ _ h => nomatch h

theorem frontToBack_bind {α β : Type} {rd : List Byte → Except Err (α × List Byte)}
    {k : α × List Byte → Except Err (β × List Byte)} (hrd : FrontToBack rd)
    (hk : ∀ v, FrontToBack (fun t => k (v, t))) : FrontToBack (fun t => rd t >>= k) := by
  intro t w rest h
  change rd t >>= k = _ at h
  cases hfirst : rd t with
  | error e => rw [hfirst] at h; nomatch h
  | ok p =>
    obtain ⟨v, r⟩ := p
    rw [hfirst] at h
    obtain ⟨bs, rfl, hbs, hbsCut⟩ := hrd t v r hfirst
    obtain ⟨cs, rfl, hcs, hcsCut⟩ := hk v r w rest h
    exact ⟨bs ++ cs, (List.append_assoc bs cs rest).symm, hbs.bind hcs, hbsCut.bind hbs hcsCut⟩

/-- A check that takes no bytes. -/
theorem frontToBack_check {α β : Type} (x : Except Err α) {k : α → List Byte → Except Err (β × List Byte)}
    (hk : ∀ v, FrontToBack (k v)) : FrontToBack (fun t => x >>= fun v => k v t) := by
  cases x with
  | error e => exact frontToBack_error
  | ok v => exact hk v

theorem frontToBack_ite {α : Type} (c : Prop) [Decidable c] {f g : List Byte → Except Err (α × List Byte)}
    (hf : c → FrontToBack f) (hg : ¬ c → FrontToBack g) : FrontToBack (fun t => if c then f t else g t) := by
  by_cases hc : c
  · simpa only [if_pos hc] using hf hc
  · simpa only [if_neg hc] using hg hc

theorem frontToBack_takeBytes (k : Nat) : FrontToBack (takeBytes k) := by
  intro t v rest h
  rcases takeBytes_inversion k t with ⟨_, _, htake, hsplit, hlen⟩ | ⟨_, htake⟩
  · rw [htake] at h
    cases h
    refine ⟨v, hsplit, readsBack_takeBytes hlen, fun cut more hcut hmore => takeBytes_of_lt ?_⟩
    have hpos := List.length_pos_iff.mpr hmore
    rw [hcut, List.length_append] at hlen
    omega
  · rw [htake] at h; nomatch h

theorem frontToBack_takeU8 : FrontToBack takeU8 := by
  intro t v rest h
  cases t with
  | nil => nomatch h
  | cons b t =>
    cases h
    refine ⟨[v], rfl, readsBack_takeU8 v, fun cut more hcut hmore => ?_⟩
    cases cut with
    | nil => rfl
    | cons c cut => exact absurd (List.append_eq_nil_iff.mp (List.cons.inj hcut).2.symm).2 hmore

theorem frontToBack_takeU16 : FrontToBack takeU16 := frontToBack_bind (frontToBack_takeBytes 2) fun _ => frontToBack_ok

theorem frontToBack_expandRuns (p : Byte) (bits : List Bool) : FrontToBack (expandRuns p bits) := by
  induction bits generalizing p with
  | nil => exact frontToBack_ok
  | cons bit bits ih =>
    cases bit with
    | true => exact frontToBack_bind (ih p) fun _ => frontToBack_ok
    | false => exact frontToBack_bind frontToBack_takeU8 fun x => frontToBack_bind (ih x) fun _ => frontToBack_ok

/-! Rows and planes. -/

theorem frontToBack_decodeRow (h : RowHeader) (min p pd : Byte) : FrontToBack (decodeRow h min p pd) := by
  cases h with
  | literal b | delta b => exact frontToBack_bind (frontToBack_takeBytes _) fun _ => frontToBack_ok
  | raw => exact frontToBack_takeBytes _
  | runLength => exact frontToBack_bind frontToBack_takeU16 fun _ => frontToBack_expandRuns _ _
  | deltaRunLength =>
    exact frontToBack_bind frontToBack_takeU16 fun _ => frontToBack_bind (frontToBack_expandRuns _ _) fun _ =>
      frontToBack_ok

theorem frontToBack_decodeRows (p pd : Byte) (hs : List RowHeader) (mins : List Byte) :
    FrontToBack (decodeRows p pd hs mins) := by
  induction hs generalizing p pd mins with
  | nil => exact frontToBack_ok
  | cons h hs ih =>
    exact frontToBack_bind (frontToBack_decodeRow h _ p pd) fun _ => frontToBack_bind (ih _ _ _) fun _ =>
      frontToBack_ok

theorem frontToBack_decodeMins (k : Nat) : FrontToBack (decodeMins k) :=
  frontToBack_bind frontToBack_takeU16 fun mm =>
    frontToBack_ite (mm / 2 ^ k ≠ 0) (fun _ => frontToBack_error) fun _ => frontToBack_expandRuns _ _

theorem frontToBack_takeHeaders (r : Nat) : FrontToBack (takeHeaders r) :=
  frontToBack_bind (frontToBack_takeBytes _) fun bs => frontToBack_check (unpadded r bs) fun codes =>
    frontToBack_check (allCodes rowHeaderOf codes) fun _ => frontToBack_ok

theorem frontToBack_decodeCoded (r : Nat) {mins : Nat → List Byte → Except Err (List Byte × List Byte)}
    (hmins : ∀ k, FrontToBack (mins k)) : FrontToBack (decodeCoded r mins) :=
  frontToBack_bind (frontToBack_takeHeaders r) fun _ => frontToBack_bind (hmins _) fun _ =>
    frontToBack_decodeRows _ _ _ _

theorem frontToBack_decodePlane (r : Nat) (kind : Kind) : FrontToBack (decodePlane r kind) := by
  cases kind with
  | allSame => exact frontToBack_bind frontToBack_takeU8 fun _ => frontToBack_ok
  | allRaw => exact frontToBack_takeBytes _
  | normal => exact frontToBack_decodeCoded r frontToBack_takeBytes
  | normalRle => exact frontToBack_decodeCoded r frontToBack_decodeMins

theorem frontToBack_decodePlaneList (r : Nat) (kinds : List Kind) : FrontToBack (decodePlaneList r kinds) := by
  induction kinds with
  | nil => exact frontToBack_ok
  | cons k ks ih =>
    exact frontToBack_bind (frontToBack_decodePlane r k) fun _ => frontToBack_bind ih fun _ => frontToBack_ok

theorem frontToBack_decodePlanes (b r : Nat) : FrontToBack (decodePlanes b r) :=
  frontToBack_bind (frontToBack_takeBytes _) fun bs => frontToBack_check (unpadded b bs) fun codes =>
    frontToBack_check (allCodes kindOf codes) fun kinds =>
      frontToBack_bind (frontToBack_decodePlaneList r kinds) fun _ => frontToBack_ok

/-! An LZ_BLOCK record. -/

theorem frontToBack_takeOffset : FrontToBack takeOffset :=
  frontToBack_bind frontToBack_takeU8 fun b0 => frontToBack_ite (b0.toNat < 128) (fun _ => frontToBack_ok) fun _ =>
    frontToBack_bind frontToBack_takeU8 fun _ => frontToBack_ok

theorem frontToBack_decodeElement (b : Nat) (els : List (List Byte)) (isRef : Bool) :
    FrontToBack (decodeElement b els isRef) := by
  cases isRef with
  | false => exact frontToBack_takeBytes b
  | true =>
    exact frontToBack_bind frontToBack_takeOffset fun off =>
      frontToBack_ite (off < 1 ∨ els.length < off) (fun _ => frontToBack_error) fun _ => frontToBack_ok

theorem frontToBack_decodeItems (b : Nat) (bits : List Bool) (els : List (List Byte)) :
    FrontToBack (decodeItems b bits els) := by
  induction bits generalizing els with
  | nil => exact frontToBack_ok
  | cons bit bits ih => exact frontToBack_bind (frontToBack_decodeElement b els bit) fun _ => ih _

theorem frontToBack_decodeGroups (b n : Nat) (els : List (List Byte)) : FrontToBack (decodeGroups b n els) := by
  induction n generalizing els with
  | zero => exact frontToBack_ok
  | succ n ih =>
    exact frontToBack_bind frontToBack_takeU8 fun _ => frontToBack_bind (frontToBack_decodeItems b _ els) fun _ => ih _

theorem frontToBack_decodeLz (b : Nat) : FrontToBack (decodeLz b) :=
  frontToBack_bind (frontToBack_decodeGroups b 32 []) fun _ => frontToBack_ok

/-! Blocks, tail and superblock. -/

/-- A reader that looks at the first byte: under each, it is a reader that takes that byte. -/
theorem frontToBack_look {α : Type} {rd : List Byte → Except Err (α × List Byte)} (hnil : rd [] = .error .srcOverflow)
    (hcons : ∀ f, ∃ under : List Byte → Except Err (α × List Byte),
      (∀ rest, rd (f :: rest) = under (f :: rest)) ∧ under [] = .error .srcOverflow ∧ FrontToBack under) :
    FrontToBack rd := by
  intro t v rest h
  cases t with
  | nil => rw [hnil] at h; nomatch h
  | cons f t =>
    obtain ⟨under, hunder, hempty, hfront⟩ := hcons f
    rw [hunder] at h
    obtain ⟨bs, hsplit, hbs, hcut⟩ := hfront (f :: t) v rest h
    cases bs with
    | nil => have hread := hbs []; rw [List.append_nil, hempty] at hread; nomatch hread
    | cons f' bs =>
      obtain ⟨rfl, -⟩ := List.cons.inj hsplit
      refine ⟨f :: bs, hsplit, fun more => (hunder _).trans (hbs more), fun cut more hcs hmore => ?_⟩
      cases cut with
      | nil => exact hnil
      | cons c cut =>
        obtain ⟨rfl, -⟩ := List.cons.inj hcs
        exact (hunder cut).trans (hcut _ more hcs hmore)

/-- A marker is taken, and what it marks is read after it; any other discriminator is the first byte of the kinds
(45_block_decode R312). -/
theorem frontToBack_decodeFull {b : Nat} (hb : 1 ≤ b) : FrontToBack (decodeFull b) := by
  refine frontToBack_look rfl fun f => ?_
  have hmarked {rd : List Byte → Except Err (List Byte × List Byte)} (hrd : FrontToBack rd)
      (h : ∀ rest, decodeFull b (f :: rest) = rd rest) :
      ∃ under : List Byte → Except Err (List Byte × List Byte),
        (∀ rest, decodeFull b (f :: rest) = under (f :: rest)) ∧ under [] = .error .srcOverflow ∧ FrontToBack under :=
    ⟨fun t => takeU8 t >>= fun p => rd p.2, h, rfl, frontToBack_bind frontToBack_takeU8 fun _ => hrd⟩
  by_cases hcopy : f = copyMarker
  · exact hmarked (frontToBack_takeBytes (256 * b)) fun _ => if_pos hcopy
  by_cases hlz : f = lzMarker
  · exact hmarked (frontToBack_decodeLz b) fun _ => (if_neg hcopy).trans (if_pos hlz)
  by_cases hpartial : f = partialMarker
  · exact hmarked (frontToBack_error (e := .invalidInput)) fun _ =>
      (if_neg hcopy).trans ((if_neg hlz).trans (if_pos hpartial))
  · refine ⟨decodePlanes b 16, fun _ => (if_neg hcopy).trans ((if_neg hlz).trans (if_neg hpartial)), ?_,
      frontToBack_decodePlanes b 16⟩
    rw [decodePlanes, takeBytes_of_lt (by rw [List.length_nil]; omega)]
    rfl

theorem frontToBack_decodePartial (b n : Nat) : FrontToBack (decodePartial b n) :=
  frontToBack_bind frontToBack_takeU8 fun f =>
    frontToBack_ite (f ≠ partialMarker) (fun _ => frontToBack_error) fun _ =>
      frontToBack_ite (n / (16 * b) = 0) (fun _ => frontToBack_takeBytes n) fun _ =>
        frontToBack_bind (frontToBack_decodePlanes b _) fun _ => frontToBack_bind (frontToBack_takeBytes _) fun _ =>
          frontToBack_ok

theorem frontToBack_decodeFulls {full : List Byte → Except Err (List Byte × List Byte)} (hfull : FrontToBack full)
    (f : Nat) : FrontToBack (decodeFulls full f) := by
  induction f with
  | zero => exact frontToBack_ok
  | succ f ih => exact frontToBack_bind hfull fun _ => frontToBack_bind ih fun _ => frontToBack_ok

theorem frontToBack_decodeTail (b n : Nat) : FrontToBack (decodeTail b n) :=
  frontToBack_ite (n = 0) (fun _ => frontToBack_ok) fun _ => frontToBack_decodePartial b n

/-- The blocks and the tail of a superblock, read before it is asked whether bytes are left over (45_block_decode R310,
R318). -/
def decodeBlocks (b n : Nat) (t : List Byte) : Except Err (List Byte × List Byte) := do
  let (blks, t) ← decodeFulls (decodeFull b) (n / (256 * b)) t
  let (tail, t) ← decodeTail b (n % (256 * b)) t
  .ok (blks ++ tail, t)

theorem decodeSuperblock_eq_bind (b n : Nat) (t : List Byte) :
    decodeSuperblock b n t =
      decodeBlocks b n t >>= fun p => if p.2.isEmpty then .ok p.1 else .error .invalidInput := by
  simp only [decodeSuperblock, decodeWith, decodeBlocks, Config.blockElems, bind_assoc]
  rfl

theorem frontToBack_decodeBlocks {b : Nat} (hb : 1 ≤ b) (n : Nat) : FrontToBack (decodeBlocks b n) :=
  frontToBack_bind (frontToBack_decodeFulls (frontToBack_decodeFull hb) _) fun _ =>
    frontToBack_bind (frontToBack_decodeTail b _) fun _ => frontToBack_ok

/-- A superblock that decodes needs all of its stream and takes no byte after it (45_block_decode R318). -/
theorem decodeBlocks_takes_stream {b n : Nat} {stream out : List Byte} (hb : 1 ≤ b)
    (h : decodeSuperblock b n stream = .ok out) :
    ReadsBack (decodeBlocks b n) stream out ∧ OverflowsWithin (decodeBlocks b n) stream := by
  rw [decodeSuperblock_eq_bind] at h
  cases hblocks : decodeBlocks b n stream with
  | error e => rw [hblocks] at h; nomatch h
  | ok p =>
    obtain ⟨v, rest⟩ := p
    rw [hblocks] at h
    cases rest with
    | cons c rest => nomatch h
    | nil =>
      cases h
      obtain ⟨bs, rfl, htakes⟩ := frontToBack_decodeBlocks hb n stream _ [] hblocks
      rwa [List.append_nil]

/-- Settles O58: a superblock has the bytes asked for, and what follows the stream it takes is left over. -/
theorem decodingConsumesExactly : Obligations.DecodingConsumesExactly := by
  intro b n stream out hb h
  obtain ⟨hreads, -⟩ := decodeBlocks_takes_stream hb h
  refine ⟨decodeSuperblock_length b n stream out h, fun extra hextra => ?_⟩
  rw [decodeSuperblock_eq_bind, hreads extra]
  exact if_neg (mt List.isEmpty_iff.mp hextra)

/-- Settles O59: the stream that a superblock takes is needed whole. -/
theorem truncatedStreamOverflows : Obligations.TruncatedStreamOverflows := by
  intro b n k stream out hb h hk
  obtain ⟨-, hoverflows⟩ := decodeBlocks_takes_stream hb h
  have hcut := hoverflows (stream.take k) (stream.drop k) (List.take_append_drop k stream).symm
    (mt List.drop_eq_nil_iff.mp hk.not_ge)
  rw [decodeSuperblock_eq_bind, hcut]
  rfl

end Sys2Proof.Machine
end

