-- ==== Sys2Proof/Proofs/StreamDefects.lean ====
section
/-! PROOFS. The defects of a stream that are InvalidInput (45_block_decode R317): of codes in nibbles, of a full block, of a
tail, of a plane's headers and min mask, and of a back-reference. -/

namespace Sys2Proof.Machine

open Sys2Proof

/-! Codes in nibbles (43_block_format R214, R216, R222, R223). -/

/-- What follows the nibbles of `n` codes has their meanings where each has one and the padding is 0; otherwise the stream is
InvalidInput. -/
theorem codes_bind_eq {α β : Type} {f : Nat → Option α} (k : List α → Except Err β) {n : Nat} {bs : List Byte}
    (h : bs.length = (n + 1) / 2) :
    (unpadded n bs >>= fun codes => allCodes f codes >>= k) =
      if (∀ i < n, (f (nibbleAt bs i)).isSome) ∧ (n % 2 = 1 → nibbleAt bs n = 0) then
        k (((List.range n).map (nibbleAt bs)).filterMap f)
      else .error .invalidInput := by
  have hcodes : (∀ c ∈ (List.range n).map (nibbleAt bs), (f c).isSome) ↔ ∀ i < n, (f (nibbleAt bs i)).isSome := by
    simp only [List.forall_mem_map, List.mem_range]
  rw [unpadded_eq h]
  by_cases hpad : n % 2 = 1 ∧ nibbleAt bs n ≠ 0
  · rw [if_pos hpad, if_neg fun hsound => hpad.2 (hsound.2 hpad.1)]
    rfl
  · rw [if_neg hpad]
    show allCodes f ((List.range n).map (nibbleAt bs)) >>= k = _
    have hzero : n % 2 = 1 → nibbleAt bs n = 0 := fun hodd => not_not.mp fun hne => hpad ⟨hodd, hne⟩
    rw [allCodes_eq, if_congr hcodes rfl rfl, if_congr (and_iff_left hzero) rfl rfl]
    split_ifs <;> rfl

theorem kindOf_isSome_iff (c : Nat) : (kindOf c).isSome ↔ c ≤ 3 := by
  match c with
  | 0 | 1 | 2 | 3 => simp [kindOf]
  | c + 4 => simp [kindOf]

theorem rowHeaderOf_isSome_iff {c : Nat} (h : c < 16) : (rowHeaderOf c).isSome ↔ c ≠ 14 := by
  unfold rowHeaderOf
  split_ifs <;> simp <;> omega

/-- A header uses a min exactly when its code is one of a bit-packed row (43_block_format R214). -/
theorem rowHeaderOf_usesMin (c : Nat) :
    ((rowHeaderOf c).map RowHeader.usesMin).getD false = (decide (c ≤ 5) || (decide (8 ≤ c) && decide (c ≤ 13))) := by
  unfold rowHeaderOf
  split_ifs <;> simp [RowHeader.usesMin] <;> omega

section
variable {r : Nat} {hdr : List Byte} (hlen : hdr.length = (r + 1) / 2)
include hlen

theorem takeHeaders_eq (rest : List Byte) :
    takeHeaders r (hdr ++ rest) =
      if (∀ k < r, (rowHeaderOf (nibbleAt hdr k)).isSome) ∧ (r % 2 = 1 → nibbleAt hdr r = 0) then
        .ok (((List.range r).map (nibbleAt hdr)).filterMap rowHeaderOf, rest)
      else .error .invalidInput := by
  rw [takeHeaders, ← hlen, takeBytes_append]
  exact codes_bind_eq (fun hs => .ok (hs, rest)) hlen

/-- The headers of a plane that are sound use as many mins as their nibbles say (43_block_format R219). -/
theorem takeHeaders_of_sound (h : headersSound r hdr) (rest : List Byte) :
    ∃ hs, takeHeaders r (hdr ++ rest) = .ok (hs, rest) ∧ hs.countP RowHeader.usesMin = minCount r hdr := by
  obtain ⟨hcodes, hpad⟩ := h
  have hsome : ∀ k < r, (rowHeaderOf (nibbleAt hdr k)).isSome := fun k hk =>
    (rowHeaderOf_isSome_iff (nibbleAt_lt hdr k)).mpr (hcodes k hk)
  refine ⟨_, (takeHeaders_eq hlen rest).trans (if_pos ⟨hsome, hpad⟩), ?_⟩
  rw [List.countP_filterMap, List.countP_map, minCount]
  exact congrArg (List.countP · (List.range r)) (funext fun k => rowHeaderOf_usesMin (nibbleAt hdr k))

theorem takeHeaders_of_not_sound (h : ¬ headersSound r hdr) (rest : List Byte) :
    takeHeaders r (hdr ++ rest) = .error .invalidInput := by
  refine (takeHeaders_eq hlen rest).trans (if_neg fun ⟨hcodes, hpad⟩ => h ⟨fun k hk => ?_, hpad⟩)
  exact (rowHeaderOf_isSome_iff (nibbleAt_lt hdr k)).mp (hcodes k hk)

/-- A plane with a defect in its header bytes, whatever reads its mins (43_block_format R214, R222). -/
theorem decodeCoded_of_not_sound (mins : Nat → List Byte → Except Err (List Byte × List Byte))
    (h : ¬ headersSound r hdr) (rest : List Byte) : decodeCoded r mins (hdr ++ rest) = .error .invalidInput := by
  rw [decodeCoded, takeHeaders_of_not_sound hlen h]
  rfl

end

theorem decodePlane_of_not_sound {r : Nat} {kind : Kind} {hdr : List Byte} (hkind : kind ∈ [Kind.normal, .normalRle])
    (hlen : hdr.length = (r + 1) / 2) (h : ¬ headersSound r hdr) (rest : List Byte) :
    decodePlane r kind (hdr ++ rest) = .error .invalidInput := by
  simp only [List.mem_cons, List.not_mem_nil, or_false] at hkind
  rcases hkind with rfl | rfl <;> exact decodeCoded_of_not_sound hlen _ h rest

/-- A block with a defect in its kinds is refused before any plane is read (43_block_format R216, R223). -/
theorem decodePlanes_of_not_sound {b : Nat} {pre : List Byte} (hlen : pre.length = (b + 1) / 2)
    (h : ¬ prefixSound b pre) (r : Nat) (rest : List Byte) :
    decodePlanes b r (pre ++ rest) = .error .invalidInput := by
  rw [decodePlanes, ← hlen, takeBytes_append]
  refine (codes_bind_eq (f := kindOf) _ hlen).trans (if_neg fun ⟨hcodes, hpad⟩ => h ⟨fun p hp => ?_, hpad⟩)
  exact (kindOf_isSome_iff _).mp (hcodes p hp)

/-- A min-mask bit at or above the count of mins (43_block_format R220). -/
theorem decodeMins_of_mask {k mask : Nat} (hmask : mask < 65536) (h : mask / 2 ^ k ≠ 0) (rest : List Byte) :
    decodeMins k (leBytes 2 mask ++ rest) = .error .invalidInput := by
  rw [decodeMins, takeU16_leBytes mask rest hmask]
  exact if_pos h

theorem decodePlane_normalRle_of_mask {r mask : Nat} {hdr : List Byte} (hlen : hdr.length = (r + 1) / 2)
    (hsound : headersSound r hdr) (hmask : mask < 65536) (h : mask / 2 ^ minCount r hdr ≠ 0) (rest : List Byte) :
    decodePlane r .normalRle (hdr ++ leBytes 2 mask ++ rest) = .error .invalidInput := by
  obtain ⟨hs, hheaders, hcount⟩ := takeHeaders_of_sound hlen hsound (leBytes 2 mask ++ rest)
  rw [List.append_assoc, decodePlane, decodeCoded, hheaders]
  show decodeMins (hs.countP RowHeader.usesMin) _ >>= _ = _
  rw [hcount, decodeMins_of_mask hmask h]
  rfl

/-! A back-reference (43_block_format R228; 45_block_decode R316). -/

theorem takeOffset_cons_cons (b0 b1 : Byte) (rest : List Byte) :
    takeOffset (b0 :: b1 :: rest) = if b0.toNat < 128 then .ok (b0.toNat, b1 :: rest)
      else .ok (b0.toNat % 128 + 128 * b1.toNat, rest) := rfl

theorem decodeElement_of_offset {b off : Nat} {els : List (List Byte)} {t rest : List Byte}
    (htake : takeOffset t = .ok (off, rest)) (h : off = 0 ∨ els.length < off) :
    decodeElement b els true t = .error .invalidInput := by
  rw [decodeElement, if_pos rfl, htake]
  exact if_pos (h.imp_left Nat.lt_one_iff.mpr)

theorem decodeElement_of_defect {b : Nat} {els : List (List Byte)} {b0 b1 : Byte}
    (h : if b0.toNat < 128 then b0.toNat = 0 ∨ els.length < b0.toNat
      else b0.toNat % 128 + 128 * b1.toNat = 0 ∨ els.length < b0.toNat % 128 + 128 * b1.toNat) (rest : List Byte) :
    decodeElement b els true (b0 :: b1 :: rest) = .error .invalidInput := by
  have htake := takeOffset_cons_cons b0 b1 rest
  split_ifs at h htake <;> exact decodeElement_of_offset htake h

/-- The first item of a record has no element before it to refer to. -/
theorem decodeElement_nil (b : Nat) (b0 b1 : Byte) (rest : List Byte) :
    decodeElement b [] true (b0 :: b1 :: rest) = .error .invalidInput := by
  refine decodeElement_of_defect ?_ rest
  split_ifs <;> exact Nat.eq_zero_or_pos _

theorem decodeLz_of_first_reference {b : Nat} {anchor : Byte} (h : anchor.toNat % 2 = 1) (b0 b1 : Byte)
    (rest : List Byte) : decodeLz b (anchor :: b0 :: b1 :: rest) = .error .invalidInput := by
  have hbits : bitsOfNat 8 anchor.toNat = true :: bitsOfNat 7 (anchor.toNat / 2) := by simp [bitsOfNat, h]
  rw [decodeLz, decodeGroups, takeU8_cons]
  show (decodeItems b (bitsOfNat 8 anchor.toNat) [] (b0 :: b1 :: rest) >>= _) >>= _ = _
  rw [hbits, decodeItems, decodeElement_nil]
  rfl

/-! Blocks, tail and superblock. -/

theorem decodeFull_partialMarker (b : Nat) (rest : List Byte) :
    decodeFull b (partialMarker :: rest) = .error .invalidInput := rfl

theorem decodeFull_lzMarker (b : Nat) (rest : List Byte) : decodeFull b (lzMarker :: rest) = decodeLz b rest := rfl

theorem decodeFull_of_not_marker {b : Nat} {f : Byte} (h : f.toNat ∉ [252, 253, 254]) (rest : List Byte) :
    decodeFull b (f :: rest) = decodePlanes b 16 (f :: rest) := by
  have hne {m : Byte} (hm : m.toNat ∈ [252, 253, 254]) : f ≠ m := by rintro rfl; exact h hm
  exact (if_neg (hne (m := copyMarker) (by decide))).trans
    ((if_neg (hne (m := lzMarker) (by decide))).trans (if_neg (hne (m := partialMarker) (by decide))))

theorem decodePartial_of_ne_marker {b n : Nat} {f : Byte} (h : f ≠ partialMarker) (rest : List Byte) :
    decodePartial b n (f :: rest) = .error .invalidInput := if_pos h

/-- A superblock fails with the defect of its first full block. -/
theorem decodeSuperblock_of_full_error {b n : Nat} {t : List Byte} {e : Err} (hb : 1 ≤ b) (hn : 256 * b ≤ n)
    (h : decodeFull b t = .error e) : decodeSuperblock b n t = .error e := by
  obtain ⟨f, hf⟩ := Nat.exists_eq_succ_of_ne_zero (Nat.div_pos hn (by omega)).ne'
  rw [decodeSuperblock, decodeWith, Config.blockElems, hf, decodeFulls, h]
  rfl

/-- A superblock without a full block fails with the defect of its tail. -/
theorem decodeSuperblock_of_tail_error {b n : Nat} {t : List Byte} {e : Err} (hpos : 0 < n) (hn : n < 256 * b)
    (h : decodePartial b n t = .error e) : decodeSuperblock b n t = .error e := by
  have htail : decodeTail b n t = .error e := (if_neg hpos.ne').trans h
  rw [decodeSuperblock, decodeWith, Config.blockElems, Nat.div_eq_of_lt hn, Nat.mod_eq_of_lt hn]
  show decodeTail b n t >>= _ = _
  rw [htail]
  rfl

theorem decodeFull_of_not_sound {b : Nat} {pre : List Byte} (hb : 1 ≤ b) (hlen : pre.length = (b + 1) / 2)
    (hmarker : (pre.getD 0 0).toNat ∉ [252, 253, 254]) (h : ¬ prefixSound b pre) (rest : List Byte) :
    decodeFull b (pre ++ rest) = .error .invalidInput := by
  cases pre with
  | nil => rw [List.length_nil] at hlen; omega
  | cons f pre => exact (decodeFull_of_not_marker hmarker _).trans (decodePlanes_of_not_sound hlen h 16 rest)

theorem decodePartial_of_not_sound {b n : Nat} {pre : List Byte} (hb : 1 ≤ b) (hn : 16 * b ≤ n)
    (hlen : pre.length = (b + 1) / 2) (h : ¬ prefixSound b pre) (rest : List Byte) :
    decodePartial b n (partialMarker :: (pre ++ rest)) = .error .invalidInput := by
  rw [decodePartial_marker, if_neg (Nat.div_pos hn (by omega)).ne', decodePlanes_of_not_sound hlen h]
  rfl

/-- Settles O60: each defect is met where its field is read, and the superblock fails with it. -/
theorem decoderRefusesDefects : Obligations.DecoderRefusesDefects := by
  refine ⟨fun b n rest hb hn => ?fullMarker, fun b n f rest hpos hn hf => ?tailMarker,
    fun b n pre rest hb hn hlen hmarker h => ?fullPrefix, fun b n pre rest hb hn hlt hlen h => ?tailPrefix,
    fun r kind hdr rest hkind hlen h => ?headers, fun r mask hdr rest hlen hsound hmask h => ?minMask,
    fun b els b0 b1 rest h => ?offset, fun b n anchor b0 b1 rest hb hn h => ?firstOffset⟩
  case fullMarker => exact decodeSuperblock_of_full_error hb hn (decodeFull_partialMarker b rest)
  case tailMarker => exact decodeSuperblock_of_tail_error hpos hn (decodePartial_of_ne_marker hf rest)
  case fullPrefix => exact decodeSuperblock_of_full_error hb hn (decodeFull_of_not_sound hb hlen hmarker h rest)
  case tailPrefix =>
    exact decodeSuperblock_of_tail_error (by omega) hlt (decodePartial_of_not_sound hb hn hlen h rest)
  case headers => exact decodePlane_of_not_sound hkind hlen h rest
  case minMask => exact decodePlane_normalRle_of_mask hlen hsound hmask h rest
  case offset => exact decodeElement_of_defect h rest
  case firstOffset =>
    exact decodeSuperblock_of_full_error hb hn
      ((decodeFull_lzMarker b _).trans (decodeLz_of_first_reference h b0 b1 rest))

end Sys2Proof.Machine
end

