-- ==== Sys2Proof/Proofs/BlkDec.lean ====
section
/-! PROOFS. BLK_DEC (45_block_decode R310 to R320): without a race it writes what its stream decodes to, or ends in the
stream's defect; and on what BLK_ENC wrote it gives back the source. -/

namespace Sys2Proof.Machine

open Sys2Proof

theorem validateByR123_blkDec {bpp : Nat} {s : State} :
    validateByR123 (.blkDec bpp) s = none ↔
      bpp ≠ 0 ∧ s.latch.len.toNat < 2 ^ 24 ∧ s.latch.olen.toNat < 2 ^ 24 ∧ s.windowsOk ∧
        s.latch.olen.toNat ≤ s.latch.cap.toNat :=
  validate_ok_iff.symm.trans validateBlkDec_ok

/-- The capacity that the checks ask for holds what a stream decodes to. -/
theorem blkDec_producesOutput {bpp : Nat} {s : State} {out : List Byte} (hv : validateByR123 (.blkDec bpp) s = none)
    (hs : s.hazardFree) (hout : decodeSuperblock bpp s.latch.olen.toNat s.source = .ok out) :
    producesOutput (.blkDec bpp) s out := by
  obtain ⟨_, _, _, _, hcap⟩ := validateByR123_blkDec.mp hv
  exact producesOutput_of_performOn hv hs hout ((decodeSuperblock_length _ _ _ out hout).trans_le hcap)

/-- Settles O13: the completion delivers what the stream decodes to, which has OLEN bytes. -/
theorem blkDecWritesDecoding : Obligations.BlkDecWritesDecoding := by
  intro bpp s out hbpp hlen holen hwindows hcap hs hout
  have hv := validateByR123_blkDec.mpr ⟨Nat.one_le_iff_ne_zero.mp hbpp, hlen, holen, hwindows, hcap⟩
  have hproduced := blkDec_producesOutput hv hs hout
  rwa [producesOutput, decodeSuperblock_length _ _ _ out hout] at hproduced

/-- On operands that every check accepts, a command whose performing fails ends in that error (40_control R127). -/
theorem endedInError_of_performOn_error {i : Instr} {s : State} {e : Err} (hv : validateByR123 i s = none)
    (hs : s.settled) (he : performOn i s.latch.olen.toNat s.source = .error e) :
    ∃ t, exec i s = .next t ∧ endedInError s t e := by
  obtain ⟨w, heq⟩ := exec_of_valid hv
  rw [perform_of_settled hs hv, he] at heq
  exact ⟨_, heq, State.completeError_endedInError { s with work := w } e⟩

/-- Settles O14: the readers fail with no other error, and the command completes with theirs. -/
theorem blkDecStreamDefect : Obligations.BlkDecStreamDefect := by
  intro bpp s e hbpp hlen holen hwindows hcap hs he
  have hv := validateByR123_blkDec.mpr ⟨Nat.one_le_iff_ne_zero.mp hbpp, hlen, holen, hwindows, hcap⟩
  exact ⟨decodeWith_errors _ bpp _ _ (decodeFull_errors bpp) e he, endedInError_of_performOn_error hv hs.1 he⟩

/-- Where BLK_ENC succeeds, its output is the encoding: it did not overflow. -/
theorem blkEnc_producesOutput {lzEn : Bool} {bpp : Nat} {s t : State} (hv : validateByR123 (.blkEnc lzEn bpp) s = none)
    (hs : s.hazardFree) (hexec : exec (.blkEnc lzEn bpp) s = .next t) (hok : t.status.errcode = 0) :
    producesOutput (.blkEnc lzEn bpp) s (encodeSuperblock lzEn bpp s.source) := by
  rcases Nat.lt_or_ge s.latch.cap.toNat (encodeSuperblock lzEn bpp s.source).length with hlt | hle
  · obtain ⟨u, hu, hcode, _⟩ := endedInError_of_performOn hv hs.1 rfl hlt
    obtain rfl : u = t := by rw [hu] at hexec; injection hexec
    exact absurd (hcode.symm.trans hok) (Err.code_ne_zero .dstOverflow)
  · exact producesOutput_of_performOn hv hs rfl hle

/-- Settles O17: BLK_DEC's source is the encoding, which decodes to BLK_ENC's source. -/
theorem blockCommandsRoundTrip : Obligations.BlockCommandsRoundTrip := by
  intro lzEn bpp s t s' _ hs hfeeds hv hexec hok holen hv'
  obtain ⟨hbpp, _, _⟩ := validateByR123_blkEnc.mp hv
  have hdecodes := decodeSuperblock_encodeSuperblock lzEn (Nat.one_le_iff_ne_zero.mpr hbpp) s.source
  rw [s.source_length, ← holen, ← source_of_outputFeeds (blkEnc_producesOutput hv hs hexec hok) hexec hfeeds] at hdecodes
  exact blkDec_producesOutput hv' hfeeds.1 hdecodes

end Sys2Proof.Machine
end

