-- ==== Sys2Proof/Proofs/Interrupt.lean ====
section
/-! PROOFS. The interrupt: what each event leaves on the output pin IRQ (10_state R39, 60_exceptions R360, R361). -/

namespace Sys2Proof.Machine

open Sys2Proof

theorem State.irq_eq_true_iff (s : State) : s.irq = true ↔ s.ie = true ∧ s.status.done = true := Bool.and_eq_true_iff

/-- A completion sets DONE, so IRQ is then IE (40_control R125). -/
theorem engineTurn_irq {s t : State} (h : engineTurn s = .next t) :
    t.irq = s.irq ∨ (s.status.busy = true ∧ t.irq = s.ie) := by
  unfold engineTurn at h
  split at h
  · rename_i hbusy
    obtain ⟨u, hu, ⟨_, hdone, _, hie, _⟩, _⟩ := engineStepCompletes.1 s
    obtain rfl : u = t := by rw [hu] at h; injection h
    exact .inr ⟨hbusy, by rw [State.irq, hdone, hie, Bool.and_true]⟩
  · cases h
    exact .inl rfl

/-- A write of CTRL sets IE, or resets and so clears it; one of STATUS may clear DONE, and a start does. No other register
write changes IRQ. -/
theorem State.writeReg_irq (s : State) (r : Reg) (w : Word) :
    (s.writeReg r w).irq = s.irq ∨
    (r = .ctrl ∧ (s.writeReg r w).irq = (w.getLsbD 0 && !w.getLsbD 1 && s.status.done)) ∨
    (r = .status ∧ (s.writeReg r w).irq = (s.irq && !w.getLsbD 1)) ∨
    (r = .cmd ∧ s.status.busy = false ∧ (s.writeReg r w).irq = false) := by
  rcases s.writeReg_cases r w with
    he | ⟨_, he⟩ | ⟨hr, hsrst, he⟩ | ⟨hr, hsrst, he⟩ | ⟨hr, he⟩ | ⟨_, _, he⟩ | ⟨hr, hidle, he⟩ <;> rw [he]
  case inr.inr.inl => exact .inr (.inl ⟨hr, by rw [hsrst, Bool.not_false, Bool.and_true]; rfl⟩)
  case inr.inr.inr.inl => exact .inr (.inl ⟨hr, by rw [hsrst, Bool.not_true, Bool.and_false, Bool.false_and]; rfl⟩)
  case inr.inr.inr.inr.inl => exact .inr (.inr (.inl ⟨hr, (Bool.and_assoc ..).symm⟩))
  case inr.inr.inr.inr.inr.inr => exact .inr (.inr (.inr ⟨hr, hidle, Bool.and_false _⟩))
  all_goals exact .inl rfl

/-- A store changes IRQ only at CTRL, at STATUS, or at CMD of an idle engine. -/
theorem hostStore_irq {s t : State} {a : Nat} {bs : List Byte} (h : hostStore s a bs = .next t) :
    t.irq = s.irq ∨
    (a = s.platform.mmioBase + 0x04 ∧
      t.irq = ((BitVec.ofNat 32 (leNat bs)).getLsbD 0 && !(BitVec.ofNat 32 (leNat bs)).getLsbD 1 && s.status.done)) ∨
    (a = s.platform.mmioBase + 0x08 ∧ t.irq = (s.irq && !(BitVec.ofNat 32 (leNat bs)).getLsbD 1)) ∨
    (a = s.platform.mmioBase + 0x0C ∧ s.status.busy = false ∧ t.irq = false) := by
  rcases hostStore_inversion s a bs with ⟨hblock, he⟩ | ⟨_, he⟩ | he <;> rw [he] at h <;> cases h
  · rcases s.blockStore_cases (a - s.platform.mmioBase) bs with hb | ⟨_, _, hb⟩ <;> rw [hb]
    · exact .inl rfl
    · rcases s.writeReg_irq (regAt (a - s.platform.mmioBase)) (BitVec.ofNat 32 (leNat bs)) with
        hkeep | ⟨hr, hctrl⟩ | ⟨hr, hstatus⟩ | ⟨hr, hstart⟩
      · exact .inl hkeep
      · exact .inr (.inl ⟨eq_of_regAt hblock (r := .ctrl) nofun hr, hctrl⟩)
      · exact .inr (.inr (.inl ⟨eq_of_regAt hblock (r := .status) nofun hr, hstatus⟩))
      · exact .inr (.inr (.inr ⟨eq_of_regAt hblock (r := .cmd) nofun hr, hstart⟩))
  · obtain ⟨_, _, _, _, _, hf⟩ := State.storeBytes_frame bs s a
    rw [hf]
    exact .inl rfl

theorem hostLoad_irq {s t : State} {coming : List Byte} {a w : Nat} (h : hostLoad s coming a w = .next t) :
    t.irq = s.irq := by
  rcases hostLoad_inversion s coming a w with ⟨_, he⟩ | ⟨_, he⟩ | he <;> rw [he] at h <;> cases h
  all_goals rfl

/-- What a step leaves on IRQ: a completion IE, a store to CTRL or STATUS what its word asks for, a start and a power-on reset
0, and every other step what was there (60_exceptions R361). -/
theorem step_irq {s t : State} (h : step s = .next t) :
    t.irq = s.irq ∨
    (s.status.busy = true ∧ s.engineNext ∧ t.irq = s.ie) ∨
    (∃ bytes rest, s.script = .store (s.platform.mmioBase + 0x04) bytes :: rest ∧
      t.irq = ((BitVec.ofNat 32 (leNat bytes)).getLsbD 0 && !(BitVec.ofNat 32 (leNat bytes)).getLsbD 1 &&
        s.status.done)) ∨
    (∃ bytes rest, s.script = .store (s.platform.mmioBase + 0x08) bytes :: rest ∧
      t.irq = (s.irq && !(BitVec.ofNat 32 (leNat bytes)).getLsbD 1)) ∨
    (s.status.busy = false ∧ t.irq = false ∧
      ∃ bytes rest, s.script = .store (s.platform.mmioBase + 0x0C) bytes :: rest) ∨
    (t.irq = false ∧ ∃ rest, s.script = .powerOn :: rest) := by
  rcases step_inversion s with
    ⟨hs, he⟩ | ⟨rest, hs, he⟩ | ⟨a, w, rest, _, he⟩ | ⟨a, bs, rest, hs, he⟩ | ⟨rest, hs, he⟩
  all_goals rw [he] at h
  · exact (engineTurn_irq h).imp_right fun ⟨hbusy, hirq⟩ => .inl ⟨hbusy, .inl hs, hirq⟩
  · exact (engineTurn_irq h).imp_right fun ⟨hbusy, hirq⟩ => .inl ⟨hbusy, .inr (by rw [hs]; rfl), hirq⟩
  · exact .inl (hostLoad_irq (s := { s with script := rest }) h)
  · rcases hostStore_irq h with hkeep | ⟨rfl, hirq⟩ | ⟨rfl, hirq⟩ | ⟨rfl, hidle, hirq⟩
    · exact .inl hkeep
    · exact .inr (.inr (.inl ⟨bs, rest, hs, hirq⟩))
    · exact .inr (.inr (.inr (.inl ⟨bs, rest, hs, hirq⟩)))
    · exact .inr (.inr (.inr (.inr (.inl ⟨hidle, hirq, bs, rest, hs⟩))))
  · cases h
    exact .inr (.inr (.inr (.inr (.inr ⟨rfl, rest, hs⟩))))

/-- Settles O35, by what the step leaves on IRQ. -/
theorem irqChangesOnlyAtItsEvents : Obligations.IrqChangesOnlyAtItsEvents := by
  intro s t h
  rcases step_irq h with hirq | ⟨hbusy, hnext, hirq⟩ | ⟨bytes, rest, hs, hirq⟩ | ⟨bytes, rest, hs, hirq⟩ |
    ⟨hidle, hirq, hev⟩ | ⟨hirq, hev⟩
  all_goals rw [hirq]
  · exact ⟨fun h0 h1 => absurd (h1.symm.trans h0) nofun, fun h1 h0 => absurd (h1.symm.trans h0) nofun⟩
  · refine ⟨fun _ _ => .inl ⟨hbusy, hnext⟩, fun h1 h0 => ?_⟩
    obtain ⟨hie, _⟩ := s.irq_eq_true_iff.mp h1
    exact absurd (hie.symm.trans h0) nofun
  · refine ⟨fun _ h1 => .inr ⟨bytes, rest, hs, ?_⟩, fun h1 h0 => .inr (.inl ⟨bytes, rest, hs, ?_⟩)⟩
    · simp only [Bool.and_eq_true] at h1
      obtain ⟨⟨hset, _⟩, _⟩ := h1
      exact hset
    · obtain ⟨_, hdone⟩ := s.irq_eq_true_iff.mp h1
      rwa [hdone, Bool.and_true, Bool.and_eq_false_iff, Bool.not_eq_false'] at h0
  · refine ⟨fun h0 h1 => ?_, fun h1 h0 => .inl ⟨bytes, rest, hs, ?_⟩⟩
    · rw [h0] at h1; cases h1
    · simpa [h1] using h0
  · exact ⟨nofun, fun _ _ => .inr (.inr (.inl ⟨hidle, hev⟩))⟩
  · exact ⟨nofun, fun _ _ => .inr (.inr (.inr hev))⟩

end Sys2Proof.Machine
end

