-- ==== Sys2Proof/Proofs/Reset.lean ====
section
/-! PROOFS. Reset (70_reset R390 to R392): the registers after power-on, and what a reset during a command leaves in
memory. -/

namespace Sys2Proof.Machine

open Sys2Proof

/-- Settles O34: every register but ID and CAPS reads a field that is 0. -/
theorem powerOnState : Obligations.PowerOnState := by
  refine ⟨rfl, fun r hid hcaps => ?_, rfl, rfl⟩
  cases r
  case id => exact absurd rfl hid
  case caps => exact absurd rfl hcaps
  all_goals rfl

/-- A reset changes no byte of the source window, not even where the destination window overlaps it (70_reset R392). -/
theorem State.abortedMem_read_source (s : State) {a : Nat} (h : s.inSource a = true) :
    s.abortedMem.read a = s.mem.read a := by
  unfold State.abortedMem
  split
  · rw [Memory.read_writeBytes]
    split
    next hin =>
      obtain ⟨hlo, hhi⟩ := hin
      rw [List.length_map, List.length_range] at hhi
      have hoff : a - s.latch.dst.toNat <
          min (s.latch.dst.toNat + s.latch.cap.toNat) s.platform.memSize - s.latch.dst.toNat := by omega
      have haddr : s.latch.dst.toNat + (a - s.latch.dst.toNat) = a := Nat.add_sub_of_le hlo
      simp [List.getD, hoff, haddr, h]
    next => rfl
  · rfl

theorem State.abortedMem_memoryFrame (s : State) :
    memoryFrame s s.resetEngine s.latch.dst.toNat s.latch.cap.toNat := fun a ha =>
  s.abortedMem_read_outside a <| by
    simp only [State.inDest, Bool.and_eq_false_iff, decide_eq_false_iff_not]
    omega

/-- Settles O33: both resets are `State.resetEngine`, and of memory they change what `State.abortedMem` does. -/
theorem resetAbortsCommand : Obligations.ResetAbortsCommand := fun s rest _ h =>
  ⟨_, step_of_nextResets h, rfl, rfl, State.abortedMem_memoryFrame { s with script := rest },
    fun _ ha => State.abortedMem_read_source { s with script := rest } ha⟩

end Sys2Proof.Machine
end

