-- ==== Sys2Proof/Proofs/DestinationRace.lean ====
section
/-! PROOFS. Races on the destination window, until the completion is observed (20_memory R73; 70_reset R401): what a host's
load sees of a command in flight, and what a command and a host that store to the same byte leave there. -/

namespace Sys2Proof.Machine

open Sys2Proof

/-! What a command completes with reads neither the host's stores into its destination window nor what the host loads. -/

/-- The outcome of the command in flight: of its checks and of what it performs, or that of an illegal word. -/
def State.outcome (s : State) : Except Err (List Byte) :=
  match decode s.latchCmd with
  | .ok i => do validate i s; perform i s
  | .error _ => .error .illegalCommand

theorem engineStep_eq_complete (s : State) :
    ∃ w : Work, engineStep s = .next ({ s with work := w }.complete s.outcome) := by
  unfold engineStep State.outcome
  cases decode s.latchCmd with
  | ok i => exact exec_eq_complete i s
  | error e => exact ⟨s.work, rfl⟩

theorem State.outcome_congr (s : State) (stores : List Host.Cell) (data : List Byte) (loads : Nat) :
    { s with hostStores := stores, hostData := data, loads := loads }.outcome = s.outcome := by
  simp only [State.outcome]
  cases decode s.latchCmd with
  | ok i => cases i <;> rfl
  | error e => rfl

/-- Two engine steps from states that differ only in the host's recorded stores and in what the host loaded end in one error,
or write one output. -/
theorem engineStep_agree {s t u : State} {stores : List Host.Cell} {data : List Byte} {loads : Nat}
    (ht : engineStep s = .next t)
    (hu : engineStep { s with hostStores := stores, hostData := data, loads := loads } = .next u) :
    ∃ w w' : Work,
      (∃ e, t = { s with work := w }.completeError e ∧
        u = { s with work := w', hostStores := stores, hostData := data, loads := loads }.completeError e) ∨
      (∃ out, out.length ≤ s.latch.cap.toNat ∧ t = { s with work := w }.completeOk out ∧
        u = { s with work := w', hostStores := stores, hostData := data, loads := loads }.completeOk out) := by
  obtain ⟨w, het⟩ := engineStep_eq_complete s
  obtain ⟨w', heu⟩ := engineStep_eq_complete { s with hostStores := stores, hostData := data, loads := loads }
  obtain rfl : State.complete { s with work := w } s.outcome = t := by rw [het] at ht; injection ht
  rw [State.outcome_congr] at heu
  obtain rfl :
      State.complete { s with work := w', hostStores := stores, hostData := data, loads := loads } s.outcome = u := by
    rw [heu] at hu; injection hu
  refine ⟨w, w', ?_⟩
  cases s.outcome with
  | error e => exact .inl ⟨e, rfl, rfl⟩
  | ok out =>
    rcases Nat.lt_or_ge s.latch.cap.toNat out.length with hlt | hle
    · exact .inl ⟨.dstOverflow, State.complete_ok_of_lt { s with work := w } out hlt, State.complete_ok_of_lt _ out hlt⟩
    · exact .inr ⟨out, hle, State.complete_ok_of_le { s with work := w } out hle, State.complete_ok_of_le _ out hle⟩

theorem State.completeOk_mem_of_noStores (s : State) (out : List Byte) (h : s.hostStores = []) :
    (s.completeOk out).mem = s.mem.writeBytes s.latch.dst.toNat out := by
  rw [State.completeOk_mem, s.delivered_of_noStores out h]

/-- Without stores of the host, memory after an engine step does not depend on what the host loaded. -/
theorem engineStep_mem_agree {s t u : State} {data : List Byte} {loads : Nat} (hstores : s.hostStores = [])
    (ht : engineStep s = .next t) (hu : engineStep { s with hostData := data, loads := loads } = .next u) :
    t.mem = u.mem := by
  obtain ⟨w, w', ⟨e, rfl, rfl⟩ | ⟨out, _, rfl, rfl⟩⟩ := engineStep_agree (stores := s.hostStores) ht hu
  · rfl
  · rw [State.completeOk_mem_of_noStores { s with work := w } out hstores,
      State.completeOk_mem_of_noStores { s with work := w', hostData := data, loads := loads } out hstores]

/-! Loads. -/

/-- A byte of a load is the one in memory, or one that the command in flight will write, or a recorded one. -/
theorem State.loadByte_cases (s : State) (coming : List Byte) (a : Nat) :
    s.loadByte coming a = s.mem.read a ∨
    (s.status.busy = true ∧ s.latch.dst.toNat ≤ a ∧ a < s.latch.dst.toNat + coming.length ∧
      s.loadByte coming a = coming.getD (a - s.latch.dst.toNat) 0) ∨
    ∃ r ∈ s.unseen, r.addr = a ∧ (s.loadByte coming a = r.written ∨ s.loadByte coming a = r.older) := by
  have hmem := s.loadByte_mem_visible coming a
  rw [State.visible, List.mem_cons, List.mem_append] at hmem
  rcases hmem with hread | hcoming | hrecord
  · exact .inl hread
  · split at hcoming
    next hwindow =>
      simp only [Bool.and_eq_true, decide_eq_true_eq] at hwindow
      obtain ⟨⟨hbusy, hlo⟩, hhi⟩ := hwindow
      exact .inr (.inl ⟨hbusy, hlo, hhi, List.mem_singleton.mp hcoming⟩)
    next => cases hcoming
  · obtain ⟨r, hr, hval⟩ := List.mem_flatMap.mp hrecord
    obtain ⟨hunseen, haddr⟩ := List.mem_filter.mp hr
    exact .inr (.inr ⟨r, hunseen, of_decide_eq_true haddr, by simpa using hval⟩)

/-- Each byte that the command in flight will write is the one that memory holds after its turn. -/
theorem State.comingOutput_getD (s : State) {a : Nat} (hlo : s.latch.dst.toNat ≤ a)
    (hhi : a < s.latch.dst.toNat + s.comingOutput.length) :
    ∃ v, v.status.errcode = 0 ∧ engineStep s.turnState = .next v ∧ a < s.latch.dst.toNat + v.result.toNat ∧
      s.comingOutput.getD (a - s.latch.dst.toNat) 0 = v.mem.read a := by
  obtain ⟨w, hv⟩ := engineStep_eq_complete s.turnState
  generalize State.complete { s.turnState with work := w } s.turnState.outcome = v at hv
  have hout : s.comingOutput =
      if v.status.errcode = 0 then v.mem.readBytes s.latch.dst.toNat v.result.toNat else [] := by
    rw [s.comingOutput_eq, hv]; rfl
  by_cases hok : v.status.errcode = 0
  · rw [hout, if_pos hok, Memory.readBytes_length] at hhi
    rw [hout, if_pos hok, Memory.readBytes_getD _ _ _ _ (by omega), Nat.add_sub_of_le hlo]
    exact ⟨v, hok, hv, hhi, rfl⟩
  · rw [hout, if_neg hok] at hhi
    exact absurd hlo (Nat.not_le.mpr hhi)

/-- A byte of a load is the one in memory, or the one that memory holds after the turn of the command in flight, which writes
it, or a recorded one (20_memory R73; 70_reset R401). -/
theorem State.loadByte_comingOutput_cases (s : State) (rest : List Event) (a : Nat) :
    let b := { s with script := rest }.loadByte s.comingOutput a
    b = s.mem.read a ∨
    (s.status.busy = true ∧ ∃ v, v.status.errcode = 0 ∧ engineStep s.turnState = .next v ∧
      s.latch.dst.toNat ≤ a ∧ a < s.latch.dst.toNat + v.result.toNat ∧ b = v.mem.read a) ∨
    ∃ r ∈ s.unseen, r.addr = a ∧ (b = r.written ∨ b = r.older) := by
  rcases State.loadByte_cases { s with script := rest } s.comingOutput a with hread | ⟨hbusy, hlo, hhi, hb⟩ | hrecord
  · exact .inl hread
  · obtain ⟨v, hok, hv, hlt, hval⟩ := s.comingOutput_getD hlo hhi
    exact .inr (.inl ⟨hbusy, v, hok, hv, hlo, hlt, hb.trans hval⟩)
  · exact .inr (.inr hrecord)

/-- Where the engine's turn follows a load, the command in flight runs there as it would now. -/
theorem State.turnState_of_load_engine {s : State} {a w : Nat} {rest : List Event} (hstores : s.hostStores = [])
    (hs : s.script = .load a w :: .engine :: rest) (hmem : a + w ≤ s.platform.memSize) :
    s.turnState = { s with script := rest } := by
  have hturn : State.atTurn s.script s = some { s with script := rest } := by
    rw [hs]; simp [State.atTurn, inMemory, hmem]
  rw [State.turnState, hturn, Option.getD_some, ← hstores]

/-- The step of a load with the engine's turn right after it, and the step of that turn. -/
theorem step_load_then_turn {s t u : State} {a w : Nat} {rest : List Event} (hbusy : s.status.busy = true)
    (hs : s.script = .load a w :: .engine :: rest) (hblock : inBlock s.platform a = false) (ht : step s = .next t)
    (hu : step t = .next u) :
    a + w ≤ s.platform.memSize ∧
    t.hostData = (List.range w).map (fun k => { s with script := .engine :: rest }.loadByte s.comingOutput (a + k)) ∧
    engineStep { s with script := rest, hostData := t.hostData, loads := s.loads + 1 } = .next u := by
  rw [step_of_load hs] at ht
  rcases Nat.lt_or_ge s.platform.memSize (a + w) with hbeyond | hmem
  · rw [hostLoad_beyond (s := { s with script := .engine :: rest }) _ hblock hbeyond] at ht
    cases ht
  · rw [hostLoad_inMemory (s := { s with script := .engine :: rest }) _ hblock hmem] at ht
    injection ht with ht
    rw [step_of_busy_engineNext (s := t) (ht ▸ hbusy) (.inr (ht ▸ rfl))] at hu
    subst ht
    exact ⟨hmem, rfl, hu⟩

/-- Settles O39: a byte of a load that the command in flight will write is the one its turn writes. -/
theorem hostLoadsOldOrNewBytes : Obligations.HostLoadsOldOrNewBytes := by
  have hbyte (w k : Nat) (f : Nat → Byte) (hk : k < w) : ((List.range w).map f).getD k 0 = f k := by
    simp [List.getD, hk]
  refine ⟨fun s a w rest hs hblock hmem => ?single,
    fun s t u a w rest hbusy hstores hunseen hs hblock ht hu k hk => ?turn⟩
  case single =>
    refine ⟨_, (step_of_load hs).trans (hostLoad_inMemory _ hblock hmem), rfl, by simp, fun k hk => ?_⟩
    rw [hbyte w k _ hk]
    exact s.loadByte_comingOutput_cases rest (a + k)
  case turn =>
    obtain ⟨hmem, hdata, hturn⟩ := step_load_then_turn hbusy hs hblock ht hu
    rw [hdata, hbyte w k _ hk]
    have hcases := s.loadByte_comingOutput_cases (.engine :: rest) (a + k)
    rw [State.turnState_of_load_engine hstores hs hmem] at hcases
    rcases hcases with hread | ⟨_, v, _, hv, _, _, hval⟩ | ⟨r, hr, _⟩
    · exact .inl hread
    · exact .inr (by rw [hval, engineStep_mem_agree (s := { s with script := rest }) hstores hv hturn])
    · rw [hunseen] at hr; cases hr

/-! Completions. -/

theorem unseenBytes_length (a : Nat) (bs old : List Byte) : (unseenBytes a bs old).length = bs.length := by
  induction bs generalizing a old with
  | nil => rfl
  | cons b bs ih => simp [unseenBytes, ih]

/-- A completion records every byte it wrote. -/
theorem unseenBytes_mem {bs : List Byte} (a : Nat) (old : List Byte) {k : Nat} (h : k < bs.length) :
    { addr := a + k, written := bs.getD k 0, older := old.getD k 0 } ∈ unseenBytes a bs old := by
  induction bs generalizing a old k with
  | nil => cases h
  | cons b bs ih =>
    cases k with
    | zero => cases old <;> simp [unseenBytes]
    | succ k =>
      have hrest := ih (a + 1) old.tail (k := k) (by simpa using h)
      rw [show a + 1 + k = a + (k + 1) by omega] at hrest
      cases old <;> exact List.mem_cons_of_mem _ hrest

/-- Of a command and a host that stored there, the byte of one is left, and every other byte is the command's. -/
theorem State.read_writeBytes_delivered (s : State) (out : List Byte) (a : Nat) :
    (s.mem.writeBytes s.latch.dst.toNat (s.delivered out)).read a = (s.mem.writeBytes s.latch.dst.toNat out).read a ∨
    s.hostByte a = some ((s.mem.writeBytes s.latch.dst.toNat (s.delivered out)).read a) := by
  rw [Memory.read_writeBytes, Memory.read_writeBytes, s.delivered_length]
  split
  next hin =>
    have hbyte := s.delivered_getD out (a - s.latch.dst.toNat) (by omega)
    rwa [Nat.add_sub_of_le hin.1] at hbyte
  next => exact .inl rfl

/-- The records that a completion adds: for each byte it wrote, the command's byte and the one before (20_memory R73). -/
theorem State.completeOk_unseen_records (s : State) {out : List Byte} {k : Nat} (h : k < out.length) :
    ∃ r ∈ unseenBytes s.latch.dst.toNat out (s.mem.readBytes s.latch.dst.toNat out.length),
      r.addr = s.latch.dst.toNat + k ∧ r.written = (s.mem.writeBytes s.latch.dst.toNat out).read r.addr ∧
      r.older = s.mem.read r.addr :=
  ⟨_, unseenBytes_mem _ _ h, rfl, (s.mem.read_writeBytes_inside _ k out h).symm, s.mem.readBytes_getD _ _ k h⟩

/-! Stores. -/

theorem State.hostByte_of_storeBytes_ne {s : State} {bs : List Byte} {a x : Nat}
    (h : s.hostByte x ≠ (s.storeBytes a bs).hostByte x) : a ≤ x ∧ x < a + bs.length := by
  rw [State.storeBytes_hostByte] at h
  split at h
  next hin => exact hin.2.2
  next => exact absurd rfl h

/-- A byte that is not observed holds the host's byte or the command's after a store to it, and its record stays open. -/
theorem State.storeBytes_of_unseenAt (s : State) (bs : List Byte) (a : Nat) {k : Nat} (hk : k < bs.length) {r : UnseenByte}
    (hr : s.unseenAt (a + k) = some r) :
    ((s.storeBytes a bs).mem.read (a + k) = bs.getD k 0 ∨ (s.storeBytes a bs).mem.read (a + k) = r.written) ∧
    (s.storeBytes a bs).unseenAt (a + k) = some { addr := a + k, written := r.written, older := bs.getD k 0 } := by
  refine ⟨?byte, ?record⟩
  case byte =>
    rcases s.storeBytes_read_inside bs a k hk with hread | ⟨u, hu, hread⟩
    · exact .inl hread
    · obtain rfl : r = u := Option.some_inj.mp (hr.symm.trans hu)
      exact .inr hread
  case record =>
    rw [State.storeBytes_unseenAt, if_pos (by omega), hr, Nat.add_sub_cancel_left, Option.map_some]

/-- Settles O40: the two engine steps write one output, and each delivered byte of it is the host's or the command's. -/
theorem destinationRaceHasTwoOutcomes : Obligations.DestinationRaceHasTwoOutcomes := by
  refine ⟨fun s t u ht hu => ?outcomes, fun s t u ht hu => ?records, fun s a bs rest hs hblock hmem => ?store⟩
  case outcomes =>
    obtain ⟨w, w', ⟨e, rfl, rfl⟩ | ⟨out, _, rfl, rfl⟩⟩ := engineStep_agree ht hu
    · exact ⟨rfl, rfl, fun a => .inl rfl⟩
    · refine ⟨rfl, rfl, fun a => ?_⟩
      rw [State.completeOk_mem_of_noStores { s with work := w', hostStores := [] } out rfl]
      exact State.read_writeBytes_delivered { s with work := w } out a
  case records =>
    obtain ⟨w, w', ⟨e, rfl, rfl⟩ | ⟨out, hle, rfl, rfl⟩⟩ := engineStep_agree ht hu
    · exact ⟨fun _ => rfl, fun hok => absurd hok e.code_ne_zero⟩
    · refine ⟨fun hne => absurd rfl hne, fun _ => ⟨_, rfl, ?_⟩⟩
      rw [State.completeOk_result_toNat { s with work := w } hle,
        State.completeOk_mem_of_noStores { s with work := w', hostStores := [] } out rfl]
      exact ⟨unseenBytes_length _ _ _, fun k hk => State.completeOk_unseen_records { s with work := w } hk⟩
  case store =>
    refine ⟨_, (step_of_store hs).trans (hostStore_inMemory hblock hmem), ?frame, ?hostByte,
      fun k hk => ⟨?inDest, ?record⟩⟩
    case frame => exact fun x hx => State.storeBytes_read_outside bs { s with script := rest } a x hx
    case hostByte => exact fun x hx => State.hostByte_of_storeBytes_ne (s := { s with script := rest }) hx
    case inDest =>
      intro hbusy hdest
      rw [State.storeBytes_hostByte, if_pos ⟨hbusy, hdest, by omega⟩, Nat.add_sub_cancel_left]
    case record => exact fun r hr => State.storeBytes_of_unseenAt { s with script := rest } bs a hk hr

end Sys2Proof.Machine
end

