-- ==== Sys2Proof/Proofs/SourceRace.lean ====
section
/-! PROOFS. Races on the source window (70_reset R400): every command with a source follows its rules on readings of held
values. -/

namespace Sys2Proof.Machine

open Sys2Proof

/-! Readings. -/

/-- Every snapshot is a reading of held values. -/
theorem State.snapshot_heldReading (s : State) (r : List Nat) : s.heldReading (s.snapshot r) :=
  ⟨s.snapshot_length r, fun k hk => s.snapshot_getD_mem r k hk⟩

/-- Every reading of settled bytes of the window sees the bytes in memory. -/
theorem State.snapshot_of_settledAt (s : State) {k n : Nat} (h : s.settledAt k n) (hle : k + n ≤ s.latch.len.toNat)
    (r : List Nat) : ((s.snapshot r).drop k).take n = s.mem.readBytes (s.latch.src.toNat + k) n := by
  have hlen : (((s.snapshot r).drop k).take n).length = n := by
    rw [List.length_take, List.length_drop, s.snapshot_length]; omega
  refine List.ext_getElem (hlen.trans (Memory.readBytes_length _ _ _).symm) fun j hj hj' => ?_
  have hjn : j < n := hlen ▸ hj
  have hseen : s.seen r (s.latch.src.toNat + k + j) = s.mem.read (s.latch.src.toNat + k + j) :=
    h j hjn _ (s.seen_mem_heldValues r _)
  rw [← List.getD_eq_getElem _ 0 hj', Memory.readBytes_getD _ _ _ _ hjn, ← hseen, Nat.add_assoc,
    ← s.snapshot_getD r (k + j) (by omega), List.getElem_take, List.getElem_drop, List.getD_eq_getElem]

/-- Raced or not, BLK_DEC decodes two readings of the window. -/
theorem State.decodeOutput_eq_snapshots (s : State) (bpp : Nat) :
    s.decodeOutput bpp =
      decodeWith (decodeFullSeen (s.snapshot [0]) bpp) bpp s.latch.olen.toNat (s.snapshot [1]) := by
  by_cases h : s.unraced = true
  · have hs := s.settled_of_unraced h
    rw [s.decodeOutput_of_settled bpp hs, s.snapshot_of_settled hs, s.snapshot_of_settled hs, decodeWith_agree]
  · exact if_neg h

/-- Raced or not, BLK_ENC encodes readings of the window. -/
theorem State.encodeOutput_eq_snapshots (s : State) (lzEn : Bool) (bpp : Nat) :
    s.encodeOutput lzEn bpp = encodeSuperblockSeen lzEn bpp s.latch.len.toNat s.snapshot := by
  by_cases h : s.unraced = true
  · have hs := s.settled_of_unraced h
    have hsnapshot : s.snapshot = fun _ => s.source := funext (s.snapshot_of_settled hs)
    rw [s.encodeOutput_of_settled lzEn bpp hs, hsnapshot, ← s.source_length, encodeSuperblockSeen_agree]
  · exact if_neg h

/-! What a command that passes every check does with what it performs, raced or not. -/

/-- An output that fits the capacity is produced, if the host stored nothing into the destination window. -/
theorem producesOutput_of_perform {i : Instr} {s : State} {out : List Byte} (hv : validateByR123 i s = none)
    (hstores : s.hostStores = []) (hout : perform i s = .ok out) (hle : out.length ≤ s.latch.cap.toNat) :
    producesOutput i s out := by
  obtain ⟨w, heq⟩ := exec_of_valid hv
  have hsucceeded := State.completeOk_succeededWith { s with work := w } hle
  have hread := State.readBytes_completeOk { s with work := w } hstores hle
  rw [State.completeOk_result_toNat { s with work := w } hle] at hread
  rw [hout, State.complete_ok_of_le { s with work := w } out hle] at heq
  exact ⟨_, heq, hsucceeded, hread⟩

/-- An output that does not fit the capacity is refused. -/
theorem endedInError_of_perform_overflow {i : Instr} {s : State} {out : List Byte} (hv : validateByR123 i s = none)
    (hout : perform i s = .ok out) (hlt : s.latch.cap.toNat < out.length) :
    ∃ t, exec i s = .next t ∧ endedInError s t .dstOverflow := by
  obtain ⟨w, heq⟩ := exec_of_valid hv
  rw [hout, State.complete_ok_of_lt { s with work := w } out hlt] at heq
  exact ⟨_, heq, State.completeError_endedInError { s with work := w } .dstOverflow⟩

/-- An error is the command's. -/
theorem endedInError_of_perform_error {i : Instr} {s : State} {e : Err} (hv : validateByR123 i s = none)
    (he : perform i s = .error e) : ∃ t, exec i s = .next t ∧ endedInError s t e := by
  obtain ⟨w, heq⟩ := exec_of_valid hv
  rw [he] at heq
  exact ⟨_, heq, State.completeError_endedInError { s with work := w } e⟩

/-! SHUFFLE, UNSHUFFLE, DELTA and DELTA_INV. -/

/-- The command `i` succeeds with LEN bytes, and each is the byte that the kernel `f` computes from a reading of held values. -/
abbrev seesHeldValues (i : Instr) (f : List Byte → List Byte) (s : State) : Prop :=
  ∃ t, exec i s = .next t ∧ succeededWith s t s.latch.len.toNat ∧
    ∀ k, k < s.latch.len.toNat → ∃ xs, s.heldReading xs ∧ t.mem.read (s.latch.dst.toNat + k) = (f xs).getD k 0

theorem seesHeldValues_of_perform {i : Instr} {s : State} {f : List Byte → List Byte} (hv : validateByR123 i s = none)
    (hstores : s.hostStores = []) (hop : i.op ≤ 4) (hperform : perform i s = .ok (s.kernelOutput f))
    (hf : ∀ x, x.length = s.latch.len.toNat → (f x).length = x.length) : seesHeldValues i f s := by
  obtain ⟨out, hout, hle⟩ := perform_fits hv hop
  obtain rfl : s.kernelOutput f = out := by rw [hperform] at hout; injection hout
  obtain ⟨t, hexec, hsucceeded, hread⟩ :=
    exec_of_producesOutput (producesOutput_of_perform hv hstores hperform hle) (s.kernelOutput_length f hf)
  refine ⟨t, hexec, hsucceeded, fun k hk => ?_⟩
  obtain ⟨xs, hlen, hheld, hbyte⟩ := s.kernelOutput_getD f k hk
  exact ⟨xs, ⟨hlen, hheld⟩, (hread k hk).trans hbyte⟩

theorem shuffle_seesHeldValues {bpp : Nat} {s : State} (hv : validateByR123 (.shuffle bpp) s = none)
    (hstores : s.hostStores = []) : seesHeldValues (.shuffle bpp) (shuffle bpp) s := by
  obtain ⟨_, hwhole, _, _⟩ := validateByR123_shuffle.mp hv
  exact seesHeldValues_of_perform hv hstores (by simp [Instr.op]) rfl fun x hx => shuffle_length bpp x (hx ▸ hwhole)

theorem unshuffle_seesHeldValues {bpp : Nat} {s : State} (hv : validateByR123 (.unshuffle bpp) s = none)
    (hstores : s.hostStores = []) : seesHeldValues (.unshuffle bpp) (unshuffle bpp) s := by
  obtain ⟨_, hwhole, _, _⟩ := validateByR123_unshuffle.mp hv
  exact seesHeldValues_of_perform hv hstores (by simp [Instr.op]) rfl fun x hx => unshuffle_length bpp x (hx ▸ hwhole)

theorem delta_seesHeldValues {bpp : Nat} {s : State} (hv : validateByR123 (.delta bpp) s = none)
    (hstores : s.hostStores = []) : seesHeldValues (.delta bpp) delta s :=
  seesHeldValues_of_perform hv hstores (by simp [Instr.op]) rfl fun x _ => delta_length x

theorem deltaInv_seesHeldValues {bpp : Nat} {s : State} (hv : validateByR123 (.deltaInv bpp) s = none)
    (hstores : s.hostStores = []) : seesHeldValues (.deltaInv bpp) deltaInv s :=
  seesHeldValues_of_perform hv hstores (by simp [Instr.op]) rfl fun x _ => deltaInv_length x

/-- Settles O41: each of the four performs its kernel, and SHUFFLE's moves a byte of its reading. -/
theorem racedKernelsSeeHeldValues : Obligations.RacedKernelsSeeHeldValues := by
  refine ⟨fun bpp s hv hstores => ?shuffle, fun bpp s hstores => ?kernels⟩
  case shuffle =>
    obtain ⟨t, hexec, hsucceeded, hread⟩ := shuffle_seesHeldValues hv hstores
    obtain ⟨_, hwhole, _, _⟩ := validateByR123_shuffle.mp hv
    refine ⟨t, hexec, hsucceeded, fun j p hj hp => ?_⟩
    obtain ⟨xs, ⟨hlen, hheld⟩, hbyte⟩ := hread _ (plane_byte_lt hwhole hj hp)
    have hmoved := shuffle_getD bpp xs (hlen ▸ hj) hp
    rw [hlen] at hmoved
    rw [hbyte, hmoved]
    exact hheld _ (element_byte_lt hwhole hj hp)
  case kernels =>
    simp only [List.forall_mem_cons]
    exact ⟨fun hv => shuffle_seesHeldValues hv hstores, fun hv => unshuffle_seesHeldValues hv hstores,
      fun hv => delta_seesHeldValues hv hstores, fun hv => deltaInv_seesHeldValues hv hstores, List.forall_mem_nil _⟩

/-! BLK_DEC. -/

theorem decodeFullSeen_gives (look : List Byte) (b : Nat) (t : List Byte) : Gives (256 * b) (decodeFullSeen look b t) := by
  cases t with
  | nil => exact answers_error
  | cons x rest => exact decodeRecord_gives b _ _

/-- Whatever reads the blocks, a superblock that decodes has the bytes asked for. -/
theorem decodeWith_length {full : List Byte → Except Err (List Byte × List Byte)} (b n : Nat)
    (hfull : ∀ t, Gives (256 * b) (full t)) (t : List Byte) :
    Answers (fun out => out.length = n) (decodeWith full b n t) := by
  refine answers_bind (decodeFulls_gives hfull _ t) fun (blks, t) hblks =>
    answers_bind (decodeTail_gives b _ t) fun (tail, t) htail =>
      answers_ite (fun _ => answers_ok ?_) fun _ => answers_error
  rw [List.length_append, hblks, htail]
  exact Nat.div_add_mod' _ _

theorem State.decodeOutput_length (s : State) (bpp : Nat) :
    Answers (fun out => out.length = s.latch.olen.toNat) (s.decodeOutput bpp) := by
  rw [s.decodeOutput_eq_snapshots]
  exact decodeWith_length bpp _ (decodeFullSeen_gives _ bpp) _

/-- Raced or not, in either window, BLK_DEC ends in success with OLEN or in a stream's defect. -/
theorem exec_blkDec_cases {bpp : Nat} {s : State} (hv : validateByR123 (.blkDec bpp) s = none) :
    ∃ t, exec (.blkDec bpp) s = .next t ∧
      ((t.status.errcode = 0 ∧ t.result = s.latch.olen) ∨ endedInError s t .srcOverflow ∨
        endedInError s t .invalidInput) := by
  obtain ⟨_, _, _, _, hcap⟩ := validateByR123_blkDec.mp hv
  cases hout : s.decodeOutput bpp with
  | error e =>
    obtain ⟨t, hexec, herror⟩ := endedInError_of_perform_error (i := .blkDec bpp) hv hout
    rcases s.decodeOutput_errors bpp e hout with rfl | rfl
    · exact ⟨t, hexec, .inr (.inl herror)⟩
    · exact ⟨t, hexec, .inr (.inr herror)⟩
  | ok out =>
    obtain ⟨w, heq⟩ := exec_of_valid hv
    have hlen := s.decodeOutput_length bpp out hout
    rw [show perform (.blkDec bpp) s = .ok out from hout,
      State.complete_ok_of_le { s with work := w } out (hlen.trans_le hcap)] at heq
    refine ⟨_, heq, .inl ⟨rfl, ?_⟩⟩
    rw [State.completeOk_result, hlen, BitVec.ofNat_toNat, BitVec.setWidth_eq]

/-- What BLK_DEC decodes decides how it ends, if the host stored nothing into the destination window. -/
theorem exec_blkDec_of_decodeOutput {bpp : Nat} {s : State} (hv : validateByR123 (.blkDec bpp) s = none)
    (hstores : s.hostStores = []) :
    ∃ t, exec (.blkDec bpp) s = .next t ∧
      (∀ out, s.decodeOutput bpp = .ok out → succeededWith s t s.latch.olen.toNat ∧
        t.mem.readBytes s.latch.dst.toNat s.latch.olen.toNat = out) ∧
      (∀ e, s.decodeOutput bpp = .error e → endedInError s t e) := by
  obtain ⟨_, _, _, _, hcap⟩ := validateByR123_blkDec.mp hv
  cases hout : s.decodeOutput bpp with
  | error e =>
    obtain ⟨t, hexec, herror⟩ := endedInError_of_perform_error (i := .blkDec bpp) hv hout
    exact ⟨t, hexec, nofun, fun e' he => by cases he; exact herror⟩
  | ok out =>
    have hlen := s.decodeOutput_length bpp out hout
    obtain ⟨t, hexec, hproduced⟩ := producesOutput_of_perform (i := .blkDec bpp) hv hstores hout (hlen.trans_le hcap)
    rw [hlen] at hproduced
    exact ⟨t, hexec, fun out' he => by cases he; exact hproduced, nofun⟩

/-! BLK_ENC. -/

/-- The records that a superblock's full blocks take on readings of the window. -/
def recordsSeen (lzEn : Bool) (b n : Nat) (see : Reads) : List (List Byte) :=
  (List.range (n / (256 * b))).map fun k =>
    encodeFullSeen lzEn b fun path => ((see (k :: path)).drop (k * (256 * b))).take (256 * b)

/-- The tail's record on readings of the window, if there is a tail. -/
def tailSeen (b n : Nat) (see : Reads) : List Byte :=
  if n % (256 * b) = 0 then []
  else encodePartialSeen b (n % (256 * b)) fun path =>
    (see (n / (256 * b) :: path)).drop (n / (256 * b) * (256 * b))

theorem encodeSuperblockSeen_eq (lzEn : Bool) (b n : Nat) (see : Reads) :
    encodeSuperblockSeen lzEn b n see = (recordsSeen lzEn b n see).flatten ++ tailSeen b n see := rfl

@[simp] theorem recordsSeen_length (lzEn : Bool) (b n : Nat) (see : Reads) :
    (recordsSeen lzEn b n see).length = n / (256 * b) := by
  simp [recordsSeen]

/-- Block `k` of a superblock lies in it. -/
theorem block_end_le {k n size : Nat} (h : k < n / size) : k * size + size ≤ n :=
  calc k * size + size = (k + 1) * size := (Nat.succ_mul k size).symm
    _ ≤ n / size * size := Nat.mul_le_mul_right size h
    _ ≤ n := Nat.div_mul_le_self n size

/-- The record of a full block that no store changed is the encoder's. -/
theorem State.recordsSeen_of_settledAt (s : State) (lzEn : Bool) (b : Nat) {k : Nat}
    (hk : k < s.latch.len.toNat / (256 * b)) (h : s.settledAt (k * (256 * b)) (256 * b)) :
    (recordsSeen lzEn b s.latch.len.toNat s.snapshot).getD k [] =
      encodeFull lzEn b (s.mem.readBytes (s.latch.src.toNat + k * (256 * b)) (256 * b)) := by
  have hblock := s.snapshot_of_settledAt h (block_end_le hk)
  rw [← encodeFullSeen_agree lzEn b _ (Memory.readBytes_length _ _ _)]
  simp [recordsSeen, List.getD, hk, hblock]

/-- The tail's record, if no store changed the tail, is the encoder's. -/
theorem State.tailSeen_of_settledAt (s : State) (b : Nat) (hne : s.latch.len.toNat % (256 * b) ≠ 0)
    (h : s.settledAt (s.latch.len.toNat / (256 * b) * (256 * b)) (s.latch.len.toNat % (256 * b))) :
    tailSeen b s.latch.len.toNat s.snapshot =
      encodePartial b (s.mem.readBytes (s.latch.src.toNat + s.latch.len.toNat / (256 * b) * (256 * b))
        (s.latch.len.toNat % (256 * b))) := by
  have hsplit := Nat.div_add_mod' s.latch.len.toNat (256 * b)
  have htail (r : List Nat) := s.snapshot_of_settledAt h hsplit.le r
  have hwhole (r : List Nat) : ((s.snapshot r).drop (s.latch.len.toNat / (256 * b) * (256 * b))).length ≤
      s.latch.len.toNat % (256 * b) := by
    rw [List.length_drop, s.snapshot_length]; omega
  simp only [List.take_of_length_le (hwhole _)] at htail
  rw [← encodePartialSeen_agree, Memory.readBytes_length, tailSeen, if_neg hne]
  simp only [htail]

/-- What BLK_ENC encodes decides how it ends, if the host stored nothing into the destination window. -/
theorem exec_blkEnc_of_encodeOutput {lzEn : Bool} {bpp : Nat} {s : State} {out : List Byte}
    (hv : validateByR123 (.blkEnc lzEn bpp) s = none) (hstores : s.hostStores = []) (hout : s.encodeOutput lzEn bpp = out) :
    ∃ t, exec (.blkEnc lzEn bpp) s = .next t ∧
      (out.length ≤ s.latch.cap.toNat →
        succeededWith s t out.length ∧ t.mem.readBytes s.latch.dst.toNat out.length = out) ∧
      (s.latch.cap.toNat < out.length → endedInError s t .dstOverflow) := by
  have hperform : perform (.blkEnc lzEn bpp) s = .ok out := congrArg _ hout
  rcases Nat.lt_or_ge s.latch.cap.toNat out.length with hlt | hle
  · obtain ⟨t, hexec, herror⟩ := endedInError_of_perform_overflow hv hperform hlt
    exact ⟨t, hexec, fun hle => absurd hlt hle.not_gt, fun _ => herror⟩
  · obtain ⟨t, hexec, hproduced⟩ := producesOutput_of_perform hv hstores hperform hle
    exact ⟨t, hexec, fun _ => hproduced, fun hlt => absurd hlt hle.not_gt⟩

/-- Settles O42: the readings are the snapshots of the window. -/
theorem racedBlockCommandsSeeHeldValues : Obligations.RacedBlockCommandsSeeHeldValues := by
  refine ⟨fun bpp s hv => exec_blkDec_cases hv, fun bpp s hv hstores => ?decode, fun lzEn bpp s hv hstores => ?encode⟩
  case decode =>
    obtain ⟨t, hexec, hends⟩ := exec_blkDec_of_decodeOutput hv hstores
    rw [s.decodeOutput_eq_snapshots] at hends
    exact ⟨t, s.snapshot [0], s.snapshot [1], hexec, s.snapshot_heldReading _, s.snapshot_heldReading _, hends⟩
  case encode =>
    obtain ⟨t, hexec, hfits, hoverflows⟩ :=
      exec_blkEnc_of_encodeOutput hv hstores (s.encodeOutput_eq_snapshots lzEn bpp)
    refine ⟨t, s.snapshot, _, hexec, s.snapshot_heldReading, rfl, hfits, hoverflows,
      recordsSeen lzEn bpp s.latch.len.toNat s.snapshot, tailSeen bpp s.latch.len.toNat s.snapshot,
      encodeSuperblockSeen_eq _ _ _ _, recordsSeen_length _ _ _ _, fun k hk hsettled => ?_, fun h0 => if_pos h0, ?_⟩
    · exact s.recordsSeen_of_settledAt lzEn bpp (by rwa [recordsSeen_length] at hk) hsettled
    · rw [recordsSeen_length]
      exact s.tailSeen_of_settledAt bpp

end Sys2Proof.Machine
end
